-- ==== Sys2Proof/Word.lean ====
section
/-! DEFINITION. The two bit-vector types of PNGENC: every register, address and command word is 32 bits wide, every
emitted or consumed byte 8 bits (00_scope.md R8, R10). -/

namespace Sys2Proof

/-- A register value, a host address or a command word (R8). -/
abbrev Word := BitVec 32

/-- A byte, an integer in [0, 255] (R10). -/
abbrev Byte := BitVec 8

end Sys2Proof
end

