-- ==== Sys2Proof/Syntax.lean ====
section
/-! DEFINITION. The twenty commands of PNGENC command set version 1, one constructor per row of the opcode map
(30_encoding.md R71). -/

namespace Sys2Proof

/-- A command. The I-form commands carry their byte operand IMM8 (30_encoding.md R69); the operands of the N-form commands
are registers (R19, R70) and no part of the word. -/
inductive Instr where
  /-- Do nothing (44_misc.md R119). -/
  | nop
  /-- Start a new CRC (43_crc32.md R111). -/
  | crcInit
  /-- Fold one byte into the CRC (R112). -/
  | crcByte (imm : Byte)
  /-- Fold the four bytes of DATA into the CRC (R113). -/
  | crcWord
  /-- Start a new Adler-32 (R115). -/
  | adlerInit
  /-- Fold one byte into the Adler-32 (R116). -/
  | adlerByte (imm : Byte)
  /-- Fold the four bytes of DATA into the Adler-32 (R117). -/
  | adlerWord
  /-- Emit one byte (41_chunk_serializer.md R89). -/
  | putByte (imm : Byte)
  /-- Emit the four bytes of DATA (R90). -/
  | putWord
  /-- Open a chunk of the type in DATA (R91). -/
  | chunkBegin
  /-- Close the open chunk (R92). -/
  | chunkEnd
  /-- Open a zlib stream (42_deflate.md R103). -/
  | zBegin
  /-- Append one byte to the stream's input (R104). -/
  | zByte (imm : Byte)
  /-- Append the four bytes of DATA to the stream's input (R105). -/
  | zWord
  /-- Compress the stream's input and emit the zlib stream (R106). -/
  | zEnd
  /-- Emit the PNG signature (40_png_encoder.md R81). -/
  | emitSig
  /-- Emit the IHDR chunk (R82). -/
  | emitIhdr
  /-- Emit the IDAT chunk (R83). -/
  | emitIdat
  /-- Emit the IEND chunk (R84). -/
  | emitIend
  /-- Write the whole PNG document at OBUF offset 0 (R85). -/
  | encode
  deriving DecidableEq, Repr

/-- The two forms of a command word (30_encoding.md R68): N has no operand, I a byte operand in bits [15:8]. -/
inductive Form where
  | n
  | i
  deriving DecidableEq, Repr

end Sys2Proof
end

