-- ==== Sys2Proof/WellFormed.lean ====
section
/-! DEFINITION. When a 32-bit word is a command word (30_encoding.md R68, R71), in three checks, and the assembler's check
of a byte operand (R75). A term of `Instr` needs none: its only field is a byte. -/

namespace Sys2Proof

/-- The OP field, bits [7:0] (R68). -/
def opField (w : Word) : Byte := w.extractLsb' 0 8

/-- The IMM8 field, bits [15:8] (R68, R69). -/
def immField (w : Word) : Byte := w.extractLsb' 8 8

/-- The MBZ field, bits [31:16] (R68). -/
def mbzField (w : Word) : BitVec 16 := w.extractLsb' 16 16

/-- The OP and form columns of the opcode map (R71), in its order. -/
def opcodeMap : List (Byte × Form) :=
  [(0x00, .n), (0x01, .n), (0x02, .i), (0x03, .n), (0x04, .n), (0x05, .i), (0x06, .n)] ++
  [(0x10, .i), (0x11, .n), (0x12, .n), (0x13, .n)] ++
  [(0x20, .n), (0x21, .i), (0x22, .n), (0x23, .n)] ++
  [(0x30, .n), (0x31, .n), (0x32, .n), (0x33, .n), (0x3F, .n)]

/-- The form of an OP value, or none for the 236 reserved values (R71, R72). -/
def formOf (op : Byte) : Option Form := opcodeMap.lookup op

/-- Check 1: OP is a value of the opcode map (R71). -/
def opKnown (w : Word) : Bool := (formOf (opField w)).isSome

/-- Check 2: MBZ = 0 (R71). -/
def mbzClear (w : Word) : Bool := mbzField w == 0

/-- Check 3: IMM8 = 0 unless the form has a byte operand (R71). -/
def immAllowed (w : Word) : Bool := formOf (opField w) == some .i || immField w == 0

/-- A word is a command exactly when all three checks pass (R71); every other word is illegal (R72). -/
def wordWellFormed (w : Word) : Bool := opKnown w && mbzClear w && immAllowed w

/-- An assembler operand must be in [0, 255] (R75). -/
def operandInRange (imm : Nat) : Bool := decide (imm < 256)

end Sys2Proof
end

