-- ==== Sys2Proof/Decode.lean ====
section
/-! DEFINITION. The decoder of command words, total on all 2^32 words and rejecting by name, and the encoder
(30_encoding.md R68 to R74). -/

namespace Sys2Proof

/-- Why a word is illegal (30_encoding.md R72). All three complete with the one error ILLEGAL. -/
inductive Reject where
  /-- MBZ is not 0. -/
  | mbzNotZero
  /-- OP is none of the twenty values of the opcode map. -/
  | reservedOp
  /-- IMM8 is not 0 in an N-form command. -/
  | immNotZero
  deriving DecidableEq, Repr

/-- An N-form command: IMM8 must be 0 (R68, R71). -/
def nForm (imm : Byte) (i : Instr) : Except Reject Instr :=
  if imm = 0 then .ok i else .error .immNotZero

/-- The opcode map (R71): the command of the OP value `op` with the IMM8 field `imm`. -/
def decodeOp (op : Nat) (imm : Byte) : Except Reject Instr :=
  match op with
  | 0x00 => nForm imm .nop
  | 0x01 => nForm imm .crcInit
  | 0x02 => .ok (.crcByte imm)
  | 0x03 => nForm imm .crcWord
  | 0x04 => nForm imm .adlerInit
  | 0x05 => .ok (.adlerByte imm)
  | 0x06 => nForm imm .adlerWord
  | 0x10 => .ok (.putByte imm)
  | 0x11 => nForm imm .putWord
  | 0x12 => nForm imm .chunkBegin
  | 0x13 => nForm imm .chunkEnd
  | 0x20 => nForm imm .zBegin
  | 0x21 => .ok (.zByte imm)
  | 0x22 => nForm imm .zWord
  | 0x23 => nForm imm .zEnd
  | 0x30 => nForm imm .emitSig
  | 0x31 => nForm imm .emitIhdr
  | 0x32 => nForm imm .emitIdat
  | 0x33 => nForm imm .emitIend
  | 0x3F => nForm imm .encode
  | _ => .error .reservedOp

/-- Decoding looks at the whole word (R71). -/
def decode (w : Word) : Except Reject Instr :=
  if mbzField w = 0 then decodeOp (opField w).toNat (immField w) else .error .mbzNotZero

/-- The OP value of a command (R71). -/
def opcode : Instr → Byte
  | .nop => 0x00
  | .crcInit => 0x01
  | .crcByte _ => 0x02
  | .crcWord => 0x03
  | .adlerInit => 0x04
  | .adlerByte _ => 0x05
  | .adlerWord => 0x06
  | .putByte _ => 0x10
  | .putWord => 0x11
  | .chunkBegin => 0x12
  | .chunkEnd => 0x13
  | .zBegin => 0x20
  | .zByte _ => 0x21
  | .zWord => 0x22
  | .zEnd => 0x23
  | .emitSig => 0x30
  | .emitIhdr => 0x31
  | .emitIdat => 0x32
  | .emitIend => 0x33
  | .encode => 0x3F

/-- The byte operand of an I-form command, 0 for an N-form command (R68). -/
def immOf : Instr → Byte
  | .crcByte imm | .adlerByte imm | .putByte imm | .zByte imm => imm
  | _ => 0

/-- The word of a command: 0x0000iiPP (R71). -/
def encode (i : Instr) : Word := (0#16 ++ immOf i ++ opcode i : BitVec (16 + 8 + 8))

/-- The command the decoder reads from an opcode-table row of `nbits` bits with value `w`. The bits above `nbits` are 0. -/
def decodeTableWord (nbits w : Nat) : Option Instr :=
  (decode (BitVec.ofNat 32 (w % 2 ^ nbits))).toOption

end Sys2Proof
end

