-- ==== Sys2Proof/Machine/Checksum.lean ====
section
/-! DEFINITION. The CRC-32 and Adler-32 updates (43_crc32.md R108 to R110, R114). -/

namespace Sys2Proof.Machine

/-- The bit-reversed generator polynomial (R108). -/
def crcPoly : Word := 0xEDB88320#32

/-- One of the eight repetitions of crc_upd8 (R109). -/
def crcShift (c : Word) : Word :=
  if c.getLsbD 0 then (c >>> 1) ^^^ crcPoly else c >>> 1

/-- `k` repetitions of the shift step of crc_upd8 (R109). -/
def crcShifts : Nat → Word → Word
  | 0, c => c
  | k + 1, c => crcShifts k (crcShift c)

/-- crc_upd8: the update of state `c` by one byte (R109). -/
def crcUpd8 (c : Word) (b : Byte) : Word := crcShifts 8 (c ^^^ b.setWidth 32)

/-- crc_seq: the update by a byte sequence (R110). -/
def crcSeq : Word → List Byte → Word
  | c, [] => c
  | c, b :: s => crcSeq (crcUpd8 c b) s

/-- crc_final: the final inversion (R110). -/
def crcFinal (c : Word) : Word := c ^^^ 0xFFFFFFFF#32

/-- The Adler-32 modulus (R114). -/
def adlerMod : Nat := 65521

/-- adler_upd8, on a value with s1 in bits [15:0] and s2 in bits [31:16] (R114). -/
def adlerUpd8 (a : Word) (b : Byte) : Word :=
  let s1 := (a.toNat % 65536 + b.toNat) % adlerMod
  let s2 := (a.toNat / 65536 + s1) % adlerMod
  BitVec.ofNat 32 (s2 * 65536 + s1)

/-- adler_seq: the update by a byte sequence (R114). -/
def adlerSeq : Word → List Byte → Word
  | a, [] => a
  | a, b :: s => adlerSeq (adlerUpd8 a b) s

end Sys2Proof.Machine
end

