-- ==== Sys2Proof/Config.lean ====
section
/-! DEFINITION. What is fixed for the machine (parameters and constants) and the free values: the opaque constants stand
for every value the spec calls unspecified; nothing in Lean can evaluate them. -/

namespace Sys2Proof

/-- ID reads this at all times (10_state.md R21). -/
def Config.idValue : Word := 0x504E4701#32

/-- The size parameters of a block, each in its legal range (00_scope.md R5, R6; U16, U17). They are an argument of the
model: the machine of a build is the one that starts at `State.resetOf` of it. -/
structure Build where
  /-- OBUF_SIZE, the number of bytes of OBUF (R5). -/
  obufSize : Nat
  /-- ZIN_MAX, the capacity of ZIN (R6). -/
  zinMax : Nat
  /-- 64 <= OBUF_SIZE <= 2^24 (R5). -/
  obuf_range : 64 ≤ obufSize ∧ obufSize ≤ 16777216
  /-- 4 <= ZIN_MAX <= 2^24 (R6). -/
  zin_range : 4 ≤ zinMax ∧ zinMax ≤ 16777216
  deriving DecidableEq, Repr

/-- This hardware: OBUF_SIZE = 4 194 304 and ZIN_MAX = 65 536 (R5, R6). -/
def Config.thisBuild : Build := ⟨4194304, 65536, by decide, by decide⟩

/-- Which of the 128 aligned 32 MiB regions of the host address space PNGENC occupies; the platform decides
(20_memory.md R52, U19). Free value (log 2), safe. -/
opaque Config.baseIndex : BitVec 7

/-- BASE, a multiple of 0x02000000 (20_memory.md R52). -/
def Config.base : Word := Config.baseIndex ++ 0#25

/-- Draw `n`, as a 32-bit register read made while a command is pending (20_memory.md R62, U5).
Free value (log 8), safe. -/
opaque Config.freeRead : Nat → Word

/-- Draw `n`, as the OBUF byte at an offset that the pending command may write (20_memory.md R62, U6).
Free value (log 8), safe. -/
opaque Config.freeBusByte : Nat → Nat → Byte

/-- The value that the OBUF byte at an offset holds since event `n` left it unspecified: `0` is power-on, a later number
the draw of an OFLOW, a busy soft reset or a hardware reset (60_exceptions.md R126, 70_reset_and_hazards.md R142 and
R143, U7 to U9). Free value (log 9), safe. -/
opaque Config.freeObufByte : Nat → Nat → Byte

end Sys2Proof
end

