-- ==== Sys2Proof/Machine/State.lean ====
section
/-! DEFINITION. The state of PNGENC (10_state.md R16): the registers, OBUF, ZIN and PEND, with the level of RST and the
model's own schedule of host accesses and engine turns; the two stop types; the state after reset. -/

namespace Sys2Proof.Machine

/-- A command error (60_exceptions.md R123). Codes 6 to 15 are never produced. -/
inductive CmdError where
  /-- Code 1: the word is no command. -/
  | illegal
  /-- Code 2: not allowed in the current COPEN / ZOPEN state. -/
  | seq
  /-- Code 3: WIDTH or HEIGHT outside [1, 2^31 - 1]. -/
  | param
  /-- Code 4: the bytes do not fit in ZIN. -/
  | zfull
  /-- Code 5: a put at OPTR >= OBUF_SIZE. -/
  | oflow
  deriving DecidableEq, Repr

/-- CTRL.ZMODE: only 0b00 and 0b01 can be held (10_state.md R25; DEDUCED, log 16, safe). -/
inductive ZMode where
  /-- 0b00, stored blocks. -/
  | stored
  /-- 0b01, fixed-Huffman blocks with the greedy LZ77 matcher. -/
  | fixed
  deriving DecidableEq, Repr

/-- The width of a host access (20_memory.md R53, R54). -/
inductive Size where
  | byte
  | half
  | word
  deriving DecidableEq, Repr

/-- What acts next on PNGENC (00_scope.md R2, 70_reset_and_hazards.md R141). -/
inductive Event where
  /-- The engine's turn (20_memory.md R63). -/
  | engine
  /-- A host read of `size` at `addr` (R55). -/
  | read (addr : Word) (size : Size)
  /-- A host write of `v` with `size` at `addr` (R56). -/
  | write (addr : Word) (size : Size) (v : Word)
  /-- The platform drives the reset input RST to a level: true asserts it (70_reset_and_hazards.md R142). -/
  | rst (level : Bool)
  deriving DecidableEq, Repr

/-- The bus response to one host access. -/
inductive BusResp where
  /-- An admitted read, with the value read; a byte is zero-extended (log 21). -/
  | data (v : Word)
  /-- An admitted write, ignored or not: a normal response. -/
  | done
  /-- A bus error (20_memory.md R57). -/
  | busError
  deriving DecidableEq, Repr

/-- From the offset `start` on, up to the next origin, `draw` is the event that left the unspecified OBUF bytes so. -/
structure Origin where
  start : Nat
  draw : Nat
  deriving DecidableEq, Repr

/-- The OBUF space (10_state.md R45): the bytes that hold a specified value, as (offset, byte) pairs with strictly rising
offsets, and, with strictly rising starts, where the event changes that the other bytes' free values belong to (log 9). -/
structure Memory where
  cells : List Host.Cell
  origins : List Origin
  deriving DecidableEq, Repr

/-- What an OBUF byte holds: a value the spec gives, or the free value of a draw (log 9). -/
inductive Content where
  | specified (b : Byte)
  | unspecified (draw : Nat)
  deriving DecidableEq, Repr

/-- The whole machine. -/
structure State where
  /-- The size parameters of the block (00_scope.md R5, R6): arguments of the model, no state of the spec (10_state.md R16). No
  step writes them. -/
  build : Build
  /-- CTRL.IRQEN (R24). -/
  irqen : Bool
  /-- CTRL.ZMODE (R25). -/
  zmode : ZMode
  /-- STATUS.DONE (R27). -/
  done : Bool
  /-- STATUS.ERR (R28). -/
  err : Bool
  /-- STATUS.OVR (R29). -/
  ovr : Bool
  /-- STATUS.COPEN (R30). -/
  copen : Bool
  /-- STATUS.ZOPEN (R30). -/
  zopen : Bool
  /-- STATUS.ERRCODE (R31): none is code 0. -/
  errcode : Option CmdError
  /-- CMD, the most recently issued command word (R32). -/
  cmd : Word
  /-- WIDTH (R33). -/
  width : Word
  /-- HEIGHT (R33). -/
  height : Word
  /-- COLOR bits [23:0]; bits [31:24] read 0 (R34; DEDUCED, log 17, safe). -/
  color : BitVec 24
  /-- DATA (R35). -/
  data : Word
  /-- CRC, the running state before the final inversion (R36). -/
  crc : Word
  /-- ADLER (R38). -/
  adler : Word
  /-- OPTR (R39). -/
  optr : Word
  /-- CLEN (R40). -/
  clen : Word
  /-- CSTART (R41). -/
  cstart : Word
  /-- OBUF (R45). -/
  obuf : Memory
  /-- ZIN (R46). -/
  zin : List Byte
  /-- PEND (R47). -/
  pend : Option Word
  /-- The level of the reset input RST, true while it is asserted (70_reset_and_hazards.md R141, R142). -/
  rst : Bool
  /-- The model's own: what acts next, first at the head; empty means the engine (log 3). -/
  agenda : List Event
  /-- The model's own: the bus response to the host's last access (log 5, log 20). -/
  resp : Option BusResp
  /-- The model's own: how many free draws were made (log 8, log 9). -/
  draws : Nat
  deriving DecidableEq, Repr

/-- Why a step stops. -/
inductive Fault where
  /-- Raised by a host access while RST is asserted: the spec defines none (70_reset_and_hazards.md R142, U10 "stuck").
  Safe: the model stops. -/
  | accessDuringReset
  /-- Raised by the length patch of CHUNK_END when CSTART + 3 is no OBUF offset; the spec shows that no run gets there
  (41_chunk_serializer.md R92). Safe: the model stops. -/
  | patchOutsideObuf
  deriving DecidableEq, Repr

/-- Why an instruction has no meaning. -/
inductive Refusal where
  /-- Raised by an arm of `exec` for an instruction that has no meaning yet; no arm does. Safe: the model stops. -/
  | notModelled (mnemonic : String)
  deriving DecidableEq, Repr

/-- The machine of a build right after hardware reset, RST released (10_state.md R49, 70_reset_and_hazards.md R142): every
OBUF byte is unspecified, so nothing is listed. The last four fields are the model's DESIGN CHOICE (log 11). -/
def State.resetOf (build : Build) : State where
  build := build
  irqen := false
  zmode := .fixed
  done := false
  err := false
  ovr := false
  copen := false
  zopen := false
  errcode := none
  cmd := 0
  width := 0
  height := 0
  color := 0
  data := 0
  crc := 0xFFFFFFFF#32
  adler := 0x00000001#32
  optr := 0
  clen := 0
  cstart := 0
  obuf := ⟨[], []⟩
  zin := []
  pend := none
  rst := false
  agenda := []
  resp := none
  draws := 0

/-- This hardware right after reset (00_scope.md R5, R6). -/
def State.reset : State := State.resetOf Config.thisBuild

end Sys2Proof.Machine
end

