-- ==== Sys2Proof/Machine/Flags.lean ====
section
/-! DEFINITION. The flags: STATUS and CTRL as software reads them (10_state.md R25, R31), the codes of the command errors
(60_exceptions.md R123), the IRQ line (R48, R130) and the SEQ conditions (R124). -/

namespace Sys2Proof.Machine

/-- The code of a command error (60_exceptions.md R123). -/
def CmdError.code : CmdError → BitVec 4
  | .illegal => 1
  | .seq => 2
  | .param => 3
  | .zfull => 4
  | .oflow => 5

/-- The ERRCODE field: 0 when no error is recorded (R31). -/
def errField : Option CmdError → BitVec 4
  | none => 0
  | some e => e.code

/-- The CTRL.ZMODE field (R25). -/
def ZMode.field : ZMode → BitVec 2
  | .stored => 0b00
  | .fixed => 0b01

/-- ZMODE after a write of the two bits `f`: 0b10 and 0b11 leave it unchanged (R25). -/
def ZMode.written (old : ZMode) (f : BitVec 2) : ZMode :=
  if f = 0b00 then .stored else if f = 0b01 then .fixed else old

/-- STATUS.BUSY = 1 exactly when PEND is not none (R26). -/
def State.busy (s : State) : Bool := s.pend.isSome

/-- IRQ = CTRL.IRQEN and (STATUS.DONE or STATUS.ERR) (R48, R130); its routing is the platform's (log 23). -/
def State.irq (s : State) : Bool := s.irqen && (s.done || s.err)

/-- A STATUS word with the COPEN and ZOPEN bits `co` and `zo`; bits [31:12] and [7:6] read 0 (R31). -/
def State.statusWith (s : State) (co zo : Bool) : Word :=
  (0#20 ++ errField s.errcode ++ 0#2 ++ BitVec.ofBool zo ++ BitVec.ofBool co ++ BitVec.ofBool s.ovr ++
    BitVec.ofBool s.err ++ BitVec.ofBool s.done ++ BitVec.ofBool s.busy : BitVec (20 + 4 + 2 + 1 + 1 + 1 + 1 + 1 + 1))

/-- STATUS, exactly (R31). -/
def State.statusWord (s : State) : Word := s.statusWith s.copen s.zopen

/-- CTRL reads ZMODE << 4 | IRQEN << 2 (R25). -/
def State.ctrlWord (s : State) : Word :=
  (0#26 ++ s.zmode.field ++ 0#1 ++ BitVec.ofBool s.irqen ++ 0#2 : BitVec (26 + 2 + 1 + 1 + 2))

/-- No chunk and no stream is open: the condition of CHUNK_BEGIN and the PNG commands (R124). -/
def State.nothingOpen (s : State) : Bool := !s.copen && !s.zopen

end Sys2Proof.Machine
end

