-- ==== Sys2Proof/Machine/Operands.lean ====
section
/-! DEFINITION. The operand forms: byte orders (00_scope.md R10), the word operand (30_encoding.md R70), the image operands
and the constants of the PNG commands (40_png_encoder.md R77 to R80). -/

namespace Sys2Proof.Machine

/-- BE32: most significant byte first (R10). -/
def be32 (v : Word) : List Byte :=
  [v.extractLsb' 24 8, v.extractLsb' 16 8, v.extractLsb' 8 8, v.extractLsb' 0 8]

/-- LE16 of a number below 2^16 (R10). -/
def le16 (n : Nat) : List Byte := [BitVec.ofNat 8 n, BitVec.ofNat 8 (n / 256)]

/-- The word operand: BE32(DATA) (30_encoding.md R70). -/
def State.dataBytes (s : State) : List Byte := be32 s.data

/-- SIG, the PNG signature (R77). -/
def pngSignature : List Byte := [0x89, 0x50, 0x4E, 0x47, 0x0D, 0x0A, 0x1A, 0x0A]

/-- ASCII("IHDR") (R80). -/
def typeIhdr : List Byte := [0x49, 0x48, 0x44, 0x52]

/-- ASCII("IDAT") (R80). -/
def typeIdat : List Byte := [0x49, 0x44, 0x41, 0x54]

/-- ASCII("IEND") (R80). -/
def typeIend : List Byte := [0x49, 0x45, 0x4E, 0x44]

/-- A dimension the commands accept: 1 to 2^31 - 1 (R78). -/
def dimOk (v : Word) : Bool := decide (1 ≤ v.toNat) && decide (v.toNat ≤ 0x7FFFFFFF)

/-- dims_ok (R78). -/
def State.dimsOk (s : State) : Bool := dimOk s.width && dimOk s.height

/-- PIXEL(C): red, green, blue (R79). -/
def pixel (c : BitVec 24) : List Byte := [c.extractLsb' 16 8, c.extractLsb' 8 8, c.extractLsb' 0 8]

/-- ROW(W, C): the filter-type byte 0 and W pixels (R79). -/
def rawRow (w : Nat) (c : BitVec 24) : List Byte := 0x00 :: (List.replicate w (pixel c)).flatten

/-- RAW(W, H, C): H rows (R79). -/
def rawImage (w h : Nat) (c : BitVec 24) : List Byte := (List.replicate h (rawRow w c)).flatten

/-- RAW of the image registers (R79, R83). -/
def State.raw (s : State) : List Byte := rawImage s.width.toNat s.height.toNat s.color

/-- IHDR_PAYLOAD(W, H) (R80). -/
def ihdrPayload (w h : Word) : List Byte := be32 w ++ be32 h ++ [8, 2, 0, 0, 0]

end Sys2Proof.Machine
end

