-- ==== Sys2Proof/Machine/Ops.lean ====
section
/-! DEFINITION. The shared operations: OBUF, put and the chunk helpers (41_chunk_serializer.md R87, R91, R92), the two
completions (60_exceptions.md R125, R126), the return CLR (R134), issue (20_memory.md R60) and the resets
(70_reset_and_hazards.md R142, R143). -/

namespace Sys2Proof.Machine

/-! ### OBUF -/

/-- The specified byte at offset `a`, if one is listed. -/
def findCell (a : Nat) : List Host.Cell → Option Byte
  | [] => none
  | (k, v) :: rest => if k = a then some v else findCell a rest

/-- Sets offset `a` to `b`, keeping the offsets strictly rising. -/
def insertCell (a : Nat) (b : Byte) : List Host.Cell → List Host.Cell
  | [] => [(a, b)]
  | (k, v) :: rest =>
    if a < k then (a, b) :: (k, v) :: rest
    else if a = k then (a, b) :: rest
    else (k, v) :: insertCell a b rest

/-- The draw at offset `a`: that of the last origin at or below it, `cur` if none is. -/
def drawFrom (cur a : Nat) : List Origin → Nat
  | [] => cur
  | o :: rest => drawFrom (if o.start ≤ a then o.draw else cur) a rest

/-- The draw at offset `a`, 0 (power-on) below every origin. -/
def drawAt (a : Nat) (os : List Origin) : Nat := drawFrom 0 a os

/-- Drops the origins that change nothing: one that the next replaces at the same offset, and one that repeats the draw
`cur` in force since `start`. -/
def tidy (start cur : Nat) : List Origin → List Origin
  | [] => []
  | o :: rest =>
    if rest.head?.any (fun p => p.start == o.start) || (o.draw == cur && decide (start ≤ o.start)) then tidy start cur rest
    else o :: tidy o.start o.draw rest

/-- Sets the draw at the offsets `lo` up to `hi - 1`. -/
def setDraw (lo hi draw : Nat) (os : List Origin) : List Origin :=
  tidy 0 0 (os.filter (fun o => decide (o.start < lo)) ++ [⟨lo, draw⟩, ⟨hi, 0⟩] ++
    os.map fun o => ⟨max o.start hi, o.draw⟩)

/-- What OBUF[a] holds. -/
def Memory.content (m : Memory) (a : Nat) : Content :=
  match findCell a m.cells with
  | some b => .specified b
  | none => .unspecified (drawAt a m.origins)

/-- OBUF[a] (00_scope.md R12). An unlisted offset reads as the free byte of the event that left it unspecified (log 9). -/
def Memory.read (m : Memory) (a : Nat) : Byte :=
  match m.content a with
  | .specified b => b
  | .unspecified draw => Config.freeObufByte draw a

/-- OBUF[a] <- b. A specified byte belongs to no event. -/
def Memory.write (m : Memory) (a : Nat) (b : Byte) : Memory :=
  { cells := insertCell a b m.cells, origins := setDraw a (a + 1) 0 m.origins }

/-- OBUF[a], OBUF[a + 1], ... <- the bytes of a sequence. -/
def Memory.writeSeq (m : Memory) (a : Nat) : List Byte → Memory
  | [] => m
  | b :: bs => (m.write a b).writeSeq (a + 1) bs

/-- OBUF[lo] .. OBUF[hi - 1] <- unspecified, under the draw `draw`. -/
def Memory.forget (m : Memory) (lo hi draw : Nat) : Memory :=
  if hi ≤ lo then m
  else
    { cells := m.cells.filter (fun c => decide (c.1 < lo) || decide (hi ≤ c.1))
      origins := setDraw lo hi draw m.origins }

/-- The offsets rise strictly. -/
def cellsRise : List Host.Cell → Bool
  | [] => true
  | [_] => true
  | c :: d :: rest => decide (c.1 < d.1) && cellsRise (d :: rest)

/-- The starts rise strictly and none passes the size; each draw differs from the one before it, `cur` before the first. -/
def originsRise (size cur : Nat) : List Origin → Bool
  | [] => true
  | o :: rest =>
    decide (o.start ≤ size) && o.draw != cur && rest.head?.all (fun p => decide (o.start < p.start)) &&
      originsRise size o.draw rest

/-- The canonical form of an OBUF of `size` bytes (10_state.md R45): cells at strictly rising offsets below the size, each of
no event, and origins in their canonical form with no event at the size. A listed byte is a specified one, so it never
equals what an unlisted offset holds, which is unspecified. -/
def Memory.wf (m : Memory) (size : Nat) : Bool :=
  cellsRise m.cells && m.cells.all (fun c => decide (c.1 < size) && drawAt c.1 m.origins == 0) &&
    originsRise size 0 m.origins && drawAt size m.origins == 0

/-! ### The engine's emissions -/

/-- Why a command's pseudocode ends early: a raise (00_scope.md R13), or the model's fault. -/
inductive Stop where
  | cmd (e : CmdError)
  | fault (f : Fault)
  deriving DecidableEq, Repr

/-- The pseudocode of a command: the state at its end, or why it ends early. -/
abbrev Run := Except Stop State

/-- raise CmdError(e) (00_scope.md R13). -/
def raise (e : CmdError) : Run := .error (.cmd e)

/-- `if not c: raise CmdError(e)`, then the rest. -/
def require (c : Bool) (e : CmdError) (rest : Unit → Run) : Run := if c then rest () else raise e

/-- put (R87). -/
def put (b : Byte) (s : State) : Run :=
  if s.build.obufSize ≤ s.optr.toNat then raise .oflow
  else
    let s1 := { s with obuf := s.obuf.write s.optr.toNat b, optr := s.optr + 1 }
    .ok (if s.copen then { s1 with crc := crcUpd8 s.crc b, clen := s.clen + 1 } else s1)

/-- `for b in bs: put(b)`. -/
def putAll : List Byte → State → Run
  | [], s => .ok s
  | b :: bs, s => (put b s).bind (putAll bs)

/-- chunk_begin(t) (R91). -/
def chunkBegin (t : List Byte) (s : State) : Run :=
  (putAll ([0, 0, 0, 0] ++ t) s).map fun s1 =>
    { s1 with cstart := s.optr, crc := crcSeq 0xFFFFFFFF#32 t, clen := 0, copen := true }

/-- The length patch of chunk_end: `for i in 0 .. 3: OBUF[CSTART + i] <- BE32(CLEN)[i]` (R92). The spec derives that its four
bytes are in range; where they are not the model stops (log 10). -/
def patchLength (s : State) : Run :=
  if s.cstart.toNat + 3 < s.build.obufSize then
    .ok { s with obuf := s.obuf.writeSeq s.cstart.toNat (be32 s.clen) }
  else .error (.fault .patchOutsideObuf)

/-- chunk_end() (R92). -/
def chunkEnd (s : State) : Run :=
  (putAll (be32 (crcFinal s.crc)) { s with copen := false }).bind patchLength

/-! ### Completion, acknowledgement, issue -/

/-- Successful completion: DONE <- 1, PEND <- none (60_exceptions.md R125). -/
def State.completeOk (s : State) : State := { s with done := true, pend := none }

/-- Taking a command error: completion with error `e` from `s`, the state S0 when the engine step began, with `start` = OPTR0
(R126). Every register keeps its value in S0; OFLOW leaves OBUF from OPTR0 on unspecified (U7, log 9). DONE keeps its value,
which issue cleared (log 13). -/
def State.completeError (s : State) (start : Nat) (e : CmdError) : State :=
  let s1 := { s with err := true, errcode := some e, pend := none }
  match e with
  | .oflow => { s1 with obuf := s.obuf.forget start s.build.obufSize (s.draws + 1), draws := s.draws + 1 }
  | _ => s1

/-- The end of the engine step that began in `s` (20_memory.md R63). -/
def finish (s : State) (start : Nat) (r : Run) : Host.Outcome State Fault Refusal :=
  match r with
  | .ok t => .next t.completeOk
  | .error (.cmd e) => .next (s.completeError start e)
  | .error (.fault f) => .fault f

/-- The return from an error or a completion, CTRL.CLR (10_state.md R23, 60_exceptions.md R134). -/
def State.clearFlags (s : State) : State :=
  { s with done := false, err := false, ovr := false, errcode := none }

/-- Issue of the word `w`: CMD <- w; PEND <- w; DONE <- 0 (20_memory.md R60). -/
def State.issue (s : State) (w : Word) : State := { s with cmd := w, pend := some w, done := false }

/-- OPTR0 of the pending word `w`: 0 for ENCODE, the current OPTR otherwise (20_memory.md R62, 10_state.md R47). -/
def State.pendStart (s : State) (w : Word) : Nat :=
  if decode w = .ok .encode then 0 else s.optr.toNat

/-! ### Resets -/

/-- Every register <- its reset value, ZIN <- [], PEND <- none (10_state.md R49). OBUF is not touched. -/
def State.resetRegs (s : State) : State :=
  { s with
    irqen := false, zmode := .fixed, done := false, err := false, ovr := false, copen := false, zopen := false,
    errcode := none, cmd := 0, width := 0, height := 0, color := 0, data := 0, crc := 0xFFFFFFFF#32,
    adler := 0x00000001#32, optr := 0, clen := 0, cstart := 0, zin := [], pend := none }

/-- The OBUF bytes that a soft reset leaves unspecified when it discards the pending word `w` (70_reset_and_hazards.md R143). -/
def State.discardObuf (s : State) (w : Word) : Memory :=
  let m := s.obuf.forget (s.pendStart w) s.build.obufSize (s.draws + 1)
  if decode w = .ok .chunkEnd then
    m.forget s.cstart.toNat (min (s.cstart.toNat + 4) s.build.obufSize) (s.draws + 1)
  else m

/-- Soft reset (R143). -/
def State.softReset (s : State) : State :=
  match s.pend with
  | none => s.resetRegs
  | some w => { s.resetRegs with obuf := s.discardObuf w, draws := s.draws + 1 }

/-- The registers and OBUF at hardware reset: as R49, and every OBUF byte unspecified (R142). -/
def State.hardReset (s : State) : State :=
  { s.resetRegs with obuf := s.obuf.forget 0 s.build.obufSize (s.draws + 1), draws := s.draws + 1 }

/-- RST driven to a level (R142): the reset values hold while it is asserted and when it is released. -/
def State.driveRst (s : State) (level : Bool) : State :=
  if level then { s.hardReset with rst := true }
  else if s.rst then { s.hardReset with rst := false }
  else s

end Sys2Proof.Machine
end

