-- ==== Sys2Proof/Machine/Bus.lean ====
section
/-! DEFINITION. The host's accesses: the register map (10_state.md R17 to R44), MemRead and MemWrite (20_memory.md R51 to
R59), reads and writes while busy (R61, R62) and the events of the agenda. -/

namespace Sys2Proof.Machine

/-- The seventeen registers (10_state.md R17). -/
inductive Reg where
  | id | ctrl | status | cmd | width | height | color | data | crc | crcout | adler | optr | clen | cstart | zcount
  | obufsz | zinmax
  deriving DecidableEq, Repr

/-- The offset of a register in the register window (R17). -/
def Reg.offset : Reg → Nat
  | .id => 0x00
  | .ctrl => 0x04
  | .status => 0x08
  | .cmd => 0x0C
  | .width => 0x10
  | .height => 0x14
  | .color => 0x18
  | .data => 0x1C
  | .crc => 0x20
  | .crcout => 0x24
  | .adler => 0x28
  | .optr => 0x2C
  | .clen => 0x30
  | .cstart => 0x34
  | .zcount => 0x38
  | .obufsz => 0x3C
  | .zinmax => 0x40

/-- The registers in the order of the register map (R17). -/
def allRegs : List Reg :=
  [.id, .ctrl, .status, .cmd, .width, .height, .color, .data, .crc, .crcout, .adler, .optr, .clen, .cstart, .zcount,
   .obufsz, .zinmax]

/-- The register that an offset names; none for the reserved and the misaligned offsets (R53). -/
def regAt (o : Nat) : Option Reg := allRegs.find? fun r => r.offset == o

/-! ### Reads -/

/-- The exact value of a register (R21 to R44). -/
def State.regValue (s : State) : Reg → Word
  | .id => Config.idValue
  | .ctrl => s.ctrlWord
  | .status => s.statusWord
  | .cmd => s.cmd
  | .width => s.width
  | .height => s.height
  | .color => s.color.setWidth 32
  | .data => s.data
  | .crc => s.crc
  | .crcout => crcFinal s.crc
  | .adler => s.adler
  | .optr => s.optr
  | .clen => s.clen
  | .cstart => s.cstart
  | .zcount => BitVec.ofNat 32 s.zin.length
  | .obufsz => BitVec.ofNat 32 s.build.obufSize
  | .zinmax => BitVec.ofNat 32 s.build.zinMax

/-- The registers whose whole value is unspecified while a command is pending (20_memory.md R62). -/
def Reg.openWhileBusy : Reg → Bool
  | .crc | .crcout | .adler | .optr | .clen | .cstart | .zcount => true
  | _ => false

/-- A host read of a register. While busy the registers of R62 and the COPEN and ZOPEN bits of STATUS are free (log 8). -/
def State.readReg (s : State) (r : Reg) : Word :=
  if s.busy then
    if r = .status then
      s.statusWith ((Config.freeRead (s.draws + 1)).getLsbD 4) ((Config.freeRead (s.draws + 1)).getLsbD 5)
    else if r.openWhileBusy then Config.freeRead (s.draws + 1)
    else s.regValue r
  else s.regValue r

/-- Whether the OBUF byte at offset `a` is unspecified to the host because the pending command may write it (R62). -/
def State.inFlight (s : State) (a : Nat) : Bool :=
  match s.pend with
  | none => false
  | some w =>
    decide (s.pendStart w ≤ a) ||
      (decide (decode w = .ok .chunkEnd) && decide (s.cstart.toNat ≤ a) && decide (a ≤ s.cstart.toNat + 3))

/-- A host read of the OBUF byte at offset `a` (R54, R62). -/
def State.readObuf (s : State) (a : Nat) : Byte :=
  if s.inFlight a then Config.freeBusByte (s.draws + 1) a else s.obuf.read a

/-- The OBUF window's first offset in the region (R52). -/
def obufWindow : Nat := 0x01000000

/-- One past the region's last offset (R52). -/
def regionEnd : Nat := 0x02000000

/-- An OBUF-window read at OBUF offset `k`, with little-endian lanes (R54, R55, R59). -/
def State.readWindow (s : State) (k : Nat) : Size → BusResp
  | .byte => if k < s.build.obufSize then .data ((s.readObuf k).setWidth 32) else .busError
  | .half => .busError
  | .word =>
    if k % 4 = 0 ∧ k + 3 < s.build.obufSize then
      .data (s.readObuf (k + 3) ++ s.readObuf (k + 2) ++ s.readObuf (k + 1) ++ s.readObuf k : BitVec (8 + 8 + 8 + 8))
    else .busError

/-- A register-window read at offset `o` (R53, R55). -/
def State.readRegWindow (s : State) (o : Nat) (size : Size) : BusResp :=
  match size, regAt o with
  | .word, some r => .data (s.readReg r)
  | _, _ => .busError

/-- MemRead at the offset `o` from BASE (R55). Outside the region: DEDUCED (log 6), safe. -/
def State.readOffset (s : State) (o : Nat) (size : Size) : BusResp :=
  if o < 0x100 then s.readRegWindow o size
  else if obufWindow ≤ o ∧ o < regionEnd then s.readWindow (o - obufWindow) size
  else .busError

/-- MemRead(addr, n) (R55): the response. -/
def State.memRead (s : State) (addr : Word) (size : Size) : BusResp := s.readOffset (addr - Config.base).toNat size

/-! ### Writes -/

/-- A write of CTRL (R22 to R25; while busy R61 (b)): SRST wins; otherwise CLR, IRQEN and, only when idle, ZMODE. -/
def State.writeCtrl (s : State) (v : Word) : State :=
  if v.getLsbD 0 then s.softReset
  else
    let s1 := if v.getLsbD 1 then s.clearFlags else s
    { s1 with irqen := v.getLsbD 2, zmode := if s.busy then s.zmode else s.zmode.written (v.extractLsb' 4 2) }

/-- The write action of a register while no command is pending (10_state.md R18, R32 to R39). -/
def State.writeIdle (s : State) (r : Reg) (v : Word) : State :=
  match r with
  | .ctrl => s.writeCtrl v
  | .cmd => s.issue v
  | .width => { s with width := v }
  | .height => { s with height := v }
  | .color => { s with color := v.extractLsb' 0 24 }
  | .data => { s with data := v }
  | .crc => { s with crc := v }
  | .adler => { s with adler := v }
  | .optr => { s with optr := v }
  | .id | .status | .crcout | .clen | .cstart | .zcount | .obufsz | .zinmax => s

/-- The write action of a register while a command is pending (20_memory.md R61). -/
def State.writeBusy (s : State) (r : Reg) (v : Word) : State :=
  match r with
  | .ctrl => s.writeCtrl v
  | .cmd | .width | .height | .color | .data | .crc | .adler | .optr => { s with ovr := true }
  | .id | .status | .crcout | .clen | .cstart | .zcount | .obufsz | .zinmax => s

/-- An admitted register write (20_memory.md R56). -/
def State.writeReg (s : State) (r : Reg) (v : Word) : State :=
  if s.busy then s.writeBusy r v else s.writeIdle r v

/-- MemWrite at the offset `o` from BASE (R56): the state after, and the response. Outside the region: DEDUCED (log 6), safe. -/
def State.writeOffset (s : State) (o : Nat) (size : Size) (v : Word) : State × BusResp :=
  match size, regAt o with
  | .word, some r => (s.writeReg r v, .done)
  | _, _ => (s, .busError)

/-- MemWrite(addr, n, v) (R56). -/
def State.memWrite (s : State) (addr : Word) (size : Size) (v : Word) : State × BusResp :=
  s.writeOffset (addr - Config.base).toNat size v

/-! ### Events -/

/-- A host read as an event: the response is recorded; a read made while busy takes a fresh draw, so that no two
unspecified reads are tied (log 8). No state of the spec changes (R55). -/
def State.hostRead (s : State) (addr : Word) (size : Size) : State :=
  { s with resp := some (s.memRead addr size), draws := if s.busy then s.draws + 1 else s.draws }

/-- A host write as an event. -/
def State.hostWrite (s : State) (addr : Word) (size : Size) (v : Word) : State :=
  { (s.memWrite addr size v).1 with resp := some (s.memWrite addr size v).2 }

/-- A host access is defined only while RST is not asserted (70_reset_and_hazards.md R142, U10, log 7). -/
def State.whenReleased (s t : State) : Host.Outcome State Fault Refusal :=
  if s.rst then .fault .accessDuringReset else .next t

end Sys2Proof.Machine
end

