-- ==== Sys2Proof/Machine/Chunk.lean ====
section
/-! DEFINITION. The meanings of the output and chunk commands (41_chunk_serializer.md R89 to R92). -/

namespace Sys2Proof.Machine

/-- PUT_BYTE (R89). -/
def execPutByte (imm : Byte) (s : State) : Host.Outcome State Fault Refusal :=
  finish s s.optr.toNat (put imm s)

/-- PUT_WORD (R90). -/
def execPutWord (s : State) : Host.Outcome State Fault Refusal :=
  finish s s.optr.toNat (putAll s.dataBytes s)

/-- CHUNK_BEGIN (R91). -/
def execChunkBegin (s : State) : Host.Outcome State Fault Refusal :=
  finish s s.optr.toNat (require s.nothingOpen .seq fun _ => chunkBegin s.dataBytes s)

/-- CHUNK_END (R92). -/
def execChunkEnd (s : State) : Host.Outcome State Fault Refusal :=
  finish s s.optr.toNat (require (s.copen && !s.zopen) .seq fun _ => chunkEnd s)

end Sys2Proof.Machine
end

