-- ==== Sys2Proof/Machine/Crc.lean ====
section
/-! DEFINITION. The meanings of the CRC-32 and Adler-32 commands (43_crc32.md R111 to R117). -/

namespace Sys2Proof.Machine

/-- CRC_INIT (R111). -/
def execCrcInit (s : State) : Host.Outcome State Fault Refusal :=
  finish s s.optr.toNat (.ok { s with crc := 0xFFFFFFFF#32 })

/-- CRC_BYTE (R112). -/
def execCrcByte (imm : Byte) (s : State) : Host.Outcome State Fault Refusal :=
  finish s s.optr.toNat (.ok { s with crc := crcUpd8 s.crc imm })

/-- CRC_WORD (R113). -/
def execCrcWord (s : State) : Host.Outcome State Fault Refusal :=
  finish s s.optr.toNat (.ok { s with crc := crcSeq s.crc s.dataBytes })

/-- ADLER_INIT (R115). -/
def execAdlerInit (s : State) : Host.Outcome State Fault Refusal :=
  finish s s.optr.toNat (.ok { s with adler := 0x00000001#32 })

/-- ADLER_BYTE (R116). -/
def execAdlerByte (imm : Byte) (s : State) : Host.Outcome State Fault Refusal :=
  finish s s.optr.toNat (.ok { s with adler := adlerUpd8 s.adler imm })

/-- ADLER_WORD (R117). -/
def execAdlerWord (s : State) : Host.Outcome State Fault Refusal :=
  finish s s.optr.toNat (.ok { s with adler := adlerSeq s.adler s.dataBytes })

end Sys2Proof.Machine
end

