-- ==== Sys2Proof/Machine/Misc.lean ====
section
/-! DEFINITION. The meaning of NOP (44_misc.md R119). -/

namespace Sys2Proof.Machine

/-- NOP (R119): no effect but the completion bits. -/
def execNop (s : State) : Host.Outcome State Fault Refusal := finish s s.optr.toNat (.ok s)

end Sys2Proof.Machine
end

