-- ==== Sys2Proof/Machine/Deflate.lean ====
section
/-! DEFINITION. The zlib stream and the two deflate kernels (42_deflate.md R93 to R102). -/

namespace Sys2Proof.Machine

/-! ### Kernel 0: stored blocks (R96) -/

/-- The largest stored block (R96). -/
def storedMax : Nat := 65535

/-- The number of stored blocks of an input of `n` bytes: max(1, ceil(n / 65535)) (R96). -/
def storedCount (n : Nat) : Nat := max 1 ((n + (storedMax - 1)) / storedMax)

/-- One stored block: header byte, LEN, NLEN, bytes (R96). -/
def storedBlock (final : Bool) (blk : List Byte) : List Byte :=
  [if final then 1 else 0] ++ le16 blk.length ++ le16 (blk.length ^^^ 0xFFFF) ++ blk

/-- STORED (R96). -/
def stored (d : List Byte) : List Byte :=
  let k := storedCount d.length
  (List.range k).flatMap fun j => storedBlock (j == k - 1) ((d.drop (storedMax * j)).take storedMax)

/-! ### The bit writer (R97) -/

/-- `bits(v, n)`: bits 0, 1, ..., n - 1 of v (R97). -/
def bitsLsb (v n : Nat) : List Bool := (List.range n).map v.testBit

/-- `code(c, n)`: bits n - 1, ..., 0 of c (R97). -/
def bitsMsb (c n : Nat) : List Bool := (bitsLsb c n).reverse

/-- Packs bits into bytes, with `k` bits already in the byte of value `acc` (R97). -/
def packFrom : List Bool → Nat → Nat → List Byte
  | [], k, acc => if k = 0 then [] else [BitVec.ofNat 8 acc]
  | b :: bs, k, acc =>
    let acc' := acc + b.toNat * 2 ^ k
    if k = 7 then BitVec.ofNat 8 acc' :: packFrom bs 0 0 else packFrom bs (k + 1) acc'

/-- Bit k of the sequence becomes bit (k mod 8) of byte (k div 8); the last byte is filled up with 0 bits (R97). -/
def packBits (bs : List Bool) : List Byte := packFrom bs 0 0

/-! ### Codes (R98 to R100) -/

/-- `code(fixed(v))`: the fixed literal/length code of symbol v (R98). -/
def fixedCode (v : Nat) : List Bool :=
  if v ≤ 143 then bitsMsb (0x30 + v) 8
  else if v ≤ 255 then bitsMsb (0x190 + (v - 144)) 9
  else if v ≤ 279 then bitsMsb (v - 256) 7
  else bitsMsb (0xC0 + (v - 280)) 8

/-- A row of the length or distance table: its symbol, extra bits, first and last value (R99, R100). -/
structure CodeRow where
  sym : Nat
  extra : Nat
  first : Nat
  last : Nat
  deriving DecidableEq, Repr

/-- The length codes (R99). -/
def lengthTable : List CodeRow :=
  [⟨257, 0, 3, 3⟩, ⟨258, 0, 4, 4⟩, ⟨259, 0, 5, 5⟩, ⟨260, 0, 6, 6⟩, ⟨261, 0, 7, 7⟩, ⟨262, 0, 8, 8⟩, ⟨263, 0, 9, 9⟩,
   ⟨264, 0, 10, 10⟩] ++
  [⟨265, 1, 11, 12⟩, ⟨266, 1, 13, 14⟩, ⟨267, 1, 15, 16⟩, ⟨268, 1, 17, 18⟩] ++
  [⟨269, 2, 19, 22⟩, ⟨270, 2, 23, 26⟩, ⟨271, 2, 27, 30⟩, ⟨272, 2, 31, 34⟩] ++
  [⟨273, 3, 35, 42⟩, ⟨274, 3, 43, 50⟩, ⟨275, 3, 51, 58⟩, ⟨276, 3, 59, 66⟩] ++
  [⟨277, 4, 67, 82⟩, ⟨278, 4, 83, 98⟩, ⟨279, 4, 99, 114⟩, ⟨280, 4, 115, 130⟩] ++
  [⟨281, 5, 131, 162⟩, ⟨282, 5, 163, 194⟩, ⟨283, 5, 195, 226⟩, ⟨284, 5, 227, 257⟩] ++
  [⟨285, 0, 258, 258⟩]

/-- The distance codes (R100). -/
def distTable : List CodeRow :=
  [⟨0, 0, 1, 1⟩, ⟨1, 0, 2, 2⟩, ⟨2, 0, 3, 3⟩, ⟨3, 0, 4, 4⟩] ++
  [⟨4, 1, 5, 6⟩, ⟨5, 1, 7, 8⟩, ⟨6, 2, 9, 12⟩, ⟨7, 2, 13, 16⟩, ⟨8, 3, 17, 24⟩, ⟨9, 3, 25, 32⟩] ++
  [⟨10, 4, 33, 48⟩, ⟨11, 4, 49, 64⟩, ⟨12, 5, 65, 96⟩, ⟨13, 5, 97, 128⟩, ⟨14, 6, 129, 192⟩, ⟨15, 6, 193, 256⟩] ++
  [⟨16, 7, 257, 384⟩, ⟨17, 7, 385, 512⟩, ⟨18, 8, 513, 768⟩, ⟨19, 8, 769, 1024⟩] ++
  [⟨20, 9, 1025, 1536⟩, ⟨21, 9, 1537, 2048⟩, ⟨22, 10, 2049, 3072⟩, ⟨23, 10, 3073, 4096⟩] ++
  [⟨24, 11, 4097, 6144⟩, ⟨25, 11, 6145, 8192⟩, ⟨26, 12, 8193, 12288⟩, ⟨27, 12, 12289, 16384⟩] ++
  [⟨28, 13, 16385, 24576⟩, ⟨29, 13, 24577, 32768⟩]

/-- The row whose range holds `v`. A value outside the table, which no token carries, gets a row of zeros (log 22). -/
def rowOf (table : List CodeRow) (v : Nat) : CodeRow :=
  (table.find? fun r => decide (r.first ≤ v) && decide (v ≤ r.last)).getD ⟨0, 0, 0, 0⟩

/-! ### Greedy LZ77 (R101) -/

/-- A token (R101). -/
inductive Token where
  | lit (b : Byte)
  | copy (len dist : Nat)
  deriving DecidableEq, Repr

/-- How many leading bytes two sequences share, at most `m`. -/
def matchLen : Nat → List Byte → List Byte → Nat
  | m + 1, a :: as, b :: bs => if a = b then matchLen m as bs + 1 else 0
  | _, _, _ => 0

/-- A match length and its distance. -/
structure Best where
  len : Nat
  dist : Nat
  deriving DecidableEq, Repr

/-- The search loop of R101 at the position where the input reads `cur`: `srcs` are the suffixes of the input that start at
distance `dist`, `dist + 1`, ... before it. A strictly longer match replaces the best; once the longest possible match is
found no later distance can (log 19). -/
def searchFrom (m : Nat) (cur : List Byte) : List (List Byte) → Nat → Best → Best
  | [], _, best => best
  | src :: srcs, dist, best =>
    if best.len = m then best
    else
      let l := matchLen m cur src
      searchFrom m cur srcs (dist + 1) (if best.len < l then ⟨l, dist⟩ else best)

/-- The longest possible match (R101, R99). -/
def maxMatch : Nat := 258

/-- The window (R101, R94). -/
def window : Nat := 32768

/-- The best match at a position: `past` holds the suffixes of the input that start before it, nearest first; no match is
tried with fewer than 3 bytes left (R101). -/
def bestMatch (past : List (List Byte)) (cur : List Byte) : Best :=
  let m := (cur.take maxMatch).length
  if 3 ≤ m then searchFrom m cur (past.take window) 1 ⟨0, 0⟩ else ⟨0, 0⟩

/-- Moves the position `k` bytes on. -/
def slide : Nat → List (List Byte) → List Byte → List (List Byte) × List Byte
  | k + 1, past, b :: rest => slide k ((b :: rest) :: past) rest
  | _, past, cur => (past, cur)

/-- The tokenizer's loop from a position on, with `fuel` at least the number of bytes left (R101). -/
def tokensFrom : Nat → List (List Byte) → List Byte → List Token
  | fuel + 1, past, b :: rest =>
    let best := bestMatch past (b :: rest)
    if 3 ≤ best.len then
      let p := slide best.len past (b :: rest)
      .copy best.len best.dist :: tokensFrom fuel p.1 p.2
    else .lit b :: tokensFrom fuel ((b :: rest) :: past) rest
  | _, _, _ => []

/-- TOKENS (R101). -/
def tokens (d : List Byte) : List Token := tokensFrom d.length [] d

/-! ### Kernel 1 and the zlib stream -/

/-- The bits of a value in a table's range: the extra bits that hold its offset in the row (R99, R100). -/
def extraBits (r : CodeRow) (v : Nat) : List Bool := bitsLsb (v - r.first) r.extra

/-- The bits of one token (R102). -/
def tokenBits : Token → List Bool
  | .lit b => fixedCode b.toNat
  | .copy len dist =>
    let l := rowOf lengthTable len
    let d := rowOf distTable dist
    fixedCode l.sym ++ extraBits l len ++ bitsMsb d.sym 5 ++ extraBits d dist

/-- The bits of the one final block of BTYPE 01 (R102). -/
def fixedBits (d : List Byte) : List Bool :=
  bitsLsb 1 1 ++ bitsLsb 1 2 ++ (tokens d).flatMap tokenBits ++ fixedCode 256

/-- FIXED (R102). -/
def fixed (d : List Byte) : List Byte := packBits (fixedBits d)

/-- DEFLATE(m, d) (R95). -/
def deflate : ZMode → List Byte → List Byte
  | .stored, d => stored d
  | .fixed, d => fixed d

/-- FLG(m) (R94). -/
def zlibFlg : ZMode → Byte
  | .stored => 0x01
  | .fixed => 0xDA

/-- zlib_stream(m, d, a) (R93, R94). -/
def zlibStream (m : ZMode) (d : List Byte) (a : Word) : List Byte :=
  [0x78, zlibFlg m] ++ deflate m d ++ be32 a

end Sys2Proof.Machine
end

