-- ==== Sys2Proof/Machine/Png.lean ====
section
/-! DEFINITION. The pseudocode and the meanings of the PNG commands (40_png_encoder.md R81 to R85). -/

namespace Sys2Proof.Machine

/-- The pseudocode of EMIT_SIG (R81). -/
def sigBody (s : State) : Run := require s.nothingOpen .seq fun _ => putAll pngSignature s

/-- A complete chunk of type `t`: chunk_begin(t), then the payload, then chunk_end() (R82 to R84). -/
def wholeChunk (t payload : List Byte) (s : State) : Run :=
  ((chunkBegin t s).bind (putAll payload)).bind chunkEnd

/-- The pseudocode of EMIT_IHDR (R82). -/
def ihdrBody (s : State) : Run :=
  require s.nothingOpen .seq fun _ => require s.dimsOk .param fun _ =>
    wholeChunk typeIhdr (ihdrPayload s.width s.height) s

/-- ADLER <- a. -/
def State.withAdler (s : State) (a : Word) : State := { s with adler := a }

/-- The pseudocode of EMIT_IDAT (R83): between chunk_begin and the puts, ADLER becomes the Adler-32 of RAW.
ZIN is not written: DEDUCED (log 14), safe. -/
def idatBody (s : State) : Run :=
  require s.nothingOpen .seq fun _ => require s.dimsOk .param fun _ =>
    ((chunkBegin typeIdat s).bind fun s1 =>
        putAll (zlibStream s.zmode s.raw (adlerSeq 0x00000001#32 s.raw))
          (s1.withAdler (adlerSeq 0x00000001#32 s.raw))).bind chunkEnd

/-- The pseudocode of EMIT_IEND (R84). -/
def iendBody (s : State) : Run := require s.nothingOpen .seq fun _ => wholeChunk typeIend [] s

/-- The pseudocode of ENCODE (R85, R14): its own checks, OPTR <- 0, then the four commands' bodies. -/
def encodeBody (s : State) : Run :=
  require s.nothingOpen .seq fun _ => require s.dimsOk .param fun _ =>
    (((sigBody { s with optr := 0 }).bind ihdrBody).bind idatBody).bind iendBody

/-- EMIT_SIG (R81). -/
def execEmitSig (s : State) : Host.Outcome State Fault Refusal := finish s s.optr.toNat (sigBody s)

/-- EMIT_IHDR (R82). -/
def execEmitIhdr (s : State) : Host.Outcome State Fault Refusal := finish s s.optr.toNat (ihdrBody s)

/-- EMIT_IDAT (R83). -/
def execEmitIdat (s : State) : Host.Outcome State Fault Refusal := finish s s.optr.toNat (idatBody s)

/-- EMIT_IEND (R84). -/
def execEmitIend (s : State) : Host.Outcome State Fault Refusal := finish s s.optr.toNat (iendBody s)

/-- ENCODE (R85): OPTR0 = 0 for the error rule. -/
def execEncode (s : State) : Host.Outcome State Fault Refusal := finish s 0 (encodeBody s)

end Sys2Proof.Machine
end

