-- ==== Sys2Proof/Machine/Zlib.lean ====
section
/-! DEFINITION. The meanings of the compressor commands (42_deflate.md R103 to R106). -/

namespace Sys2Proof.Machine

/-- ZIN <- ZIN ++ bs, with ADLER folded over the same bytes (R104, R105). -/
def State.feed (s : State) (bs : List Byte) : State :=
  { s with zin := s.zin ++ bs, adler := adlerSeq s.adler bs }

/-- The body that Z_BYTE and Z_WORD share: SEQ, then ZFULL, then the bytes (R104, R105). -/
def feedStream (bs : List Byte) (s : State) : Run :=
  require s.zopen .seq fun _ =>
    require (decide (s.zin.length + bs.length ≤ s.build.zinMax)) .zfull fun _ => .ok (s.feed bs)

/-- Z_BEGIN (R103). -/
def execZBegin (s : State) : Host.Outcome State Fault Refusal :=
  finish s s.optr.toNat
    (require (!s.zopen) .seq fun _ => .ok { s with zin := [], adler := 0x00000001#32, zopen := true })

/-- Z_BYTE (R104). -/
def execZByte (imm : Byte) (s : State) : Host.Outcome State Fault Refusal :=
  finish s s.optr.toNat (feedStream [imm] s)

/-- Z_WORD (R105). -/
def execZWord (s : State) : Host.Outcome State Fault Refusal :=
  finish s s.optr.toNat (feedStream s.dataBytes s)

/-- Z_END (R106). -/
def execZEnd (s : State) : Host.Outcome State Fault Refusal :=
  finish s s.optr.toNat
    (require s.zopen .seq fun _ =>
      (putAll (zlibStream s.zmode s.zin s.adler) { s with zopen := false }).map fun t => { t with zin := [] })

end Sys2Proof.Machine
end

