-- ==== Sys2Proof/Machine/Dispatch.lean ====
section
/-! DEFINITION. The engine step of one decoded command: one arm per row of the opcode map (30_encoding.md R71). -/

namespace Sys2Proof.Machine

def exec (i : Instr) (s : State) : Host.Outcome State Fault Refusal :=
  match i with
  | .nop => Sys2Proof.Machine.execNop s
  | .crcInit => Sys2Proof.Machine.execCrcInit s
  | .crcByte imm => Sys2Proof.Machine.execCrcByte imm s
  | .crcWord => Sys2Proof.Machine.execCrcWord s
  | .adlerInit => Sys2Proof.Machine.execAdlerInit s
  | .adlerByte imm => Sys2Proof.Machine.execAdlerByte imm s
  | .adlerWord => Sys2Proof.Machine.execAdlerWord s
  | .putByte imm => Sys2Proof.Machine.execPutByte imm s
  | .putWord => Sys2Proof.Machine.execPutWord s
  | .chunkBegin => Sys2Proof.Machine.execChunkBegin s
  | .chunkEnd => Sys2Proof.Machine.execChunkEnd s
  | .zBegin => Sys2Proof.Machine.execZBegin s
  | .zByte imm => Sys2Proof.Machine.execZByte imm s
  | .zWord => Sys2Proof.Machine.execZWord s
  | .zEnd => Sys2Proof.Machine.execZEnd s
  | .emitSig => Sys2Proof.Machine.execEmitSig s
  | .emitIhdr => Sys2Proof.Machine.execEmitIhdr s
  | .emitIdat => Sys2Proof.Machine.execEmitIdat s
  | .emitIend => Sys2Proof.Machine.execEmitIend s
  | .encode => Sys2Proof.Machine.execEncode s

end Sys2Proof.Machine
end

