-- ==== Sys2Proof/Machine/Sequencer.lean ====
section
/-! DEFINITION. The engine's turn and the next event of the agenda (20_memory.md R63). -/

namespace Sys2Proof.Machine

/-- The engine's turn (R63): with PEND = none it has no step and all state is held (60_exceptions.md R140); otherwise it
decodes PEND and executes the command, or completes an illegal word with ILLEGAL (30_encoding.md R72). -/
def engineTurn (s : State) : Host.Outcome State Fault Refusal :=
  match s.pend with
  | none => .next s
  | some w =>
    match decode w with
    | .ok i => exec i s
    | .error _ => finish s s.optr.toNat (raise .illegal)

/-- One event. -/
def act (e : Event) (s : State) : Host.Outcome State Fault Refusal :=
  match e with
  | .engine => engineTurn s
  | .read addr size => s.whenReleased (s.hostRead addr size)
  | .write addr size v => s.whenReleased (s.hostWrite addr size v)
  | .rst level => .next (s.driveRst level)

/-- The next event of the agenda; an empty agenda is a turn of the engine (log 3, log 4). -/
def actNext (s : State) : Host.Outcome State Fault Refusal :=
  match s.agenda with
  | [] => engineTurn s
  | e :: rest => act e { s with agenda := rest }

/-- The agenda with the engine's turn put first; an empty agenda already is one. -/
def engineFirst : List Event → List Event
  | [] => []
  | e :: rest => .engine :: e :: rest

/-- The state in which the very next event is the engine's turn on the word `w`, as right after the host wrote it to CMD
(20_memory.md R60, log 12). -/
def State.withPending (s : State) (w : Word) : State :=
  { s.issue w with agenda := engineFirst s.agenda }

end Sys2Proof.Machine
end

