-- ==== Sys2Proof/Machine/Step.lean ====
section
/-! DEFINITION. One step of PNGENC. -/

namespace Sys2Proof.Machine

/-- One step: the next event of the agenda, wholly before or after every other (20_memory.md R63). -/
def step (s : State) : Host.Outcome State Fault Refusal := actNext s

/-- `s` with the command word `w` pending and the engine next (log 12). The bits above `nbits` are 0. -/
def State.withFetchWord (s : State) (nbits w : Nat) : State :=
  s.withPending (BitVec.ofNat 32 (w % 2 ^ nbits))

end Sys2Proof.Machine
end

