-- ==== Sys2Proof/Machine/HostProgram.lean ====
section
/-! DEFINITION. The assembler notation and the pseudo-instructions as host events (30_encoding.md R75, R76). Host code is no
part of the block: these only write agendas. The loop of `wait` is the host's own control flow, so each pseudo-instruction
with a wait takes the number of polls that found BUSY = 1 (log 18). -/

namespace Sys2Proof.Machine

/-- `MNEMONIC imm`: the assembled word is `imm << 8 | OP`, for an operand in [0, 255] (R75). -/
def assembleByte (op : Byte) (imm : Nat) : Option Word :=
  if operandInRange imm then some (BitVec.ofNat 32 (imm * 256 + op.toNat)) else none

/-- `wr REG, value` (R75). -/
def wr (r : Reg) (v : Word) : Event := .write (Config.base + BitVec.ofNat 32 r.offset) .word v

/-- `rd REG` (R75). -/
def rd (r : Reg) : Event := .read (Config.base + BitVec.ofNat 32 r.offset) .word

/-- `rdb k` (R75). -/
def rdb (k : Nat) : Event := .read (Config.base + BitVec.ofNat 32 (obufWindow + k)) .byte

/-- `rdw k` (R75). -/
def rdw (k : Nat) : Event := .read (Config.base + BitVec.ofNat 32 (obufWindow + k)) .word

/-- A command line: one host write of the command word to CMD (R75). -/
def issueLine (i : Instr) : Event := wr .cmd (encode i)

/-- `wait`, with `polls` reads that found BUSY = 1 before the engine's turn and one read after it (R76). -/
def waitLines (polls : Nat) : List Event := List.replicate polls (rd .status) ++ [.engine, rd .status]

/-- `do MNEMONIC [imm]` (R76). -/
def doLines (polls : Nat) (i : Instr) : List Event := issueLine i :: waitLines polls

/-- `putw v` (R76). -/
def putwLines (polls : Nat) (v : Word) : List Event := wr .data v :: doLines polls .putWord

/-- `crcw v` (R76). -/
def crcwLines (polls : Nat) (v : Word) : List Event := wr .data v :: doLines polls .crcWord

/-- `adlerw v` (R76). -/
def adlerwLines (polls : Nat) (v : Word) : List Event := wr .data v :: doLines polls .adlerWord

/-- `zw v` (R76). -/
def zwLines (polls : Nat) (v : Word) : List Event := wr .data v :: doLines polls .zWord

/-- `chunk "TTTT"`, with t the word of the four ASCII codes (R76). -/
def chunkLines (polls : Nat) (t : Word) : List Event := wr .data t :: doLines polls .chunkBegin

/-- `putstr "s"`, with the ASCII codes of s (R76). -/
def putstrLines (polls : Nat) (s : List Byte) : List Event := s.flatMap fun c => doLines polls (.putByte c)

/-- `image W, H, r, g, b` (R76). -/
def imageLines (w h : Word) (r g b : Byte) : List Event :=
  [wr .width w, wr .height h, wr .color (0#8 ++ r ++ g ++ b : BitVec (8 + 8 + 8 + 8))]

/-- `zmode m`, with IRQEN = 0 (R76). -/
def zmodeLine (m : BitVec 2) : Event := wr .ctrl (0#26 ++ m ++ 0#4 : BitVec (26 + 2 + 4))

/-- `rdb 0 .. rdb n-1`: the document of n bytes, in output order (70_reset_and_hazards.md R147). -/
def documentBytes (n : Nat) : List Event := (List.range n).map rdb

/-- The document of n bytes by `rdw` at multiples of 4, and by `rdb` for what a whole word does not hold (R147). -/
def documentWords (n : Nat) : List Event :=
  (List.range (n / 4)).map (fun k => rdw (4 * k)) ++ (List.range (n % 4)).map (fun k => rdb (n / 4 * 4 + k))

/-- The encode sequence: the image registers, ENCODE, STATUS, OPTR, and the reads of the document, given the n that
`rd OPTR` returned (R147). -/
def encodeLines (polls : Nat) (w h : Word) (r g b : Byte) (n : Nat) : List Event :=
  imageLines w h r g b ++ doLines polls .encode ++ [rd .status, rd .optr] ++ documentBytes n

/-- The same document by the four commands, one after another (R147). -/
def encodeStepLines (polls : Nat) (w h : Word) (r g b : Byte) : List Event :=
  imageLines w h r g b ++ [wr .optr 0] ++
    [Instr.emitSig, .emitIhdr, .emitIdat, .emitIend].flatMap (doLines polls)

/-- The IDAT chunk of the raw bytes `raw` by the streaming commands (R147). -/
def streamedIdatLines (polls : Nat) (raw : List Byte) : List Event :=
  chunkLines polls 0x49444154#32 ++ doLines polls .zBegin ++ raw.flatMap (fun b => doLines polls (.zByte b)) ++
    doLines polls .zEnd ++ doLines polls .chunkEnd

end Sys2Proof.Machine
end

