-- ==== Sys2Proof/Safety.lean ====
section
/-! DEFINITION. What claims are stated in terms of: the invariant of every reachable state, the rules of 60_exceptions.md as
predicates, the bytes each command is to emit, and a decoder of zlib streams to state losslessness (42_deflate.md R107). -/

namespace Sys2Proof.Machine

/-! ### The invariant -/

/-- What holds in every state a run from reset reaches. -/
structure Inv (s : State) : Prop where
  /-- OBUF is in its canonical form. -/
  obuf_wf : s.obuf.wf s.build.obufSize = true
  /-- Every event that left OBUF bytes unspecified is a draw already made. -/
  origins_old : ∀ o ∈ s.obuf.origins, o.draw ≤ s.draws
  /-- ZIN never exceeds ZIN_MAX (10_state.md R46). -/
  zin_fits : s.zin.length ≤ s.build.zinMax
  /-- ZIN is empty while no stream is open (R46). -/
  zin_closed : s.zopen = false → s.zin = []
  /-- An open chunk's header is in OBUF (41_chunk_serializer.md R92). -/
  chunk_fits : s.copen = true → s.cstart.toNat + 8 ≤ s.build.obufSize
  /-- CMD shows the pending word (10_state.md R32, 20_memory.md R60). -/
  pend_cmd : ∀ w, s.pend = some w → s.cmd = w
  /-- DONE reads 0 while BUSY (20_memory.md R62). -/
  pend_done : s.pend ≠ none → s.done = false
  /-- ERR = 1 exactly when an error code is recorded (10_state.md R28, R31). -/
  err_code : s.err = s.errcode.isSome
  /-- While RST is asserted every register has its reset value (70_reset_and_hazards.md R142). -/
  rst_held : s.rst = true → s.resetRegs = s

/-! ### Command outcomes (60_exceptions.md) -/

/-- The SEQ table: whether a command is allowed in the current COPEN / ZOPEN state (R124). -/
def seqAllowed (i : Instr) (s : State) : Bool :=
  match i with
  | .nop | .crcInit | .crcByte _ | .crcWord | .adlerInit | .adlerByte _ | .adlerWord | .putByte _ | .putWord => true
  | .chunkBegin => s.copen == false && s.zopen == false
  | .chunkEnd => s.copen == true && s.zopen == false
  | .zBegin => s.zopen == false
  | .zByte _ | .zWord | .zEnd => s.zopen == true
  | .emitSig | .emitIhdr | .emitIdat | .emitIend | .encode => s.copen == false && s.zopen == false

/-- The commands that check WIDTH and HEIGHT (R123). -/
def checksDims : Instr → Bool
  | .emitIhdr | .emitIdat | .encode => true
  | _ => false

/-- WIDTH and HEIGHT are in [1, 2^31 - 1] (40_png_encoder.md R78). -/
abbrev dimsInRange (s : State) : Prop :=
  1 ≤ s.width.toNat ∧ s.width.toNat ≤ 2 ^ 31 - 1 ∧ 1 ≤ s.height.toNat ∧ s.height.toNat ≤ 2 ^ 31 - 1

/-- How many bytes a command appends to ZIN (R123). -/
def zinNeed : Instr → Nat
  | .zByte _ => 1
  | .zWord => 4
  | _ => 0

/-- The zlib stream of the image registers (40_png_encoder.md R83). -/
def imageStream (s : State) : List Byte := zlibStream s.zmode s.raw (adlerSeq 0x00000001#32 s.raw)

/-- N, the number of bytes a command emits; 0 for a command that emits nothing (R127). -/
def emitCount (i : Instr) (s : State) : Nat :=
  match i with
  | .putByte _ => 1
  | .putWord => 4
  | .chunkBegin => 8
  | .chunkEnd => 4
  | .zEnd => (zlibStream s.zmode s.zin s.adler).length
  | .emitSig => 8
  | .emitIhdr => 25
  | .emitIdat => 12 + (imageStream s).length
  | .emitIend => 12
  | .encode => 57 + (imageStream s).length
  | .nop | .crcInit | .crcByte _ | .crcWord | .adlerInit | .adlerByte _ | .adlerWord | .zBegin | .zByte _ | .zWord => 0

/-- OPTR0 of a command (R126). -/
def startOf (i : Instr) (s : State) : Nat := if i = .encode then 0 else s.optr.toNat

/-- The error a command completes with, the first of SEQ, PARAM, ZFULL, OFLOW whose condition holds (R124, R127). -/
def expectedError (i : Instr) (s : State) : Option CmdError :=
  if seqAllowed i s = false then some .seq
  else if checksDims i = true ∧ ¬ dimsInRange s then some .param
  else if zinNeed i ≠ 0 ∧ s.build.zinMax < s.zin.length + zinNeed i then some .zfull
  else if emitCount i s ≠ 0 ∧ s.build.obufSize < startOf i s + emitCount i s then some .oflow
  else none

/-- `t` is `s` after completion with error `e` (R126): only ERR, ERRCODE and PEND change; with OFLOW the OBUF bytes from OPTR0
on hold free values of a fresh draw, and every other byte reads as before. -/
def FailedWith (s : State) (start : Nat) (e : CmdError) (t : State) : Prop :=
  ∃ m d, t = { s with err := true, errcode := some e, pend := none, obuf := m, draws := d } ∧
    (e ≠ .oflow → m = s.obuf ∧ d = s.draws) ∧
    (∀ a, a < start → m.read a = s.obuf.read a) ∧
    (e = .oflow → d = s.draws + 1 ∧ ∀ a, start ≤ a → a < s.build.obufSize → m.read a = Config.freeObufByte d a)

/-- The completion bits after success: DONE set, PEND none, ERR, OVR and ERRCODE kept (R125). -/
def Succeeded (s t : State) : Prop :=
  t.done = true ∧ t.pend = none ∧ t.err = s.err ∧ t.ovr = s.ovr ∧ t.errcode = s.errcode

/-- `m'` is `m` with the bytes `bs` at the offsets from `a` on: they read in order, every other byte reads as before. -/
def BytesWritten (m m' : Memory) (a : Nat) (bs : List Byte) : Prop :=
  ∀ x, m'.read x = if a ≤ x ∧ x < a + bs.length then bs.getD (x - a) 0 else m.read x

/-- A serialized chunk: BE32 length, type, payload, BE32 CRC of type and payload (41_chunk_serializer.md R88). -/
def chunkBytes (t payload : List Byte) : List Byte :=
  be32 (BitVec.ofNat 32 payload.length) ++ t ++ payload ++ be32 (crcFinal (crcSeq 0xFFFFFFFF#32 (t ++ payload)))

/-- The PNG document of the image registers: signature, IHDR, IDAT, IEND (40_png_encoder.md R85, R86). -/
def pngDocument (s : State) : List Byte :=
  pngSignature ++ chunkBytes typeIhdr (ihdrPayload s.width s.height) ++ chunkBytes typeIdat (imageStream s) ++
    chunkBytes typeIend []

/-- Commands executed one after another, each to its completion (20_memory.md R63). -/
def execAll : List Instr → State → Host.Outcome State Fault Refusal
  | [], s => .next s
  | i :: is, s =>
    match exec i s with
    | .next t => execAll is t
    | .fault f => .fault f
    | .refused r => .refused r

/-! ### Reset -/

/-- Every register, ZIN and PEND has its reset value (10_state.md R49). -/
def AtReset (s : State) : Prop :=
  s.ctrlWord = 0x00000010#32 ∧ s.statusWord = 0x00000000#32 ∧ s.cmd = 0 ∧ s.width = 0 ∧ s.height = 0 ∧ s.color = 0 ∧
  s.data = 0 ∧ s.crc = 0xFFFFFFFF#32 ∧ s.regValue .crcout = 0 ∧ s.adler = 0x00000001#32 ∧ s.optr = 0 ∧ s.clen = 0 ∧
  s.cstart = 0 ∧ s.zin = [] ∧ s.regValue .zcount = 0 ∧ s.pend = none ∧ s.irq = false

/-! ### The CRC as polynomial division (43_crc32.md R108) -/

/-- One step of the division by x^32 + x^26 + ... + 1, most significant bit first: the unreflected polynomial 0x04C11DB7. -/
def divStep (c : Word) : Word := if c.msb then (c <<< 1) ^^^ 0x04C11DB7#32 else c <<< 1

/-- Eight steps, with the next byte added to the top. -/
def divByte (c : Word) (b : Byte) : Word :=
  divStep (divStep (divStep (divStep (divStep (divStep (divStep (divStep (c ^^^ (b ++ 0#24 : BitVec (8 + 24))))))))))

/-! ### The tokens of an input (42_deflate.md R101) -/

/-- The `len` bytes of `d` at position `i` are also those at `i - dist`: a match the tokenizer may take, of at most 258 bytes,
inside the input and inside the window (R101). -/
def IsMatch (d : List Byte) (i len dist : Nat) : Prop :=
  1 ≤ dist ∧ dist ≤ i ∧ dist ≤ 32768 ∧ len ≤ 258 ∧ i + len ≤ d.length ∧ ∀ j, j < len → d[i + j]? = d[i + j - dist]?

/-- The tokens from position `i` on are those of greedy longest-match parsing: a match wherever one of at least 3 bytes
exists, the longest and, of that length, the nearest; a literal elsewhere; and nothing after the input's end (R101). -/
def GreedyFrom (d : List Byte) : Nat → List Token → Prop
  | i, [] => i = d.length
  | i, .lit b :: ts => d[i]? = some b ∧ (∀ len dist, 3 ≤ len → ¬ IsMatch d i len dist) ∧ GreedyFrom d (i + 1) ts
  | i, .copy len dist :: ts =>
    3 ≤ len ∧ IsMatch d i len dist ∧ (∀ len' dist', IsMatch d i len' dist' → len' ≤ len) ∧
      (∀ dist', IsMatch d i len dist' → dist ≤ dist') ∧ GreedyFrom d (i + len) ts

/-! ### A decoder of zlib streams (42_deflate.md R93 to R102, R107) -/

/-- Copies `len` bytes one by one from distance `dist`; the source may be bytes just copied (R101). -/
def copyBack : Nat → Nat → List Byte → Option (List Byte)
  | 0, _, out => some out
  | len + 1, dist, out =>
    if 1 ≤ dist ∧ dist ≤ out.length then copyBack len dist (out ++ [out.getD (out.length - dist) 0]) else none

/-- The bytes that tokens stand for, after the bytes `out`. -/
def expand : List Token → List Byte → Option (List Byte)
  | [], out => some out
  | .lit b :: ts, out => expand ts (out ++ [b])
  | .copy len dist :: ts, out => (copyBack len dist out).bind (expand ts)

/-- Reads an n-bit value, least significant bit first (R97). -/
def takeLsb : Nat → List Bool → Option (Nat × List Bool)
  | 0, bs => some (0, bs)
  | n + 1, b :: bs => (takeLsb n bs).map fun p => (b.toNat + 2 * p.1, p.2)
  | _ + 1, [] => none

/-- Reads n more bits of a Huffman code, most significant first, after the value `acc` (R97). -/
def takeMsb : Nat → Nat → List Bool → Option (Nat × List Bool)
  | 0, acc, bs => some (acc, bs)
  | n + 1, acc, b :: bs => takeMsb n (2 * acc + b.toNat) bs
  | _ + 1, _, [] => none

/-- Reads a literal/length symbol of the fixed code (R98). -/
def takeSymbol (bs : List Bool) : Option (Nat × List Bool) :=
  (takeMsb 7 0 bs).bind fun p7 =>
    if p7.1 ≤ 0b0010111 then some (256 + p7.1, p7.2)
    else (takeMsb 1 p7.1 p7.2).bind fun p8 =>
      if p8.1 ≤ 0b10111111 then some (p8.1 - 0x30, p8.2)
      else if p8.1 ≤ 0b11000111 then some (280 + (p8.1 - 0xC0), p8.2)
      else (takeMsb 1 p8.1 p8.2).map fun p9 => (144 + (p9.1 - 0x190), p9.2)

/-- The row of a symbol (R99, R100). -/
def rowOfSymbol (table : List CodeRow) (sym : Nat) : Option CodeRow := table.find? fun r => r.sym == sym

/-- Reads the extra bits of a symbol's row: the value in its range (R99, R100). -/
def takeInRow (table : List CodeRow) (sym : Nat) (bs : List Bool) : Option (Nat × List Bool) :=
  (rowOfSymbol table sym).bind fun r => (takeLsb r.extra bs).map fun p => (r.first + p.1, p.2)

/-- Reads the tokens of a fixed-Huffman block up to its end symbol 256 (R102). -/
def takeTokens : Nat → List Bool → Option (List Token × List Bool)
  | 0, _ => none
  | fuel + 1, bs =>
    (takeSymbol bs).bind fun p =>
      if p.1 = 256 then some ([], p.2)
      else if p.1 < 256 then (takeTokens fuel p.2).map fun q => (.lit (BitVec.ofNat 8 p.1) :: q.1, q.2)
      else
        (takeInRow lengthTable p.1 p.2).bind fun l =>
          (takeMsb 5 0 l.2).bind fun c =>
            (takeInRow distTable c.1 c.2).bind fun d =>
              (takeTokens fuel d.2).map fun q => (.copy l.1 d.1 :: q.1, q.2)

/-- Reads n whole bytes. -/
def takeBytes : Nat → List Bool → Option (List Byte × List Bool)
  | 0, bs => some ([], bs)
  | n + 1, bs =>
    (takeLsb 8 bs).bind fun p => (takeBytes n p.2).map fun q => (BitVec.ofNat 8 p.1 :: q.1, q.2)

/-- Skips to a byte boundary of a stream of whole bytes. -/
def alignByte (bs : List Bool) : List Bool := bs.drop (bs.length % 8)

/-- Reads deflate blocks of types 00 and 01 up to the final one, after the bytes `out` (R96, R102). -/
def inflate : Nat → List Bool → List Byte → Option (List Byte × List Bool)
  | 0, _, _ => none
  | fuel + 1, bs, out =>
    (takeLsb 1 bs).bind fun fin =>
      (takeLsb 2 fin.2).bind fun ty =>
        (if ty.1 = 0 then
          (takeLsb 16 (alignByte ty.2)).bind fun len =>
            (takeLsb 16 len.2).bind fun nlen =>
              if len.1 ^^^ 0xFFFF = nlen.1 then (takeBytes len.1 nlen.2).map fun p => (out ++ p.1, p.2) else none
        else if ty.1 = 1 then
          (takeTokens ty.2.length ty.2).bind fun p => (expand p.1 out).map fun o => (o, p.2)
        else none).bind fun r => if fin.1 = 1 then some r else inflate fuel r.2 r.1

/-- The bits of bytes, least significant first (R97). -/
def unpackBits (bytes : List Byte) : List Bool := bytes.flatMap fun b => bitsLsb b.toNat 8

/-- A conformant zlib decoder for the block types 00 and 01: header check, blocks, Adler-32 check, nothing left (R93, R94). -/
def zlibDecode : List Byte → Option (List Byte)
  | cmf :: flg :: body =>
    if cmf.toNat % 16 = 8 ∧ (cmf.toNat * 256 + flg.toNat) % 31 = 0 ∧ flg.getLsbD 5 = false then
      (inflate (body.length + 1) (unpackBits body) []).bind fun p =>
        (takeBytes 4 (alignByte p.2)).bind fun q =>
          if q.1 = be32 (adlerSeq 0x00000001#32 p.1) ∧ q.2 = [] then some p.1 else none
    else none
  | _ => none

end Sys2Proof.Machine
end

