-- ==== Sys2Proof/Certificates/Slice0/Obligations.lean ====
section
/-! DEFINITION. The statements for the provers. Each docstring names the rules of spec/ it formalises. -/

open Sys2Proof Sys2Proof.Machine

/-! ### Encoding (30_encoding.md) -/

/-- R71: decoding a word gives a command exactly when the word is the one the encoder writes for it; so decoding an encoded
command gives it back with every value of IMM8, and no two words decode to one command. -/
def Obligations.DecodeAndEncodeAgree : Prop :=
  ∀ (w : Word) (i : Instr), decode w = .ok i ↔ w = encode i

/-- R71, R75: words written out from the opcode map decode to their commands. -/
def Obligations.SpecWordsDecode : Prop :=
  decode 0x00000000#32 = .ok .nop ∧ decode 0x00003102#32 = .ok (.crcByte 0x31) ∧
  decode 0x00006105#32 = .ok (.adlerByte 0x61) ∧ decode 0x00004110#32 = .ok (.putByte 0x41) ∧
  decode 0x00000013#32 = .ok .chunkEnd ∧ decode 0x00006121#32 = .ok (.zByte 0x61) ∧
  decode 0x0000003F#32 = .ok .encode ∧ decode 0x00000007#32 = .error .reservedOp ∧
  decode 0x00000113#32 = .error .immNotZero ∧ decode 0x00010000#32 = .error .mbzNotZero

/-- R71, R72: the words the decoder accepts are exactly those that pass the three checks of the opcode map. -/
def Obligations.DecodeAcceptsExactlyTheMap : Prop :=
  ∀ w : Word, (∃ i, decode w = .ok i) ↔ wordWellFormed w = true

/-- R72: a word the opcode map does not match, written to CMD while idle, is issued like any command, and the engine's turn
then completes it with ILLEGAL and no other effect. -/
def Obligations.IllegalWordCompletesWithIllegal : Prop :=
  ∀ (s : State) (w : Word) (rest : List Event), wordWellFormed w = false → s.pend = none → s.rst = false →
    s.agenda = wr .cmd w :: .engine :: rest →
    ∃ t, step s = .next t ∧
      t = { s with cmd := w, pend := some w, done := false, agenda := .engine :: rest, resp := some .done } ∧
      step t = .next { t with err := true, errcode := some .illegal, pend := none, agenda := rest }

/-! ### The step (20_memory.md R63) -/

/-- R63, R71: when it is the engine's turn and the pending word decodes to a command, a step is that command's execution; the
turn leaves the agenda first, and an empty agenda is the engine's turn too (the model's choices, log 3 and log 4). -/
def Obligations.StepRunsDecodedCommand : Prop :=
  ∀ (s : State) (w : Word) (i : Instr), s.pend = some w → decode w = .ok i →
    (∀ rest, s.agenda = .engine :: rest → step s = exec i { s with agenda := rest }) ∧
    (s.agenda = [] → step s = exec i s)

/-- R63, R140: with no command pending the engine has no step and all state is held; only its turn leaves the agenda (the
model's choices, log 3 and log 4). -/
def Obligations.IdleEngineHoldsState : Prop :=
  ∀ s : State, s.pend = none →
    (∀ rest, s.agenda = .engine :: rest → step s = .next { s with agenda := rest }) ∧
    (s.agenda = [] → step s = .next s)

/-! ### The invariant -/

/-- The invariant holds in the state after reset. -/
def Obligations.ResetMeetsInvariant : Prop := Inv State.reset

/-- Every step keeps the invariant: whatever the host does and whatever command runs, OBUF stays canonical, ZIN within
ZIN_MAX and empty while no stream is open, an open chunk's header inside OBUF, CMD equal to the pending word, DONE 0 while
BUSY, ERR in step with ERRCODE, and the reset values in force while RST is asserted. No step changes the parameters of the
build (R16). -/
def Obligations.StepKeepsInvariant : Prop :=
  ∀ s t : State, Inv s → step s = .next t → Inv t ∧ t.build = s.build

/-- No step from a state of the invariant stops, but for a host access while RST is asserted, which the spec leaves undefined
(R142, U10): the patch fault is never reached and no command is refused. -/
def Obligations.StepStopsOnlyForAccessDuringReset : Prop :=
  ∀ s : State, Inv s → (∃ t, step s = .next t) ∨ (s.rst = true ∧ step s = .fault .accessDuringReset)

/-! ### Command outcomes (60_exceptions.md) -/

/-- R123, R124, R125, R126, R127: in every state a command completes with the first of SEQ, PARAM, ZFULL, OFLOW whose condition holds
(OFLOW exactly when OPTR0 + N exceeds OBUF_SIZE), leaving every register, ZIN, COPEN and ZOPEN as they were and OBUF unchanged
but for OFLOW's unspecified bytes from OPTR0 on, free values of a fresh draw (log 9); DONE keeps its value on an error (log 13);
and otherwise with success. For CHUNK_END's success the length patch must be inside OBUF, as the invariant says it is; where it is not, CHUNK_END stops (log 10). -/
def Obligations.OutcomeFollowsCheckOrder : Prop :=
  ∀ (i : Instr) (s : State),
    match expectedError i s with
    | some e => ∃ t, exec i s = .next t ∧ FailedWith s (startOf i s) e t
    | none => (i = .chunkEnd → s.cstart.toNat + 4 ≤ s.build.obufSize) → ∃ t, exec i s = .next t ∧ Succeeded s t

/-- R92: CHUNK_END with a chunk open and no stream open whose CRC fits but whose length patch lies outside OBUF, which no run
reaches, stops by name (the model's choice, log 10). -/
def Obligations.PatchOutsideObufStops : Prop :=
  ∀ s : State, s.copen = true → s.zopen = false → s.optr.toNat + 4 ≤ s.build.obufSize →
    s.build.obufSize ≤ s.cstart.toNat + 3 → exec .chunkEnd s = .fault .patchOutsideObuf

/-- R128: no command reads DONE, ERR, OVR or ERRCODE: with other values in them the command has the same effect on all other
state, ends in the same way, and leaves OVR as it was. On an error DONE keeps the value it had, the model's choice where the
spec says that it stays 0 (log 13). -/
def Obligations.FlagsDoNotAffectCommands : Prop :=
  ∀ (i : Instr) (s t : State) (d e o : Bool) (c : Option CmdError), exec i s = .next t →
    ∃ t', exec i { s with done := d, err := e, ovr := o, errcode := c } = .next t' ∧
      t' = { t with done := t'.done, err := t'.err, ovr := o, errcode := t'.errcode } ∧
      (expectedError i s = none → t'.done = true ∧ t'.err = e ∧ t'.errcode = c) ∧
      (∀ x, expectedError i s = some x → t'.done = d ∧ t'.err = true ∧ t'.errcode = some x)

/-- R33, R34, R35, R133: no command writes WIDTH, HEIGHT, COLOR, DATA, CMD, CTRL or OVR, and none touches RST, the parameters of
the build, the host's coming accesses or its last response. -/
def Obligations.NoCommandWritesOperands : Prop :=
  ∀ (i : Instr) (s t : State), exec i s = .next t →
    t.width = s.width ∧ t.height = s.height ∧ t.color = s.color ∧ t.data = s.data ∧ t.cmd = s.cmd ∧
    t.irqen = s.irqen ∧ t.zmode = s.zmode ∧ t.ovr = s.ovr ∧ t.rst = s.rst ∧ t.agenda = s.agenda ∧ t.resp = s.resp ∧
    t.build = s.build

/-- R30, R50: COPEN is left as it was by every command but CHUNK_BEGIN and CHUNK_END, and ZOPEN by every command but Z_BEGIN and
Z_END: a composite command leaves both as it found them, on success and on error. -/
def Obligations.OnlyOpenAndCloseCommandsMoveTheOpenFlags : Prop :=
  ∀ (i : Instr) (s t : State), exec i s = .next t →
    (i ≠ .chunkBegin → i ≠ .chunkEnd → t.copen = s.copen) ∧ (i ≠ .zBegin → i ≠ .zEnd → t.zopen = s.zopen)

/-- R87, R92, R126: no command changes an OBUF byte below OPTR0, but for the four length bytes that CHUNK_END patches at
CSTART. -/
def Obligations.BytesBelowStartAreKept : Prop :=
  ∀ (i : Instr) (s t : State), exec i s = .next t → ∀ a, a < startOf i s →
    (i = .chunkEnd → a < s.cstart.toNat ∨ s.cstart.toNat + 4 ≤ a) → t.obuf.read a = s.obuf.read a

/-! ### NOP and the checksum units (44_misc.md, 43_crc32.md) -/

/-- R119, R125: issuing NOP clears DONE and sets BUSY; NOP in every state, whatever COPEN and ZOPEN are, sets DONE and clears
BUSY and changes nothing else; the words 0x0000xx00 with xx not 0 and the words whose upper half is not 0 are illegal. -/
def Obligations.NopOnlyCompletes : Prop :=
  (∀ s : State, (s.issue 0x00000000#32).done = false ∧ (s.issue 0x00000000#32).busy = true) ∧
  (∀ s : State, exec .nop s = .next { s with done := true, pend := none }) ∧
  decode 0x00000000#32 = .ok .nop ∧
  (∀ w : Word, (opField w = 0 ∧ immField w ≠ 0) ∨ mbzField w ≠ 0 → ∃ e, decode w = .error e)

/-- R111, R112, R113: the CRC commands in every state: CRC gets the value the rule gives, DONE and PEND complete, and nothing
else changes; DATA is consumed most significant byte first. -/
def Obligations.CrcCommandsUpdateCrc : Prop :=
  ∀ (s : State) (b : Byte),
    exec .crcInit s = .next { s with crc := 0xFFFFFFFF#32, done := true, pend := none } ∧
    exec (.crcByte b) s = .next { s with crc := crcUpd8 s.crc b, done := true, pend := none } ∧
    exec .crcWord s = .next { s with
      crc := crcUpd8 (crcUpd8 (crcUpd8 (crcUpd8 s.crc (s.data.extractLsb' 24 8)) (s.data.extractLsb' 16 8))
        (s.data.extractLsb' 8 8)) (s.data.extractLsb' 0 8)
      done := true, pend := none }

/-- R115, R116, R117: the Adler-32 commands in every state: ADLER gets the value the rule gives, DONE and PEND complete, and
nothing else changes; DATA is consumed most significant byte first. -/
def Obligations.AdlerCommandsUpdateAdler : Prop :=
  ∀ (s : State) (b : Byte),
    exec .adlerInit s = .next { s with adler := 0x00000001#32, done := true, pend := none } ∧
    exec (.adlerByte b) s = .next { s with adler := adlerUpd8 s.adler b, done := true, pend := none } ∧
    exec .adlerWord s = .next { s with
      adler := adlerUpd8 (adlerUpd8 (adlerUpd8 (adlerUpd8 s.adler (s.data.extractLsb' 24 8)) (s.data.extractLsb' 16 8))
        (s.data.extractLsb' 8 8)) (s.data.extractLsb' 0 8)
      done := true, pend := none }

/-- R108: the byte update is division by the polynomial 0x04C11DB7 with the bits of the state and of the byte reversed. -/
def Obligations.CrcIsReflectedDivision : Prop :=
  ∀ (c : Word) (b : Byte), (crcUpd8 c b).reverse = divByte c.reverse b.reverse

/-- R108, R110: the CRC-32 of "123456789" is 0xCBF43926, and the running state folds over concatenation. -/
def Obligations.CrcCheckValueAndFolding : Prop :=
  crcFinal (crcSeq 0xFFFFFFFF#32 [0x31, 0x32, 0x33, 0x34, 0x35, 0x36, 0x37, 0x38, 0x39]) = 0xCBF43926#32 ∧
  ∀ (c : Word) (s t : List Byte), crcSeq c (s ++ t) = crcSeq (crcSeq c s) t

/-- R114: the halves of adler_upd8 are the sums of the rule modulo 65521, whatever the halves of the old value. -/
def Obligations.AdlerHalvesAreTheSums : Prop :=
  ∀ (a : Word) (b : Byte),
    ((adlerUpd8 a b).extractLsb' 0 16).toNat = ((a.extractLsb' 0 16).toNat + b.toNat) % 65521 ∧
    ((adlerUpd8 a b).extractLsb' 16 16).toNat =
      ((a.extractLsb' 16 16).toNat + ((a.extractLsb' 0 16).toNat + b.toNat) % 65521) % 65521

/-! ### Output and chunks (41_chunk_serializer.md) -/

/-- R87, R89, R90: PUT_BYTE and PUT_WORD with room in OBUF write their bytes at OPTR, advance OPTR, and, while a chunk is
open, fold them into CRC and count them in CLEN; nothing else changes, ADLER and ZIN included. -/
def Obligations.PutsAppendBytes : Prop :=
  ∀ (s : State) (i : Instr) (bs : List Byte), (∃ b, i = .putByte b ∧ bs = [b]) ∨ (i = .putWord ∧ bs = be32 s.data) →
    s.optr.toNat + bs.length ≤ s.build.obufSize →
    ∃ m, BytesWritten s.obuf m s.optr.toNat bs ∧
      exec i s = .next { s with
        obuf := m
        optr := BitVec.ofNat 32 (s.optr.toNat + bs.length)
        crc := if s.copen then crcSeq s.crc bs else s.crc
        clen := if s.copen then BitVec.ofNat 32 (s.clen.toNat + bs.length) else s.clen
        done := true, pend := none }

/-- R91: CHUNK_BEGIN with no chunk and no stream open and 8 bytes of room writes 00 00 00 00 and BE32(DATA) at OPTR, opens the
chunk with CSTART, CRC and CLEN as the rule says, and changes nothing else. -/
def Obligations.ChunkBeginOpensChunk : Prop :=
  ∀ s : State, s.copen = false → s.zopen = false → s.optr.toNat + 8 ≤ s.build.obufSize →
    ∃ m, BytesWritten s.obuf m s.optr.toNat ([0, 0, 0, 0] ++ be32 s.data) ∧
      exec .chunkBegin s = .next { s with
        obuf := m, optr := BitVec.ofNat 32 (s.optr.toNat + 8), cstart := s.optr
        crc := crcSeq 0xFFFFFFFF#32 (be32 s.data), clen := 0, copen := true, done := true, pend := none }

/-- R92: CHUNK_END with a chunk open, no stream open and 4 bytes of room writes BE32(CRC xor 0xFFFFFFFF) at OPTR, then
BE32(CLEN) at CSTART, closes the chunk, keeps CRC, CLEN and CSTART, and changes nothing else. -/
def Obligations.ChunkEndClosesChunk : Prop :=
  ∀ s : State, s.copen = true → s.zopen = false → s.optr.toNat + 4 ≤ s.build.obufSize →
    s.cstart.toNat + 4 ≤ s.build.obufSize →
    ∃ m m', BytesWritten s.obuf m s.optr.toNat (be32 (s.crc ^^^ 0xFFFFFFFF#32)) ∧
      BytesWritten m m' s.cstart.toNat (be32 s.clen) ∧
      exec .chunkEnd s = .next { s with
        obuf := m', optr := BitVec.ofNat 32 (s.optr.toNat + 4), copen := false, done := true, pend := none }

/-- R88, R118: CHUNK_BEGIN, a PUT_BYTE for each payload byte and CHUNK_END leave the serialized chunk at the OPTR they started
from: length, type, payload and the CRC-32 of type and payload. Every other OBUF byte reads as before. -/
def Obligations.ChunkCommandsSerializeChunk : Prop :=
  ∀ (s : State) (p : List Byte), s.copen = false → s.zopen = false →
    s.optr.toNat + (12 + p.length) ≤ s.build.obufSize →
    ∃ t, execAll ([.chunkBegin] ++ p.map Instr.putByte ++ [.chunkEnd]) s = .next t ∧
      BytesWritten s.obuf t.obuf s.optr.toNat (chunkBytes (be32 s.data) p) ∧
      t.optr.toNat = s.optr.toNat + (12 + p.length) ∧ t.cstart = s.optr ∧ t.clen.toNat = p.length ∧ t.copen = false

/-! ### The compressor (42_deflate.md) -/

/-- R103: Z_BEGIN with no stream open empties ZIN, sets ADLER to 1 and opens the stream, whatever COPEN is, and changes nothing
else. -/
def Obligations.ZBeginOpensStream : Prop :=
  ∀ s : State, s.zopen = false →
    exec .zBegin s = .next { s with zin := [], adler := 0x00000001#32, zopen := true, done := true, pend := none }

/-- R104, R105: Z_BYTE and Z_WORD with a stream open and room in ZIN append their bytes, most significant first, fold them
into ADLER, and change nothing else; they emit nothing. -/
def Obligations.ZBytesAppendToZin : Prop :=
  ∀ (s : State) (b : Byte), s.zopen = true →
    (s.zin.length + 1 ≤ s.build.zinMax → exec (.zByte b) s = .next { s with
      zin := s.zin ++ [b], adler := adlerUpd8 s.adler b, done := true, pend := none }) ∧
    (s.zin.length + 4 ≤ s.build.zinMax → exec .zWord s = .next { s with
      zin := s.zin ++ be32 s.data, adler := adlerSeq s.adler (be32 s.data), done := true, pend := none })

/-- R104, R105, R123, R126: with a stream open and no room for all its bytes, Z_BYTE and Z_WORD complete with ZFULL and append
nothing; ERR and ERRCODE record the error, PEND becomes none, and nothing else changes. R126 says that DONE stays 0; that DONE
keeps its value also where it is 1, which no run reaches with a command pending, is the model's choice (log 13). -/
def Obligations.ZinFullAppendsNothing : Prop :=
  ∀ (s : State) (b : Byte), s.zopen = true →
    (s.build.zinMax < s.zin.length + 1 →
      exec (.zByte b) s = .next { s with err := true, errcode := some .zfull, pend := none }) ∧
    (s.build.zinMax < s.zin.length + 4 →
      exec .zWord s = .next { s with err := true, errcode := some .zfull, pend := none })

/-- R93, R94, R95, R106: Z_END with a stream open and room for it emits, at OPTR, the header 78 DA in ZMODE 1 and 78 01 in
ZMODE 0, the deflate data of ZIN in that mode, and BE32(ADLER), as payload of an open chunk if there is one; it closes the
stream, empties ZIN, keeps ADLER and changes nothing else. -/
def Obligations.ZEndEmitsStream : Prop :=
  ∀ s : State,
    let z : List Byte := (if s.zmode = .fixed then [0x78, 0xDA] ++ fixed s.zin else [0x78, 0x01] ++ stored s.zin) ++
      [s.adler.extractLsb' 24 8, s.adler.extractLsb' 16 8, s.adler.extractLsb' 8 8, s.adler.extractLsb' 0 8]
    s.zopen = true → s.optr.toNat + z.length ≤ s.build.obufSize →
    ∃ m, BytesWritten s.obuf m s.optr.toNat z ∧
      exec .zEnd s = .next { s with
        obuf := m
        optr := BitVec.ofNat 32 (s.optr.toNat + z.length)
        crc := if s.copen then crcSeq s.crc z else s.crc
        clen := if s.copen then BitVec.ofNat 32 (s.clen.toNat + z.length) else s.clen
        zin := [], zopen := false, done := true, pend := none }

/-- R96: len(STORED(d)) is n + 5k, with n = len(d) and k = max(1, ceil(n / 65535)) blocks; the bytes are, for up to 65535 bytes,
01, LEN, NLEN = LEN xor 0xFFFF, both little-endian, and d; and for more, 00 FF FF 00 00, the first 65535 bytes, and STORED of
the rest. -/
def Obligations.StoredLengthIsInputPlusFivePerBlock : Prop :=
  ∀ d : List Byte,
    (stored d).length = d.length + 5 * max 1 ((d.length + 65534) / 65535) ∧
    (d.length ≤ 65535 → stored d =
      [0x01, BitVec.ofNat 8 d.length, BitVec.ofNat 8 (d.length / 256), BitVec.ofNat 8 (65535 - d.length),
        BitVec.ofNat 8 ((65535 - d.length) / 256)] ++ d) ∧
    (65535 < d.length → stored d = [0x00, 0xFF, 0xFF, 0x00, 0x00] ++ d.take 65535 ++ stored (d.drop 65535))

/-- R98, R99, R100: the fixed code of every symbol 0 to 287, read most significant bit first, is the number of the rule in the
number of bits of the rule; every length and every distance in the range of a row of the rules has that row; and every length
3 to 258 and every distance 1 to 32768 has a row whose range holds it, whose extra bits can hold its offset, and whose symbol
no other row has; length 258 is symbol 285. -/
def Obligations.CodeTablesCoverTheirRanges : Prop :=
  (∀ v, v ≤ 143 → takeMsb 8 0 (fixedCode v) = some (0b00110000 + v, [])) ∧
  (∀ v, 144 ≤ v → v ≤ 255 → takeMsb 9 0 (fixedCode v) = some (0b110010000 + (v - 144), [])) ∧
  (∀ v, 256 ≤ v → v ≤ 279 → takeMsb 7 0 (fixedCode v) = some (v - 256, [])) ∧
  (∀ v, 280 ≤ v → v ≤ 287 → takeMsb 8 0 (fixedCode v) = some (0b11000000 + (v - 280), [])) ∧
  (∀ r ∈ ([⟨257, 0, 3, 3⟩, ⟨258, 0, 4, 4⟩, ⟨259, 0, 5, 5⟩, ⟨260, 0, 6, 6⟩, ⟨261, 0, 7, 7⟩, ⟨262, 0, 8, 8⟩, ⟨263, 0, 9, 9⟩,
      ⟨264, 0, 10, 10⟩, ⟨265, 1, 11, 12⟩, ⟨266, 1, 13, 14⟩, ⟨267, 1, 15, 16⟩, ⟨268, 1, 17, 18⟩, ⟨269, 2, 19, 22⟩,
      ⟨270, 2, 23, 26⟩, ⟨271, 2, 27, 30⟩, ⟨272, 2, 31, 34⟩, ⟨273, 3, 35, 42⟩, ⟨274, 3, 43, 50⟩, ⟨275, 3, 51, 58⟩,
      ⟨276, 3, 59, 66⟩, ⟨277, 4, 67, 82⟩, ⟨278, 4, 83, 98⟩, ⟨279, 4, 99, 114⟩, ⟨280, 4, 115, 130⟩, ⟨281, 5, 131, 162⟩,
      ⟨282, 5, 163, 194⟩, ⟨283, 5, 195, 226⟩, ⟨284, 5, 227, 257⟩, ⟨285, 0, 258, 258⟩] : List CodeRow),
    ∀ v, r.first ≤ v → v ≤ r.last → rowOf lengthTable v = r) ∧
  (∀ r ∈ ([⟨0, 0, 1, 1⟩, ⟨1, 0, 2, 2⟩, ⟨2, 0, 3, 3⟩, ⟨3, 0, 4, 4⟩, ⟨4, 1, 5, 6⟩, ⟨5, 1, 7, 8⟩, ⟨6, 2, 9, 12⟩, ⟨7, 2, 13, 16⟩,
      ⟨8, 3, 17, 24⟩, ⟨9, 3, 25, 32⟩, ⟨10, 4, 33, 48⟩, ⟨11, 4, 49, 64⟩, ⟨12, 5, 65, 96⟩, ⟨13, 5, 97, 128⟩, ⟨14, 6, 129, 192⟩,
      ⟨15, 6, 193, 256⟩, ⟨16, 7, 257, 384⟩, ⟨17, 7, 385, 512⟩, ⟨18, 8, 513, 768⟩, ⟨19, 8, 769, 1024⟩, ⟨20, 9, 1025, 1536⟩,
      ⟨21, 9, 1537, 2048⟩, ⟨22, 10, 2049, 3072⟩, ⟨23, 10, 3073, 4096⟩, ⟨24, 11, 4097, 6144⟩, ⟨25, 11, 6145, 8192⟩,
      ⟨26, 12, 8193, 12288⟩, ⟨27, 12, 12289, 16384⟩, ⟨28, 13, 16385, 24576⟩, ⟨29, 13, 24577, 32768⟩] : List CodeRow),
    ∀ v, r.first ≤ v → v ≤ r.last → rowOf distTable v = r) ∧
  (∀ v, 3 ≤ v → v ≤ 258 → let r := rowOf lengthTable v
    r ∈ lengthTable ∧ r.first ≤ v ∧ v ≤ r.last ∧ v - r.first < 2 ^ r.extra) ∧
  (∀ v, 1 ≤ v → v ≤ 32768 → let r := rowOf distTable v
    r ∈ distTable ∧ r.first ≤ v ∧ v ≤ r.last ∧ v - r.first < 2 ^ r.extra) ∧
  (lengthTable.map CodeRow.sym).Nodup ∧ (distTable.map CodeRow.sym).Nodup ∧ (rowOf lengthTable 258).sym = 285

/-- R101: TOKENS is greedy longest-match parsing of the whole input: at each position it emits the longest match of 3 to 258
bytes that starts at most 32768 bytes before, the nearest of that length, and a literal where no match of 3 bytes exists, with
fewer than 3 bytes left too. The search it rests on takes, over the candidate suffixes `past`, nearest first, the longest
match and, among matches of that length, the nearest. -/
def Obligations.SearchTakesLongestNearestMatch : Prop :=
  (∀ d : List Byte, GreedyFrom d 0 (tokens d)) ∧
  ∀ (past : List (List Byte)) (cur : List Byte), 3 ≤ cur.length →
    let m := min 258 cur.length
    let best := bestMatch past cur
    (∀ (k : Nat) (src : List Byte), (past.take 32768)[k]? = some src → matchLen m cur src ≤ best.len) ∧
    (0 < best.len → ∃ src : List Byte, (past.take 32768)[best.dist - 1]? = some src ∧ 1 ≤ best.dist ∧
      matchLen m cur src = best.len ∧
      ∀ (k : Nat) (src' : List Byte), k < best.dist - 1 → (past.take 32768)[k]? = some src' →
        matchLen m cur src' < best.len)

/-- R101: every match token has a length 3 to 258 and a distance 1 to 32768. -/
def Obligations.TokensAreEncodable : Prop :=
  ∀ (d : List Byte) (len dist : Nat), Token.copy len dist ∈ tokens d →
    3 ≤ len ∧ len ≤ 258 ∧ 1 ≤ dist ∧ dist ≤ 32768

/-- R101, R107 (a): the tokens of an input expand to the input. -/
def Obligations.TokensExpandToInput : Prop :=
  ∀ d : List Byte, expand (tokens d) [] = some d

/-- R93, R94, R95, R97, R102, R107 (a): the stream is the header 78 DA in ZMODE 1 and 78 01 in ZMODE 0, FIXED or STORED of the
input, and the trailer most significant byte first. The bits of FIXED, least significant of each byte first, are BFINAL 1,
BTYPE 01, each token's codes and extra bits, the end symbol's seven zeros and fewer than eight padding zeros. For every input
and both modes, a zlib decoder given the stream with the input's Adler-32 returns the input and accepts its checksum. -/
def Obligations.ZlibStreamIsLossless : Prop :=
  (∀ (m : ZMode) (d : List Byte) (a : Word), zlibStream m d a =
    (match m with
      | .fixed => [0x78, 0xDA] ++ fixed d
      | .stored => [0x78, 0x01] ++ stored d) ++
    [a.extractLsb' 24 8, a.extractLsb' 16 8, a.extractLsb' 8 8, a.extractLsb' 0 8]) ∧
  (∀ d : List Byte, ∃ pad, pad < 8 ∧ unpackBits (fixed d) =
    [true, true, false] ++
    ((tokens d).flatMap fun t =>
      match t with
      | .lit b => fixedCode b.toNat
      | .copy len dist =>
        let l := rowOf lengthTable len
        let r := rowOf distTable dist
        fixedCode l.sym ++ (List.range l.extra).map (len - l.first).testBit ++
          (List.range 5).map (fun k => r.sym.testBit (4 - k)) ++ (List.range r.extra).map (dist - r.first).testBit) ++
    List.replicate 7 false ++ List.replicate pad false) ∧
  ∀ (m : ZMode) (d : List Byte), zlibDecode (zlibStream m d (adlerSeq 0x00000001#32 d)) = some d

/-! ### The PNG commands (40_png_encoder.md) -/

/-- R77, R81: EMIT_SIG with nothing open and 8 bytes of room writes 89 50 4E 47 0D 0A 1A 0A at OPTR, advances OPTR by 8, and
changes nothing else. -/
def Obligations.EmitSigWritesSignature : Prop :=
  ∀ s : State, s.copen = false → s.zopen = false → s.optr.toNat + 8 ≤ s.build.obufSize →
    ∃ m, BytesWritten s.obuf m s.optr.toNat [0x89, 0x50, 0x4E, 0x47, 0x0D, 0x0A, 0x1A, 0x0A] ∧
      exec .emitSig s = .next { s with
        obuf := m, optr := BitVec.ofNat 32 (s.optr.toNat + 8), done := true, pend := none }

/-- R80, R82: EMIT_IHDR with nothing open, dimensions in range and 25 bytes of room writes the IHDR chunk at OPTR and leaves
CSTART, CLEN and CRC as the rule says; nothing else changes. -/
def Obligations.EmitIhdrWritesChunk : Prop :=
  ∀ s : State, s.copen = false → s.zopen = false → dimsInRange s → s.optr.toNat + 25 ≤ s.build.obufSize →
    let p := be32 s.width ++ be32 s.height ++ [8, 2, 0, 0, 0]
    ∃ m, BytesWritten s.obuf m s.optr.toNat (chunkBytes [0x49, 0x48, 0x44, 0x52] p) ∧
      exec .emitIhdr s = .next { s with
        obuf := m, optr := BitVec.ofNat 32 (s.optr.toNat + 25), cstart := s.optr, clen := 13
        crc := crcSeq 0xFFFFFFFF#32 ([0x49, 0x48, 0x44, 0x52] ++ p), done := true, pend := none }

/-- R79, R83: EMIT_IDAT with nothing open, dimensions in range and room writes one IDAT chunk whose payload is the zlib stream
of RAW(WIDTH, HEIGHT, COLOR), and leaves ADLER, CSTART, CLEN and CRC as the rule says; nothing else changes. R83 says that ZIN
is left empty; that ZIN is not written, also where it holds bytes with no stream open, which no run reaches, is the model's
choice (log 14). -/
def Obligations.EmitIdatWritesChunk : Prop :=
  ∀ s : State,
    let raw := rawImage s.width.toNat s.height.toNat s.color
    let z := zlibStream s.zmode raw (adlerSeq 0x00000001#32 raw)
    s.copen = false → s.zopen = false → dimsInRange s → s.optr.toNat + (12 + z.length) ≤ s.build.obufSize →
    ∃ m, BytesWritten s.obuf m s.optr.toNat (chunkBytes [0x49, 0x44, 0x41, 0x54] z) ∧
      exec .emitIdat s = .next { s with
        obuf := m, optr := BitVec.ofNat 32 (s.optr.toNat + (12 + z.length)), cstart := s.optr
        clen := BitVec.ofNat 32 z.length
        crc := crcSeq 0xFFFFFFFF#32 ([0x49, 0x44, 0x41, 0x54] ++ z)
        adler := adlerSeq 0x00000001#32 raw, done := true, pend := none }

/-- R79: RAW has H rows of one filter byte 0 and W pixels red, green, blue. -/
def Obligations.RawImageIsRowsOfPixels : Prop :=
  ∀ (w h : Nat) (c : BitVec 24), (rawImage w h c).length = h * (1 + 3 * w) ∧
    (∀ y, y < h → (rawImage w h c)[y * (1 + 3 * w)]? = some 0) ∧
    (∀ y x, y < h → x < w →
      (rawImage w h c)[y * (1 + 3 * w) + 1 + 3 * x]? = some (c.extractLsb' 16 8) ∧
      (rawImage w h c)[y * (1 + 3 * w) + 2 + 3 * x]? = some (c.extractLsb' 8 8) ∧
      (rawImage w h c)[y * (1 + 3 * w) + 3 + 3 * x]? = some (c.extractLsb' 0 8))

/-- R84: EMIT_IEND with nothing open and 12 bytes of room writes 00 00 00 00 49 45 4E 44 AE 42 60 82 at OPTR whatever the image
registers hold, and leaves CSTART, CLEN and CRC as the rule says; nothing else changes. -/
def Obligations.EmitIendWritesChunk : Prop :=
  ∀ s : State, s.copen = false → s.zopen = false → s.optr.toNat + 12 ≤ s.build.obufSize →
    ∃ m, BytesWritten s.obuf m s.optr.toNat
        [0x00, 0x00, 0x00, 0x00, 0x49, 0x45, 0x4E, 0x44, 0xAE, 0x42, 0x60, 0x82] ∧
      exec .emitIend s = .next { s with
        obuf := m, optr := BitVec.ofNat 32 (s.optr.toNat + 12), cstart := s.optr, clen := 0
        crc := 0x51BD9F7D#32, done := true, pend := none }

/-- R85, R86: ENCODE with nothing open, dimensions in range and a document that fits writes signature, IHDR, IDAT and IEND at
OBUF offset 0 whatever OPTR was, and leaves OPTR the document's length and CRC, CLEN, CSTART and ADLER as the rule says;
nothing else changes (ZIN is not written, log 14). -/
def Obligations.EncodeWritesDocument : Prop :=
  ∀ s : State, s.copen = false → s.zopen = false → dimsInRange s → 57 + (imageStream s).length ≤ s.build.obufSize →
    ∃ m, BytesWritten s.obuf m 0 (pngDocument s) ∧ (pngDocument s).length = 57 + (imageStream s).length ∧
      exec .encode s = .next { s with
        obuf := m, optr := BitVec.ofNat 32 (57 + (imageStream s).length)
        cstart := BitVec.ofNat 32 (45 + (imageStream s).length), clen := 0, crc := 0x51BD9F7D#32
        adler := adlerSeq 0x00000001#32 s.raw, done := true, pend := none }

/-- R86 (e): the output of a successful ENCODE is a function of WIDTH, HEIGHT, COLOR and ZMODE alone: two machines that agree on
these, whatever else they hold, end with the same OPTR and the same bytes below it. -/
def Obligations.EncodeDependsOnImageAlone : Prop :=
  ∀ s s' t t' : State, s.width = s'.width → s.height = s'.height → s.color = s'.color → s.zmode = s'.zmode →
    exec .encode s = .next t → exec .encode s' = .next t' →
    expectedError .encode s = none → expectedError .encode s' = none →
    t.optr = t'.optr ∧ ∀ a, a < t.optr.toNat → t.obuf.read a = t'.obuf.read a

/-- R85, R147: ENCODE is OPTR <- 0 followed by EMIT_SIG, EMIT_IHDR, EMIT_IDAT and EMIT_IEND: the same final state. -/
def Obligations.EncodeIsItsSteps : Prop :=
  ∀ s : State, expectedError .encode s = none →
    execAll [.emitSig, .emitIhdr, .emitIdat, .emitIend] { s with optr := 0 } = exec .encode s

/-- R83, R147: EMIT_IDAT is CHUNK_BEGIN "IDAT", Z_BEGIN, Z_BYTE for each byte of RAW, Z_END and CHUNK_END, when RAW fits in ZIN:
the same final state. -/
def Obligations.EmitIdatIsTheStreamedSequence : Prop :=
  ∀ s : State, expectedError .emitIdat s = none → s.zin = [] → s.data = 0x49444154#32 → s.raw.length ≤ s.build.zinMax →
    execAll ([.chunkBegin, .zBegin] ++ s.raw.map Instr.zByte ++ [.zEnd, .chunkEnd]) s = exec .emitIdat s

/-! ### The host's accesses (10_state.md, 20_memory.md) -/

/-- R60: a write of CMD while PEND = none issues the word. -/
def Obligations.CmdWriteIssues : Prop :=
  ∀ (s : State) (w : Word) (rest : List Event), s.pend = none → s.rst = false → s.agenda = wr .cmd w :: rest →
    step s = .next { s with
      cmd := w, pend := some w, done := false, agenda := rest, resp := some .done } ∧
    ({ s with cmd := w, pend := some w, done := false, agenda := rest, resp := some .done } : State).busy = true

/-- R32, R60: a write of CMD is the only way a command is accepted: a step that ends with a command pending where none was is a
host write of that word to CMD. -/
def Obligations.OnlyCmdWritesIssue : Prop :=
  ∀ (s t : State) (w : Word), s.pend = none → step s = .next t → t.pend = some w →
    ∃ rest, s.agenda = wr .cmd w :: rest

/-- R18, R33 to R41: a write of an operand or checksum register or OPTR while idle sets exactly that register, COLOR its low 24
bits; a write of a read-only register changes nothing; both get a normal response. -/
def Obligations.IdleRegisterWrites : Prop :=
  ∀ (s : State) (r : Reg) (v : Word) (rest : List Event), s.pend = none → s.rst = false → s.agenda = wr r v :: rest →
    r ≠ .cmd → r ≠ .ctrl →
    step s = .next { s with
      width := if r = .width then v else s.width
      height := if r = .height then v else s.height
      color := if r = .color then v.extractLsb' 0 24 else s.color
      data := if r = .data then v else s.data
      crc := if r = .crc then v else s.crc
      adler := if r = .adler then v else s.adler
      optr := if r = .optr then v else s.optr
      agenda := rest, resp := some .done }

/-- R61 (a), (c): while a command is pending, a write of CMD, WIDTH, HEIGHT, COLOR, DATA, CRC, ADLER or OPTR only sets OVR, and a
write of a read-only register changes nothing; both get a normal response. -/
def Obligations.BusyWritesAreIgnored : Prop :=
  ∀ (s : State) (r : Reg) (v : Word) (rest : List Event), s.pend ≠ none → s.rst = false → s.agenda = wr r v :: rest →
    r ≠ .ctrl →
    step s = .next { s with
      ovr := if r ∈ [.cmd, .width, .height, .color, .data, .crc, .adler, .optr] then true else s.ovr
      agenda := rest, resp := some .done }

/-- R22 to R25, R61 (b): a write of CTRL with bit 0 = 0 sets IRQEN to bit 2; clears DONE, ERR, OVR and ERRCODE if bit 1 is 1; and,
only while idle and only with 0b00 or 0b01 in bits [5:4], sets ZMODE. Nothing else changes, OVR is not set. -/
def Obligations.CtrlWriteFields : Prop :=
  ∀ (s : State) (v : Word) (rest : List Event), s.rst = false → s.agenda = wr .ctrl v :: rest → v.getLsbD 0 = false →
    step s = .next { s with
      irqen := v.getLsbD 2
      done := if v.getLsbD 1 then false else s.done
      err := if v.getLsbD 1 then false else s.err
      ovr := if v.getLsbD 1 then false else s.ovr
      errcode := if v.getLsbD 1 then none else s.errcode
      zmode := if s.pend ≠ none then s.zmode
        else if v.extractLsb' 4 2 = 0b00#2 then .stored
        else if v.extractLsb' 4 2 = 0b01#2 then .fixed
        else s.zmode
      agenda := rest, resp := some .done }

/-- R22, R143: a write of CTRL with bit 0 = 1, whatever its other bits and whatever is pending, is a soft reset: the reset values;
OBUF unchanged when idle; and when a command was pending, OBUF unchanged below its OPTR0 but for the four bytes at CSTART
if it was CHUNK_END, free values of a fresh draw (log 9) at those bytes and from OPTR0 on. -/
def Obligations.SoftResetByCtrlWrite : Prop :=
  ∀ (s : State) (v : Word) (rest : List Event), s.rst = false → s.agenda = wr .ctrl v :: rest → v.getLsbD 0 = true →
    ∃ t, step s = .next t ∧ AtReset t ∧ t.agenda = rest ∧ t.resp = some .done ∧ t.rst = false ∧
      (s.pend = none → t.obuf = s.obuf ∧ t.draws = s.draws) ∧
      (∀ w, s.pend = some w → t.draws = s.draws + 1 ∧ ∀ a, a < s.build.obufSize →
        t.obuf.read a =
          if (if w = 0x0000003F#32 then 0 else s.optr.toNat) ≤ a ∨
              (w = 0x00000013#32 ∧ s.cstart.toNat ≤ a ∧ a ≤ s.cstart.toNat + 3)
          then Config.freeObufByte (s.draws + 1) a else s.obuf.read a)

/-- R142, R49: hardware reset, in every state: asserting RST gives every register its reset value and leaves every OBUF byte a
free value of a fresh draw (log 9); releasing it leaves the reset values; the state after reset has them, and its OBUF bytes
are free values too. This hardware's parameters are 4 194 304 and 65 536 (R5, R6). -/
def Obligations.HardwareResetValues : Prop :=
  State.reset.build.obufSize = 4194304 ∧ State.reset.build.zinMax = 65536 ∧ AtReset State.reset ∧ (∀ a, State.reset.obuf.read a = Config.freeObufByte 0 a) ∧
  ∀ (s : State) (rest : List Event),
    (s.agenda = .rst true :: rest → ∃ t, step s = .next t ∧ AtReset t ∧ t.rst = true ∧ t.agenda = rest ∧
      ∀ a, a < s.build.obufSize → t.obuf.read a = Config.freeObufByte (s.draws + 1) a) ∧
    (s.agenda = .rst false :: rest → s.rst = true → ∃ t, step s = .next t ∧ AtReset t ∧ t.rst = false ∧ t.agenda = rest)

/-- R142 (U10 "stuck"): a host access while RST is asserted stops by name (the model's choice, log 7). -/
def Obligations.AccessDuringResetStops : Prop :=
  ∀ (s : State) (addr v : Word) (size : Size) (rest : List Event), s.rst = true →
    s.agenda = .read addr size :: rest ∨ s.agenda = .write addr size v :: rest → step s = .fault .accessDuringReset

/-- R21 to R44, R123: what a 32-bit read of each register returns while idle, as the rules write it, the error codes of STATUS as
the numbers of the rule; the read changes nothing. -/
def Obligations.IdleRegisterReads : Prop :=
  ∀ (s : State) (r : Reg) (rest : List Event), s.pend = none → s.rst = false → s.agenda = rd r :: rest →
    ∃ v, step s = .next { s with agenda := rest, resp := some (.data v) } ∧
      match r with
      | .id => v = 0x504E4701#32
      | .ctrl => v.toNat = (if s.zmode = .fixed then 1 else 0) * 2 ^ 4 + s.irqen.toNat * 2 ^ 2
      | .status => v.toNat = (match s.errcode with
            | none => 0 | some .illegal => 1 | some .seq => 2 | some .param => 3 | some .zfull => 4 | some .oflow => 5) * 2 ^ 8 + s.zopen.toNat * 2 ^ 5 + s.copen.toNat * 2 ^ 4 +
          s.ovr.toNat * 2 ^ 3 + s.err.toNat * 2 ^ 2 + s.done.toNat * 2
      | .cmd => v = s.cmd
      | .width => v = s.width
      | .height => v = s.height
      | .color => v.toNat = s.color.toNat
      | .data => v = s.data
      | .crc => v = s.crc
      | .crcout => v = s.crc ^^^ 0xFFFFFFFF#32
      | .adler => v = s.adler
      | .optr => v = s.optr
      | .clen => v = s.clen
      | .cstart => v = s.cstart
      | .zcount => v = BitVec.ofNat 32 s.zin.length
      | .obufsz => v.toNat = s.build.obufSize
      | .zinmax => v.toNat = s.build.zinMax

/-- R62: while a command is pending, a read of ID, CTRL, CMD, WIDTH, HEIGHT, COLOR, DATA, OBUFSZ or ZINMAX returns the exact value,
and a read of STATUS the exact BUSY = 1, DONE, ERR, OVR, ERRCODE (the numbers of R123) and reserved bits; the read changes no state of the spec. -/
def Obligations.BusyReadsExactFields : Prop :=
  ∀ (s : State) (r : Reg) (rest : List Event), s.pend ≠ none → s.rst = false → s.agenda = rd r :: rest →
    ∃ v, step s = .next { s with agenda := rest, resp := some (.data v), draws := s.draws + 1 } ∧
      (r ∈ [.id, .ctrl, .cmd, .width, .height, .color, .data, .obufsz, .zinmax] → v = s.regValue r) ∧
      (r = .status → v.getLsbD 0 = true ∧ v.getLsbD 1 = s.done ∧ v.getLsbD 2 = s.err ∧ v.getLsbD 3 = s.ovr ∧
        (v.extractLsb' 8 4).toNat = (match s.errcode with
            | none => 0 | some .illegal => 1 | some .seq => 2 | some .param => 3 | some .zfull => 4 | some .oflow => 5) ∧
        v.extractLsb' 6 2 = 0#2 ∧ v.extractLsb' 12 20 = 0#20)

/-- R54, R59: idle reads of the OBUF window: a byte at any offset below OBUF_SIZE; a word at a multiple of 4, the byte at the lowest
offset in bits [7:0]. The read changes nothing. That the response to a byte read is zero above bit 7 is the model's choice (log 21). -/
def Obligations.ObufWindowReads : Prop :=
  ∀ (s : State) (k : Nat) (rest : List Event), s.pend = none → s.rst = false →
    (k < s.build.obufSize → s.agenda = rdb k :: rest →
      step s = .next { s with agenda := rest, resp := some (.data ((s.obuf.read k).setWidth 32)) }) ∧
    (k % 4 = 0 → k + 3 < s.build.obufSize → s.agenda = rdw k :: rest →
      ∃ v, step s = .next { s with agenda := rest, resp := some (.data v) } ∧
        ∀ j, j < 4 → v.extractLsb' (8 * j) 8 = s.obuf.read (k + j))

/-- R62: while a command is pending, the OBUF bytes below its OPTR0 (and outside CSTART to CSTART + 3 for CHUNK_END) read exactly,
by 8-bit reads and in the lanes of aligned 32-bit reads. That the response to a byte read is zero above bit 7 is the model's
choice (log 21). -/
def Obligations.BusyObufBytesBelowStartReadExactly : Prop :=
  ∀ (s : State) (w : Word) (k : Nat) (rest : List Event), s.pend = some w → s.rst = false →
    let settled : Nat → Prop := fun a => a < (if w = 0x0000003F#32 then 0 else s.optr.toNat) ∧
      (w = 0x00000013#32 → a < s.cstart.toNat ∨ s.cstart.toNat + 3 < a)
    (k < s.build.obufSize → settled k → s.agenda = rdb k :: rest →
      step s = .next { s with
        agenda := rest, resp := some (.data ((s.obuf.read k).setWidth 32)), draws := s.draws + 1 }) ∧
    (k % 4 = 0 → k + 3 < s.build.obufSize → s.agenda = rdw k :: rest →
      ∃ v, step s = .next { s with agenda := rest, resp := some (.data v), draws := s.draws + 1 } ∧
        ∀ j, j < 4 → settled (k + j) → v.extractLsb' (8 * j) 8 = s.obuf.read (k + j))

/-- R53, R54, R57: an access that no rule admits gets a bus error and changes no state of PNGENC. With o the offset from BASE, the
admitted reads are a 32-bit one at a multiple of 4 up to 0x40, an 8-bit one in the OBUF window below OBUF_SIZE and an aligned
32-bit one inside it; the admitted writes are the 32-bit ones at a multiple of 4 up to 0x40. The response
outside the region, which R52 says does not reach PNGENC, is the model's choice (log 6). -/
def Obligations.OtherAccessesAreBusErrors : Prop :=
  ∀ (s : State) (addr v : Word) (size : Size) (rest : List Event), s.rst = false →
    let o := (addr - Config.base).toNat
    let regOk := size = .word ∧ o % 4 = 0 ∧ o ≤ 0x40
    let obufOk := 0x01000000 ≤ o ∧ ((size = .byte ∧ o - 0x01000000 < s.build.obufSize) ∨
      (size = .word ∧ o % 4 = 0 ∧ o - 0x01000000 + 3 < s.build.obufSize))
    (s.agenda = .read addr size :: rest → ¬ regOk → ¬ obufOk →
      ∃ d, step s = .next { s with agenda := rest, resp := some .busError, draws := d } ∧ (s.pend = none → d = s.draws)) ∧
    (s.agenda = .write addr size v :: rest → ¬ regOk →
      step s = .next { s with agenda := rest, resp := some .busError })

/-- R61: a command's operands and the pending word cannot change between its issue and its completion, by anything the host does
but a reset. -/
def Obligations.PendingOperandsAreFrozen : Prop :=
  ∀ (s t : State) (e : Event) (rest : List Event), s.pend ≠ none → s.agenda = e :: rest → e ≠ .engine →
    (∀ l, e ≠ .rst l) → step s = .next t →
    (t.pend = s.pend ∧ t.cmd = s.cmd ∧ t.width = s.width ∧ t.height = s.height ∧ t.color = s.color ∧ t.data = s.data ∧
      t.crc = s.crc ∧ t.adler = s.adler ∧ t.optr = s.optr ∧ t.clen = s.clen ∧ t.cstart = s.cstart ∧ t.zin = s.zin ∧
      t.zmode = s.zmode ∧ t.copen = s.copen ∧ t.zopen = s.zopen ∧ t.obuf = s.obuf) ∨
    (∃ v : Word, e = wr .ctrl v ∧ v.getLsbD 0 = true)

/-- R130, R48: an engine's turn that completes a command, with or without error, or an illegal word (R72), leaves IRQ = 1 exactly
when IRQEN = 1, and so does a step that takes such a turn; issue, when ERR = 0, makes IRQ 0. -/
def Obligations.CompletionDrivesIrq : Prop :=
  (∀ (i : Instr) (s t : State), exec i s = .next t → t.irq = s.irqen) ∧
  (∀ (s t : State) (w : Word), s.pend = some w → engineTurn s = .next t → t.pend = none ∧ t.irq = s.irqen) ∧
  (∀ (s t : State) (w : Word) (rest : List Event), s.pend = some w → s.agenda = [] ∨ s.agenda = .engine :: rest →
    step s = .next t → t.pend = none ∧ t.irq = s.irqen) ∧
  (∀ (s : State) (w : Word), s.err = false → (s.issue w).irq = false)

/-- The canonical form of OBUF makes equal contents equal data (the model's representation, log 9): two canonical OBUFs of one
size that hold, at every offset, the same specified byte or the same draw's free value are the same data. -/
def Obligations.CanonicalCellsAreUnique : Prop :=
  ∀ (size : Nat) (m m' : Memory), m.wf size = true → m'.wf size = true →
    (∀ a, a < size → m.content a = m'.content a) → m = m'
end

