-- ==== Sys2Proof/Laws/Bus.lean ====
section
/-! SUPPORT. What a host access does when it is the next event: the offset it reaches, the register it names, and the step in
one equation per kind of access (20_memory.md R51 to R59). -/

namespace Sys2Proof.Machine

/-- A host address built from BASE and an offset reaches that offset (R52). -/
theorem base_offset {k : Nat} (h : k < 2 ^ 32) : (Config.base + BitVec.ofNat 32 k - Config.base).toNat = k := by
  rw [BitVec.add_comm, BitVec.add_sub_cancel, BitVec.toNat_ofNat, Nat.mod_eq_of_lt h]

/-- The register map is read at each register's own offset (10_state.md R17). -/
@[simp] theorem regAt_offset (r : Reg) : regAt r.offset = some r := by cases r <;> rfl

/-- The offsets that name a register: the multiples of 4 up to 0x40 (R53). -/
theorem regAt_isSome (o : Nat) : (regAt o).isSome = true ↔ o % 4 = 0 ∧ o ≤ 0x40 := by
  constructor
  · intro h
    rw [regAt, List.find?_isSome] at h
    obtain ⟨r, -, hr⟩ := h
    obtain rfl : r.offset = o := by simpa using hr
    cases r <;> decide
  · rintro ⟨h4, h40⟩
    have key : ∀ o, o < 0x41 → o % 4 = 0 → (regAt o).isSome = true := by decide
    exact key o (by omega) h4

/-- The step on a host read (R55). -/
theorem step_read {s : State} {addr : Word} {size : Size} {rest : List Event} (hr : s.rst = false)
    (ha : s.agenda = .read addr size :: rest) :
    step s = .next (({ s with agenda := rest } : State).hostRead addr size) := by
  unfold step actNext
  rw [ha]
  exact if_neg (by simp [hr])

/-- The step on a host write (R56). -/
theorem step_write {s : State} {addr v : Word} {size : Size} {rest : List Event} (hr : s.rst = false)
    (ha : s.agenda = .write addr size v :: rest) :
    step s = .next (({ s with agenda := rest } : State).hostWrite addr size v) := by
  unfold step actNext
  rw [ha]
  exact if_neg (by simp [hr])

/-- A register write reaches its register with a normal response (R56). -/
theorem memWrite_reg (s : State) (r : Reg) (v : Word) :
    s.memWrite (Config.base + BitVec.ofNat 32 r.offset) .word v = (s.writeReg r v, .done) := by
  unfold State.memWrite
  rw [base_offset (k := r.offset) (by cases r <;> decide)]
  simp only [State.writeOffset, regAt_offset]

/-- A register read returns what `readReg` says (R55). -/
theorem memRead_reg (s : State) (r : Reg) :
    s.memRead (Config.base + BitVec.ofNat 32 r.offset) .word = .data (s.readReg r) := by
  unfold State.memRead
  rw [base_offset (k := r.offset) (by cases r <;> decide), State.readOffset, if_pos (by cases r <;> decide)]
  simp only [State.readRegWindow, regAt_offset]

/-- A read in the OBUF window at OBUF offset `k` (R54). -/
theorem memRead_window (s : State) {k : Nat} (h : k < s.build.obufSize) (size : Size) :
    s.memRead (Config.base + BitVec.ofNat 32 (obufWindow + k)) size = s.readWindow k size := by
  have hk := s.build.obuf_range
  unfold State.memRead
  rw [base_offset (by unfold obufWindow; omega), State.readOffset, if_neg (by unfold obufWindow; omega),
    if_pos (by unfold obufWindow regionEnd; omega), Nat.add_sub_cancel_left]

/-- The step on `wr REG, value` (30_encoding.md R75). -/
theorem step_wr {s : State} {r : Reg} {v : Word} {rest : List Event} (hr : s.rst = false)
    (ha : s.agenda = wr r v :: rest) :
    step s = .next { ({ s with agenda := rest } : State).writeReg r v with resp := some .done } := by
  rw [step_write hr ha, State.hostWrite, memWrite_reg]

/-- The step on `rd REG` (30_encoding.md R75). -/
theorem step_rd {s : State} {r : Reg} {rest : List Event} (hr : s.rst = false) (ha : s.agenda = rd r :: rest) :
    step s = .next { s with
      agenda := rest, resp := some (.data (({ s with agenda := rest } : State).readReg r))
      draws := if s.busy then s.draws + 1 else s.draws } := by
  rw [step_read hr ha, State.hostRead, memRead_reg]
  rfl

/-- A CTRL write is the same whatever is pending, ZMODE apart (10_state.md R22 to R25, 20_memory.md R61). -/
theorem writeReg_ctrl (s : State) (v : Word) : s.writeReg .ctrl v = s.writeCtrl v := by
  unfold State.writeReg
  split_ifs <;> rfl

end Sys2Proof.Machine
end

