-- ==== Sys2Proof/Laws/Memory.lean ====
section
/-! SUPPORT. The laws of OBUF: reads after writes, and that every operation keeps the canonical form. -/

namespace Sys2Proof.Machine

/-! ### Cells -/

theorem findCell_insertCell_same (a : Nat) (b : Byte) (cs : List Host.Cell) :
    findCell a (insertCell a b cs) = some b := by
  induction cs with
  | nil => simp [insertCell, findCell]
  | cons c rest ih =>
    obtain ⟨k, v⟩ := c
    simp only [insertCell]
    split_ifs with h1 h2
    · simp [findCell]
    · simp [findCell]
    · simp [findCell, Ne.symm h2, ih]

theorem findCell_insertCell_other {a x : Nat} (h : x ≠ a) (b : Byte) (cs : List Host.Cell) :
    findCell x (insertCell a b cs) = findCell x cs := by
  induction cs with
  | nil => simp [insertCell, findCell, Ne.symm h]
  | cons c rest ih =>
    obtain ⟨k, v⟩ := c
    simp only [insertCell]
    split_ifs with h1 h2
    · simp [findCell, Ne.symm h]
    · subst h2
      simp [findCell, Ne.symm h]
    · simp only [findCell]
      rw [ih]

theorem findCell_filter (p : Nat → Bool) (x : Nat) (cs : List Host.Cell) :
    findCell x (cs.filter fun c => p c.1) = if p x then findCell x cs else none := by
  induction cs with
  | nil => simp [findCell]
  | cons c rest ih =>
    obtain ⟨k, v⟩ := c
    by_cases hk : k = x
    · subst hk
      by_cases hp : p k <;> simp [List.filter, findCell, hp, ih]
    · by_cases hp : p k <;> simp [List.filter, findCell, hk, hp, ih]

/-- The Bool check is the ordering of all offsets. -/
theorem cellsRise_iff (cs : List Host.Cell) : cellsRise cs = true ↔ cs.Pairwise fun c d => c.1 < d.1 := by
  induction cs with
  | nil => simp [cellsRise]
  | cons c rest ih =>
    cases rest with
    | nil => simp [cellsRise]
    | cons d rest =>
      simp only [cellsRise, Bool.and_eq_true, decide_eq_true_eq, ih, List.pairwise_cons (a := c)]
      constructor
      · rintro ⟨hcd, hp⟩
        refine ⟨?_, hp⟩
        intro e he
        rcases List.mem_cons.1 he with rfl | he
        · exact hcd
        · exact lt_trans hcd ((List.pairwise_cons.1 hp).1 e he)
      · rintro ⟨hc, hp⟩
        exact ⟨hc d (by simp), hp⟩

theorem mem_insertCell {a : Nat} {b : Byte} {cs : List Host.Cell} {c : Host.Cell} (h : c ∈ insertCell a b cs) :
    c = (a, b) ∨ c ∈ cs := by
  induction cs with
  | nil => simpa [insertCell] using h
  | cons d rest ih =>
    obtain ⟨k, v⟩ := d
    simp only [insertCell] at h
    split_ifs at h with h1 h2
    · simpa using h
    · rcases List.mem_cons.1 h with h | h
      · exact .inl h
      · exact .inr (List.mem_cons_of_mem _ h)
    · rcases List.mem_cons.1 h with h | h
      · exact .inr (h ▸ List.mem_cons_self)
      · exact (ih h).imp_right (List.mem_cons_of_mem _)

theorem pairwise_insertCell (a : Nat) (b : Byte) {cs : List Host.Cell} (h : cs.Pairwise fun c d => c.1 < d.1) :
    (insertCell a b cs).Pairwise fun c d => c.1 < d.1 := by
  induction cs with
  | nil => simp [insertCell]
  | cons d rest ih =>
    obtain ⟨k, v⟩ := d
    obtain ⟨hk, hr⟩ := List.pairwise_cons.1 h
    simp only [insertCell]
    split_ifs with h1 h2
    · refine List.pairwise_cons.2 ⟨?_, h⟩
      intro e he
      rcases List.mem_cons.1 he with rfl | he
      · exact h1
      · exact lt_trans h1 (hk e he)
    · subst h2
      exact List.pairwise_cons.2 ⟨hk, hr⟩
    · refine List.pairwise_cons.2 ⟨?_, ih hr⟩
      intro e he
      rcases mem_insertCell he with rfl | he
      · exact lt_of_le_of_ne (Nat.le_of_not_lt h1) (Ne.symm h2)
      · exact hk e he

/-! ### Origins -/

theorem drawFrom_append (cur a : Nat) (l r : List Origin) : drawFrom cur a (l ++ r) = drawFrom (drawFrom cur a l) a r := by
  induction l generalizing cur with
  | nil => rfl
  | cons o l ih => exact ih _

/-- Origins above an offset do not reach it. -/
theorem drawFrom_above {cur a : Nat} {l : List Origin} (h : ∀ o ∈ l, a < o.start) : drawFrom cur a l = cur := by
  induction l with
  | nil => rfl
  | cons o l ih =>
    rw [drawFrom, if_neg (by have := h o (by simp); omega)]
    exact ih fun p hp => h p (by simp [hp])

theorem drawFrom_filter_below {cur a lo : Nat} (h : a < lo) (l : List Origin) :
    drawFrom cur a (l.filter fun o => decide (o.start < lo)) = drawFrom cur a l := by
  induction l generalizing cur with
  | nil => rfl
  | cons o l ih =>
    by_cases ho : o.start < lo
    · rw [List.filter_cons_of_pos (by simpa using ho)]
      exact ih
    · rw [List.filter_cons_of_neg (by simpa using ho), ih, drawFrom, if_neg (by omega)]

theorem drawFrom_clip {cur a hi : Nat} (h : hi ≤ a) (l : List Origin) :
    drawFrom cur a (l.map fun o => ⟨max o.start hi, o.draw⟩) = drawFrom cur a l := by
  induction l generalizing cur with
  | nil => rfl
  | cons o l ih =>
    have hiff : max o.start hi ≤ a ↔ o.start ≤ a := by omega
    simp only [List.map_cons, drawFrom, hiff]
    exact ih

/-- Tidying changes no draw, where `cur` is the draw in force from `start` on. -/
theorem drawFrom_tidy (a : Nat) (l : List Origin) : ∀ {start cur now : Nat}, (start ≤ a → now = cur) →
    drawFrom now a (tidy start cur l) = drawFrom now a l := by
  induction l with
  | nil => intro _ _ _ _; rfl
  | cons o l ih =>
    intro start cur now hnow
    rw [tidy]
    split_ifs with hdrop
    · rw [ih hnow, drawFrom]
      simp only [Bool.or_eq_true, Bool.and_eq_true, beq_iff_eq, decide_eq_true_eq] at hdrop
      rcases hdrop with hnext | ⟨hdraw, hle⟩
      · cases l with
        | nil => simp at hnext
        | cons p l =>
          have hp : p.start = o.start := by simpa using hnext
          simp only [drawFrom, hp]
          by_cases ho : o.start ≤ a <;> simp [ho]
      · by_cases ho : o.start ≤ a
        · rw [if_pos ho, hdraw, hnow (by omega)]
        · rw [if_neg ho]
    · rw [drawFrom, drawFrom, ih]
      intro ho
      rw [if_pos ho]

/-- All that setting the draw of a range does to the draw at an offset. -/
theorem drawAt_setDraw (lo hi draw a : Nat) (os : List Origin) :
    drawAt a (setDraw lo hi draw os) = if lo ≤ a ∧ a < hi then draw else drawAt a os := by
  unfold drawAt setDraw
  rw [drawFrom_tidy a _ (fun _ => rfl), drawFrom_append, drawFrom_append]
  by_cases hhi : hi ≤ a
  · rw [drawFrom_clip hhi, if_neg (by omega)]
    simp [drawFrom, hhi]
  · have hclip : ∀ cur, drawFrom cur a (os.map fun o => (⟨max o.start hi, o.draw⟩ : Origin)) = cur := by
      intro cur
      refine drawFrom_above fun o ho => ?_
      obtain ⟨p, -, rfl⟩ := List.mem_map.1 ho
      show a < max p.start hi
      omega
    rw [hclip]
    by_cases hlo : lo ≤ a
    · rw [if_pos ⟨hlo, by omega⟩]
      simp [drawFrom, hhi, hlo]
    · rw [if_neg (by omega)]
      simp [drawFrom, hhi, hlo, drawFrom_filter_below (show a < lo by omega)]

theorem tidy_sublist (start cur : Nat) (l : List Origin) : (tidy start cur l).Sublist l := by
  induction l generalizing start cur with
  | nil => exact .slnil
  | cons o l ih =>
    rw [tidy]
    split_ifs
    · exact (ih start cur).cons o
    · exact (ih o.start o.draw).cons_cons o

/-- An origin of a changed list carries the new draw, power-on, or an old draw. -/
theorem mem_setDraw {lo hi draw : Nat} {os : List Origin} {o : Origin} (h : o ∈ setDraw lo hi draw os) :
    o.draw = draw ∨ o.draw = 0 ∨ ∃ p ∈ os, o.draw = p.draw := by
  have := (tidy_sublist _ _ _).subset h
  simp only [List.mem_append, List.mem_cons, List.not_mem_nil, or_false, List.mem_map, List.mem_filter] at this
  rcases this with (h | rfl | rfl) | ⟨p, hp, rfl⟩
  · exact .inr (.inr ⟨o, h.1, rfl⟩)
  · exact .inl rfl
  · exact .inr (.inl rfl)
  · exact .inr (.inr ⟨p, hp, rfl⟩)

/-- Tidying a list of rising starts gives the canonical form. -/
theorem originsRise_tidy {size : Nat} (l : List Origin) : ∀ {start cur : Nat}, (∀ o ∈ l, start ≤ o.start ∧ o.start ≤ size) →
    (l.Pairwise fun o p => o.start ≤ p.start) → originsRise size cur (tidy start cur l) = true := by
  induction l with
  | nil => intro _ _ _ _; rfl
  | cons o l ih =>
    intro start cur hb hp
    obtain ⟨hmin, hp⟩ := List.pairwise_cons.1 hp
    have ho := hb o (by simp)
    rw [tidy]
    split_ifs with hdrop
    · exact ih (fun p hl => hb p (by simp [hl])) hp
    · simp only [Bool.or_eq_true, Bool.and_eq_true, beq_iff_eq, decide_eq_true_eq, not_or, not_and] at hdrop
      have hrest : ∀ p ∈ l, o.start < p.start := by
        cases l with
        | nil => simp
        | cons q l =>
          have hq : q.start ≠ o.start := by simpa using hdrop.1
          have hoq : o.start ≤ q.start := hmin q (by simp)
          intro p hp'
          rcases List.mem_cons.1 hp' with rfl | hp'
          · omega
          · have := (List.pairwise_cons.1 hp).1 p hp'
            omega
      have hhead : (tidy o.start o.draw l).head?.all (fun p => decide (o.start < p.start)) = true := by
        cases ht : tidy o.start o.draw l with
        | nil => rfl
        | cons q t => simpa using hrest q ((tidy_sublist o.start o.draw l).subset (by simp [ht]))
      have hne : o.draw ≠ cur := fun h => hdrop.2 h ho.1
      simp only [originsRise, hhead, ih (fun p hl => ⟨hmin p hl, (hb p (by simp [hl])).2⟩) hp]
      simp [ho.2, hne]

/-- The canonical form of origins says that the starts rise. -/
theorem originsRise_pairwise {size : Nat} (l : List Origin) : ∀ {cur : Nat}, originsRise size cur l = true →
    (∀ o ∈ l, o.start ≤ size) ∧ l.Pairwise fun o p => o.start < p.start := by
  induction l with
  | nil => intro _ _; simp
  | cons o l ih =>
    intro cur h
    simp only [originsRise, Bool.and_eq_true, decide_eq_true_eq] at h
    obtain ⟨⟨⟨hsize, -⟩, hhead⟩, hrest⟩ := h
    obtain ⟨hall, hp⟩ := ih hrest
    refine ⟨by simpa [hsize] using hall, List.pairwise_cons.2 ⟨?_, hp⟩⟩
    cases l with
    | nil => simp
    | cons q l =>
      have hq : o.start < q.start := by simpa using hhead
      intro p hp'
      rcases List.mem_cons.1 hp' with rfl | hp'
      · exact hq
      · exact lt_trans hq ((List.pairwise_cons.1 hp).1 p hp')

theorem originsRise_setDraw {size lo hi draw : Nat} {os : List Origin} (hos : originsRise size 0 os = true) (hlo : lo < hi)
    (hhi : hi ≤ size) : originsRise size 0 (setDraw lo hi draw os) = true := by
  obtain ⟨hall, hp⟩ := originsRise_pairwise os hos
  refine originsRise_tidy _ ?_ ?_
  · intro o ho
    refine ⟨Nat.zero_le _, ?_⟩
    simp only [List.mem_append, List.mem_cons, List.not_mem_nil, or_false, List.mem_map, List.mem_filter] at ho
    rcases ho with (h | rfl | rfl) | ⟨p, hp, rfl⟩
    · exact hall o h.1
    · show lo ≤ size
      omega
    · exact hhi
    · have := hall p hp
      show max p.start hi ≤ size
      omega
  · refine List.pairwise_append.2 ⟨List.pairwise_append.2 ⟨(hp.imp Nat.le_of_lt).filter _, ?_, ?_⟩, ?_, ?_⟩
    · simpa using Nat.le_of_lt hlo
    · intro o ho p hp'
      have h1 : o.start < lo := by simpa using (List.mem_filter.1 ho).2
      simp only [List.mem_cons, List.not_mem_nil, or_false] at hp'
      rcases hp' with rfl | rfl
      · exact Nat.le_of_lt h1
      · show o.start ≤ hi
        omega
    · refine List.pairwise_map.2 (hp.imp fun {o p} h => ?_)
      show max o.start hi ≤ max p.start hi
      omega
    · intro o ho p hp'
      obtain ⟨q, -, rfl⟩ := List.mem_map.1 hp'
      show o.start ≤ max q.start hi
      simp only [List.mem_append, List.mem_cons, List.not_mem_nil, or_false, List.mem_filter, decide_eq_true_eq] at ho
      rcases ho with h | rfl | rfl
      · omega
      · show lo ≤ max q.start hi
        omega
      · exact le_max_right _ _

/-! ### Reads -/

theorem Memory.content_write (m : Memory) (a x : Nat) (b : Byte) :
    (m.write a b).content x = if x = a then .specified b else m.content x := by
  simp only [Memory.content, Memory.write]
  split_ifs with h
  · subst h
    rw [findCell_insertCell_same]
  · rw [findCell_insertCell_other h, drawAt_setDraw, if_neg (by omega)]

/-- All that leaving a range unspecified does to an offset. -/
theorem Memory.content_forget {m : Memory} {lo hi draw x : Nat} :
    (m.forget lo hi draw).content x = if lo ≤ x ∧ x < hi then .unspecified draw else m.content x := by
  unfold Memory.forget
  split_ifs with hle hin hin
  · omega
  · rfl
  all_goals
    simp only [Memory.content]
    rw [findCell_filter (fun k => decide (k < lo) || decide (hi ≤ k)) x m.cells, drawAt_setDraw]
  · rw [if_neg (by simp; omega), if_pos hin]
  · rw [if_pos (by simp; omega), if_neg hin]

theorem Memory.read_write_same (m : Memory) (a : Nat) (b : Byte) : (m.write a b).read a = b := by
  simp [Memory.read, Memory.content_write]

theorem Memory.read_write_other (m : Memory) {a x : Nat} (h : x ≠ a) (b : Byte) : (m.write a b).read x = m.read x := by
  simp [Memory.read, Memory.content_write, h]

/-- A sequence written from `a` reads back in order, and every other byte reads as before. -/
theorem Memory.read_writeSeq (bs : List Byte) : ∀ (m : Memory) (a x : Nat),
    (m.writeSeq a bs).read x = if a ≤ x then bs[x - a]?.getD (m.read x) else m.read x := by
  induction bs with
  | nil => intro m a x; simp [Memory.writeSeq]
  | cons b bs ih =>
    intro m a x
    rw [Memory.writeSeq, ih]
    by_cases h : x = a
    · subst h
      simp [Memory.read_write_same]
    · rw [Memory.read_write_other m h]
      by_cases hle : a ≤ x
      · obtain ⟨k, hk⟩ : ∃ k, x - a = k + 1 := ⟨x - a - 1, by omega⟩
        have hx : x - (a + 1) = k := by omega
        simp [hle, hk, hx, show a + 1 ≤ x by omega]
      · simp [hle, show ¬ a + 1 ≤ x by omega]

theorem Memory.read_writeSeq_outside {m : Memory} {a x : Nat} {bs : List Byte} (h : x < a ∨ a + bs.length ≤ x) :
    (m.writeSeq a bs).read x = m.read x := by
  rw [Memory.read_writeSeq]
  split_ifs with hle
  · rw [List.getElem?_eq_none (by omega)]
    rfl
  · rfl

theorem Memory.read_writeSeq_inside {m : Memory} {a i : Nat} {bs : List Byte} (h : i < bs.length) :
    (m.writeSeq a bs).read (a + i) = bs[i] := by
  rw [Memory.read_writeSeq]
  simp [h]

theorem Memory.writeSeq_append (bs cs : List Byte) : ∀ (m : Memory) (a : Nat),
    m.writeSeq a (bs ++ cs) = (m.writeSeq a bs).writeSeq (a + bs.length) cs := by
  induction bs with
  | nil => intro m a; rfl
  | cons b bs ih =>
    intro m a
    simp [Memory.writeSeq, ih, Nat.add_assoc, Nat.add_comm 1]

/-- An event that leaves bytes unspecified changes no byte outside its range. -/
theorem Memory.read_forget_outside {m : Memory} {lo hi draw x : Nat} (h : x < lo ∨ hi ≤ x) :
    (m.forget lo hi draw).read x = m.read x := by
  rw [Memory.read, Memory.content_forget, if_neg (by omega)]
  rfl

/-- A byte inside the range of such an event holds the free value of its draw. -/
theorem Memory.read_forget_inside {m : Memory} {lo hi draw x : Nat} (hlo : lo ≤ x) (hhi : x < hi) :
    (m.forget lo hi draw).read x = Config.freeObufByte draw x := by
  rw [Memory.read, Memory.content_forget, if_pos ⟨hlo, hhi⟩]

/-! ### The canonical form -/

theorem Memory.wf_iff (m : Memory) (size : Nat) :
    m.wf size = true ↔ (m.cells.Pairwise fun c d => c.1 < d.1) ∧ (∀ c ∈ m.cells, c.1 < size ∧ drawAt c.1 m.origins = 0) ∧
      originsRise size 0 m.origins = true ∧ drawAt size m.origins = 0 := by
  simp [Memory.wf, cellsRise_iff, and_assoc]

theorem Memory.wf_write {m : Memory} {size a : Nat} (hm : m.wf size = true) (ha : a < size) (b : Byte) :
    (m.write a b).wf size = true := by
  rw [Memory.wf_iff] at hm ⊢
  obtain ⟨hcells, hall, hos, hend⟩ := hm
  refine ⟨pairwise_insertCell a b hcells, ?_, originsRise_setDraw hos (Nat.lt_succ_self a) ha, ?_⟩
  · intro c hc
    have hdraw : drawAt c.1 (setDraw a (a + 1) 0 m.origins) = if a ≤ c.1 ∧ c.1 < a + 1 then 0 else drawAt c.1 m.origins :=
      drawAt_setDraw ..
    rcases mem_insertCell hc with rfl | hc
    · exact ⟨ha, hdraw.trans (if_pos ⟨le_refl _, Nat.lt_succ_self _⟩)⟩
    · refine ⟨(hall c hc).1, hdraw.trans ?_⟩
      split_ifs
      · rfl
      · exact (hall c hc).2
  · refine (drawAt_setDraw ..).trans ?_
    rw [if_neg (by omega), hend]

theorem Memory.wf_writeSeq (bs : List Byte) : ∀ {m : Memory} {size a : Nat}, m.wf size = true →
    a + bs.length ≤ size → (m.writeSeq a bs).wf size = true := by
  induction bs with
  | nil => intro m size a hm _; exact hm
  | cons b bs ih =>
    intro m size a hm ha
    simp only [List.length_cons] at ha
    exact ih (Memory.wf_write hm (by omega) b) (by omega)

theorem Memory.wf_forget {m : Memory} {size lo hi draw : Nat} (hm : m.wf size = true) (hhi : hi ≤ size) :
    (m.forget lo hi draw).wf size = true := by
  unfold Memory.forget
  split_ifs with h
  · exact hm
  · rw [Memory.wf_iff] at hm ⊢
    obtain ⟨hcells, hall, hos, hend⟩ := hm
    refine ⟨hcells.filter _, ?_, originsRise_setDraw hos (by omega) hhi, ?_⟩
    · intro c hc
      obtain ⟨hc, hout⟩ := List.mem_filter.1 hc
      simp only [Bool.or_eq_true, decide_eq_true_eq] at hout
      refine ⟨(hall c hc).1, (drawAt_setDraw ..).trans ?_⟩
      rw [if_neg (by omega), (hall c hc).2]
    · refine (drawAt_setDraw ..).trans ?_
      rw [if_neg (by omega), hend]

theorem reset_obuf_wf (b : Build) : (State.resetOf b).obuf.wf b.obufSize = true := by
  simp [Memory.wf_iff, State.resetOf, originsRise, drawAt, drawFrom]

/-! ### The draws of the bytes left unspecified -/

theorem Memory.draws_writeSeq (bs : List Byte) : ∀ {m : Memory} {a n : Nat}, (∀ o ∈ m.origins, o.draw ≤ n) →
    ∀ o ∈ (m.writeSeq a bs).origins, o.draw ≤ n := by
  induction bs with
  | nil => intro m a n h; exact h
  | cons b bs ih =>
    intro m a n h
    refine ih fun o ho => ?_
    rcases mem_setDraw ho with hd | hd | ⟨p, hp, hd⟩
    · omega
    · omega
    · rw [hd]
      exact h p hp

theorem Memory.draws_forget {m : Memory} {lo hi draw n : Nat} (h : ∀ o ∈ m.origins, o.draw ≤ n) (hd : draw ≤ n) :
    ∀ o ∈ (m.forget lo hi draw).origins, o.draw ≤ n := by
  intro o ho
  unfold Memory.forget at ho
  split_ifs at ho with hle
  · exact h o ho
  · rcases mem_setDraw ho with he | he | ⟨p, hp, he⟩
    · omega
    · omega
    · rw [he]
      exact h p hp

end Sys2Proof.Machine
end

