-- ==== Sys2Proof/Laws/State.lean ====
section
/-! SUPPORT. Every named update of the state, field by field, so that no proof unfolds one. -/

namespace Sys2Proof.Machine

/-! ### Successful completion (60_exceptions.md R125) -/

@[simp] theorem State.completeOk_build (s : State) : (s.completeOk).build = s.build := rfl
@[simp] theorem State.completeOk_irqen (s : State) : (s.completeOk).irqen = s.irqen := rfl
@[simp] theorem State.completeOk_zmode (s : State) : (s.completeOk).zmode = s.zmode := rfl
@[simp] theorem State.completeOk_done (s : State) : (s.completeOk).done = true := rfl
@[simp] theorem State.completeOk_err (s : State) : (s.completeOk).err = s.err := rfl
@[simp] theorem State.completeOk_ovr (s : State) : (s.completeOk).ovr = s.ovr := rfl
@[simp] theorem State.completeOk_copen (s : State) : (s.completeOk).copen = s.copen := rfl
@[simp] theorem State.completeOk_zopen (s : State) : (s.completeOk).zopen = s.zopen := rfl
@[simp] theorem State.completeOk_errcode (s : State) : (s.completeOk).errcode = s.errcode := rfl
@[simp] theorem State.completeOk_cmd (s : State) : (s.completeOk).cmd = s.cmd := rfl
@[simp] theorem State.completeOk_width (s : State) : (s.completeOk).width = s.width := rfl
@[simp] theorem State.completeOk_height (s : State) : (s.completeOk).height = s.height := rfl
@[simp] theorem State.completeOk_color (s : State) : (s.completeOk).color = s.color := rfl
@[simp] theorem State.completeOk_data (s : State) : (s.completeOk).data = s.data := rfl
@[simp] theorem State.completeOk_crc (s : State) : (s.completeOk).crc = s.crc := rfl
@[simp] theorem State.completeOk_adler (s : State) : (s.completeOk).adler = s.adler := rfl
@[simp] theorem State.completeOk_optr (s : State) : (s.completeOk).optr = s.optr := rfl
@[simp] theorem State.completeOk_clen (s : State) : (s.completeOk).clen = s.clen := rfl
@[simp] theorem State.completeOk_cstart (s : State) : (s.completeOk).cstart = s.cstart := rfl
@[simp] theorem State.completeOk_obuf (s : State) : (s.completeOk).obuf = s.obuf := rfl
@[simp] theorem State.completeOk_zin (s : State) : (s.completeOk).zin = s.zin := rfl
@[simp] theorem State.completeOk_pend (s : State) : (s.completeOk).pend = none := rfl
@[simp] theorem State.completeOk_rst (s : State) : (s.completeOk).rst = s.rst := rfl
@[simp] theorem State.completeOk_agenda (s : State) : (s.completeOk).agenda = s.agenda := rfl
@[simp] theorem State.completeOk_resp (s : State) : (s.completeOk).resp = s.resp := rfl
@[simp] theorem State.completeOk_draws (s : State) : (s.completeOk).draws = s.draws := rfl

/-! ### Completion with an error (R126) -/

@[simp] theorem State.completeError_build (s : State) (start : Nat) (e : CmdError) : (s.completeError start e).build = s.build := by cases e <;> rfl
@[simp] theorem State.completeError_irqen (s : State) (start : Nat) (e : CmdError) : (s.completeError start e).irqen = s.irqen := by cases e <;> rfl
@[simp] theorem State.completeError_zmode (s : State) (start : Nat) (e : CmdError) : (s.completeError start e).zmode = s.zmode := by cases e <;> rfl
@[simp] theorem State.completeError_done (s : State) (start : Nat) (e : CmdError) : (s.completeError start e).done = s.done := by cases e <;> rfl
@[simp] theorem State.completeError_err (s : State) (start : Nat) (e : CmdError) : (s.completeError start e).err = true := by cases e <;> rfl
@[simp] theorem State.completeError_ovr (s : State) (start : Nat) (e : CmdError) : (s.completeError start e).ovr = s.ovr := by cases e <;> rfl
@[simp] theorem State.completeError_copen (s : State) (start : Nat) (e : CmdError) : (s.completeError start e).copen = s.copen := by cases e <;> rfl
@[simp] theorem State.completeError_zopen (s : State) (start : Nat) (e : CmdError) : (s.completeError start e).zopen = s.zopen := by cases e <;> rfl
@[simp] theorem State.completeError_errcode (s : State) (start : Nat) (e : CmdError) : (s.completeError start e).errcode = some e := by cases e <;> rfl
@[simp] theorem State.completeError_cmd (s : State) (start : Nat) (e : CmdError) : (s.completeError start e).cmd = s.cmd := by cases e <;> rfl
@[simp] theorem State.completeError_width (s : State) (start : Nat) (e : CmdError) : (s.completeError start e).width = s.width := by cases e <;> rfl
@[simp] theorem State.completeError_height (s : State) (start : Nat) (e : CmdError) : (s.completeError start e).height = s.height := by cases e <;> rfl
@[simp] theorem State.completeError_color (s : State) (start : Nat) (e : CmdError) : (s.completeError start e).color = s.color := by cases e <;> rfl
@[simp] theorem State.completeError_data (s : State) (start : Nat) (e : CmdError) : (s.completeError start e).data = s.data := by cases e <;> rfl
@[simp] theorem State.completeError_crc (s : State) (start : Nat) (e : CmdError) : (s.completeError start e).crc = s.crc := by cases e <;> rfl
@[simp] theorem State.completeError_adler (s : State) (start : Nat) (e : CmdError) : (s.completeError start e).adler = s.adler := by cases e <;> rfl
@[simp] theorem State.completeError_optr (s : State) (start : Nat) (e : CmdError) : (s.completeError start e).optr = s.optr := by cases e <;> rfl
@[simp] theorem State.completeError_clen (s : State) (start : Nat) (e : CmdError) : (s.completeError start e).clen = s.clen := by cases e <;> rfl
@[simp] theorem State.completeError_cstart (s : State) (start : Nat) (e : CmdError) : (s.completeError start e).cstart = s.cstart := by cases e <;> rfl
@[simp] theorem State.completeError_zin (s : State) (start : Nat) (e : CmdError) : (s.completeError start e).zin = s.zin := by cases e <;> rfl
@[simp] theorem State.completeError_pend (s : State) (start : Nat) (e : CmdError) : (s.completeError start e).pend = none := by cases e <;> rfl
@[simp] theorem State.completeError_rst (s : State) (start : Nat) (e : CmdError) : (s.completeError start e).rst = s.rst := by cases e <;> rfl
@[simp] theorem State.completeError_agenda (s : State) (start : Nat) (e : CmdError) : (s.completeError start e).agenda = s.agenda := by cases e <;> rfl
@[simp] theorem State.completeError_resp (s : State) (start : Nat) (e : CmdError) : (s.completeError start e).resp = s.resp := by cases e <;> rfl

theorem State.completeError_obuf_oflow (s : State) (start : Nat) :
    (s.completeError start .oflow).obuf = s.obuf.forget start s.build.obufSize (s.draws + 1) := rfl
theorem State.completeError_draws_oflow (s : State) (start : Nat) :
    (s.completeError start .oflow).draws = s.draws + 1 := rfl
theorem State.completeError_obuf_other (s : State) (start : Nat) {e : CmdError} (h : e ≠ .oflow) :
    (s.completeError start e).obuf = s.obuf := by cases e <;> first | rfl | exact absurd rfl h
theorem State.completeError_draws_other (s : State) (start : Nat) {e : CmdError} (h : e ≠ .oflow) :
    (s.completeError start e).draws = s.draws := by cases e <;> first | rfl | exact absurd rfl h

/-! ### CLR (10_state.md R23) -/

@[simp] theorem State.clearFlags_build (s : State) : (s.clearFlags).build = s.build := rfl
@[simp] theorem State.clearFlags_irqen (s : State) : (s.clearFlags).irqen = s.irqen := rfl
@[simp] theorem State.clearFlags_zmode (s : State) : (s.clearFlags).zmode = s.zmode := rfl
@[simp] theorem State.clearFlags_done (s : State) : (s.clearFlags).done = false := rfl
@[simp] theorem State.clearFlags_err (s : State) : (s.clearFlags).err = false := rfl
@[simp] theorem State.clearFlags_ovr (s : State) : (s.clearFlags).ovr = false := rfl
@[simp] theorem State.clearFlags_copen (s : State) : (s.clearFlags).copen = s.copen := rfl
@[simp] theorem State.clearFlags_zopen (s : State) : (s.clearFlags).zopen = s.zopen := rfl
@[simp] theorem State.clearFlags_errcode (s : State) : (s.clearFlags).errcode = none := rfl
@[simp] theorem State.clearFlags_cmd (s : State) : (s.clearFlags).cmd = s.cmd := rfl
@[simp] theorem State.clearFlags_width (s : State) : (s.clearFlags).width = s.width := rfl
@[simp] theorem State.clearFlags_height (s : State) : (s.clearFlags).height = s.height := rfl
@[simp] theorem State.clearFlags_color (s : State) : (s.clearFlags).color = s.color := rfl
@[simp] theorem State.clearFlags_data (s : State) : (s.clearFlags).data = s.data := rfl
@[simp] theorem State.clearFlags_crc (s : State) : (s.clearFlags).crc = s.crc := rfl
@[simp] theorem State.clearFlags_adler (s : State) : (s.clearFlags).adler = s.adler := rfl
@[simp] theorem State.clearFlags_optr (s : State) : (s.clearFlags).optr = s.optr := rfl
@[simp] theorem State.clearFlags_clen (s : State) : (s.clearFlags).clen = s.clen := rfl
@[simp] theorem State.clearFlags_cstart (s : State) : (s.clearFlags).cstart = s.cstart := rfl
@[simp] theorem State.clearFlags_obuf (s : State) : (s.clearFlags).obuf = s.obuf := rfl
@[simp] theorem State.clearFlags_zin (s : State) : (s.clearFlags).zin = s.zin := rfl
@[simp] theorem State.clearFlags_pend (s : State) : (s.clearFlags).pend = s.pend := rfl
@[simp] theorem State.clearFlags_rst (s : State) : (s.clearFlags).rst = s.rst := rfl
@[simp] theorem State.clearFlags_agenda (s : State) : (s.clearFlags).agenda = s.agenda := rfl
@[simp] theorem State.clearFlags_resp (s : State) : (s.clearFlags).resp = s.resp := rfl
@[simp] theorem State.clearFlags_draws (s : State) : (s.clearFlags).draws = s.draws := rfl

/-! ### Issue (20_memory.md R60) -/

@[simp] theorem State.issue_build (s : State) (w : Word) : (s.issue w).build = s.build := rfl
@[simp] theorem State.issue_irqen (s : State) (w : Word) : (s.issue w).irqen = s.irqen := rfl
@[simp] theorem State.issue_zmode (s : State) (w : Word) : (s.issue w).zmode = s.zmode := rfl
@[simp] theorem State.issue_done (s : State) (w : Word) : (s.issue w).done = false := rfl
@[simp] theorem State.issue_err (s : State) (w : Word) : (s.issue w).err = s.err := rfl
@[simp] theorem State.issue_ovr (s : State) (w : Word) : (s.issue w).ovr = s.ovr := rfl
@[simp] theorem State.issue_copen (s : State) (w : Word) : (s.issue w).copen = s.copen := rfl
@[simp] theorem State.issue_zopen (s : State) (w : Word) : (s.issue w).zopen = s.zopen := rfl
@[simp] theorem State.issue_errcode (s : State) (w : Word) : (s.issue w).errcode = s.errcode := rfl
@[simp] theorem State.issue_cmd (s : State) (w : Word) : (s.issue w).cmd = w := rfl
@[simp] theorem State.issue_width (s : State) (w : Word) : (s.issue w).width = s.width := rfl
@[simp] theorem State.issue_height (s : State) (w : Word) : (s.issue w).height = s.height := rfl
@[simp] theorem State.issue_color (s : State) (w : Word) : (s.issue w).color = s.color := rfl
@[simp] theorem State.issue_data (s : State) (w : Word) : (s.issue w).data = s.data := rfl
@[simp] theorem State.issue_crc (s : State) (w : Word) : (s.issue w).crc = s.crc := rfl
@[simp] theorem State.issue_adler (s : State) (w : Word) : (s.issue w).adler = s.adler := rfl
@[simp] theorem State.issue_optr (s : State) (w : Word) : (s.issue w).optr = s.optr := rfl
@[simp] theorem State.issue_clen (s : State) (w : Word) : (s.issue w).clen = s.clen := rfl
@[simp] theorem State.issue_cstart (s : State) (w : Word) : (s.issue w).cstart = s.cstart := rfl
@[simp] theorem State.issue_obuf (s : State) (w : Word) : (s.issue w).obuf = s.obuf := rfl
@[simp] theorem State.issue_zin (s : State) (w : Word) : (s.issue w).zin = s.zin := rfl
@[simp] theorem State.issue_pend (s : State) (w : Word) : (s.issue w).pend = some w := rfl
@[simp] theorem State.issue_rst (s : State) (w : Word) : (s.issue w).rst = s.rst := rfl
@[simp] theorem State.issue_agenda (s : State) (w : Word) : (s.issue w).agenda = s.agenda := rfl
@[simp] theorem State.issue_resp (s : State) (w : Word) : (s.issue w).resp = s.resp := rfl
@[simp] theorem State.issue_draws (s : State) (w : Word) : (s.issue w).draws = s.draws := rfl

/-! ### The register reset (R49) -/

@[simp] theorem State.resetRegs_build (s : State) : (s.resetRegs).build = s.build := rfl
@[simp] theorem State.resetRegs_irqen (s : State) : (s.resetRegs).irqen = false := rfl
@[simp] theorem State.resetRegs_zmode (s : State) : (s.resetRegs).zmode = .fixed := rfl
@[simp] theorem State.resetRegs_done (s : State) : (s.resetRegs).done = false := rfl
@[simp] theorem State.resetRegs_err (s : State) : (s.resetRegs).err = false := rfl
@[simp] theorem State.resetRegs_ovr (s : State) : (s.resetRegs).ovr = false := rfl
@[simp] theorem State.resetRegs_copen (s : State) : (s.resetRegs).copen = false := rfl
@[simp] theorem State.resetRegs_zopen (s : State) : (s.resetRegs).zopen = false := rfl
@[simp] theorem State.resetRegs_errcode (s : State) : (s.resetRegs).errcode = none := rfl
@[simp] theorem State.resetRegs_cmd (s : State) : (s.resetRegs).cmd = 0 := rfl
@[simp] theorem State.resetRegs_width (s : State) : (s.resetRegs).width = 0 := rfl
@[simp] theorem State.resetRegs_height (s : State) : (s.resetRegs).height = 0 := rfl
@[simp] theorem State.resetRegs_color (s : State) : (s.resetRegs).color = 0 := rfl
@[simp] theorem State.resetRegs_data (s : State) : (s.resetRegs).data = 0 := rfl
@[simp] theorem State.resetRegs_crc (s : State) : (s.resetRegs).crc = 0xFFFFFFFF#32 := rfl
@[simp] theorem State.resetRegs_adler (s : State) : (s.resetRegs).adler = 0x00000001#32 := rfl
@[simp] theorem State.resetRegs_optr (s : State) : (s.resetRegs).optr = 0 := rfl
@[simp] theorem State.resetRegs_clen (s : State) : (s.resetRegs).clen = 0 := rfl
@[simp] theorem State.resetRegs_cstart (s : State) : (s.resetRegs).cstart = 0 := rfl
@[simp] theorem State.resetRegs_obuf (s : State) : (s.resetRegs).obuf = s.obuf := rfl
@[simp] theorem State.resetRegs_zin (s : State) : (s.resetRegs).zin = [] := rfl
@[simp] theorem State.resetRegs_pend (s : State) : (s.resetRegs).pend = none := rfl
@[simp] theorem State.resetRegs_rst (s : State) : (s.resetRegs).rst = s.rst := rfl
@[simp] theorem State.resetRegs_agenda (s : State) : (s.resetRegs).agenda = s.agenda := rfl
@[simp] theorem State.resetRegs_resp (s : State) : (s.resetRegs).resp = s.resp := rfl
@[simp] theorem State.resetRegs_draws (s : State) : (s.resetRegs).draws = s.draws := rfl

/-! ### Hardware reset (70_reset_and_hazards.md R142) -/

@[simp] theorem State.hardReset_build (s : State) : (s.hardReset).build = s.build := rfl
@[simp] theorem State.hardReset_irqen (s : State) : (s.hardReset).irqen = false := rfl
@[simp] theorem State.hardReset_zmode (s : State) : (s.hardReset).zmode = .fixed := rfl
@[simp] theorem State.hardReset_done (s : State) : (s.hardReset).done = false := rfl
@[simp] theorem State.hardReset_err (s : State) : (s.hardReset).err = false := rfl
@[simp] theorem State.hardReset_ovr (s : State) : (s.hardReset).ovr = false := rfl
@[simp] theorem State.hardReset_copen (s : State) : (s.hardReset).copen = false := rfl
@[simp] theorem State.hardReset_zopen (s : State) : (s.hardReset).zopen = false := rfl
@[simp] theorem State.hardReset_errcode (s : State) : (s.hardReset).errcode = none := rfl
@[simp] theorem State.hardReset_cmd (s : State) : (s.hardReset).cmd = 0 := rfl
@[simp] theorem State.hardReset_width (s : State) : (s.hardReset).width = 0 := rfl
@[simp] theorem State.hardReset_height (s : State) : (s.hardReset).height = 0 := rfl
@[simp] theorem State.hardReset_color (s : State) : (s.hardReset).color = 0 := rfl
@[simp] theorem State.hardReset_data (s : State) : (s.hardReset).data = 0 := rfl
@[simp] theorem State.hardReset_crc (s : State) : (s.hardReset).crc = 0xFFFFFFFF#32 := rfl
@[simp] theorem State.hardReset_adler (s : State) : (s.hardReset).adler = 0x00000001#32 := rfl
@[simp] theorem State.hardReset_optr (s : State) : (s.hardReset).optr = 0 := rfl
@[simp] theorem State.hardReset_clen (s : State) : (s.hardReset).clen = 0 := rfl
@[simp] theorem State.hardReset_cstart (s : State) : (s.hardReset).cstart = 0 := rfl
@[simp] theorem State.hardReset_obuf (s : State) : (s.hardReset).obuf = s.obuf.forget 0 s.build.obufSize (s.draws + 1) := rfl
@[simp] theorem State.hardReset_zin (s : State) : (s.hardReset).zin = [] := rfl
@[simp] theorem State.hardReset_pend (s : State) : (s.hardReset).pend = none := rfl
@[simp] theorem State.hardReset_rst (s : State) : (s.hardReset).rst = s.rst := rfl
@[simp] theorem State.hardReset_agenda (s : State) : (s.hardReset).agenda = s.agenda := rfl
@[simp] theorem State.hardReset_resp (s : State) : (s.hardReset).resp = s.resp := rfl
@[simp] theorem State.hardReset_draws (s : State) : (s.hardReset).draws = s.draws + 1 := rfl

/-! ### Bytes into the compressor (42_deflate.md R104, R105) -/

@[simp] theorem State.feed_build (s : State) (bs : List Byte) : (s.feed bs).build = s.build := rfl
@[simp] theorem State.feed_irqen (s : State) (bs : List Byte) : (s.feed bs).irqen = s.irqen := rfl
@[simp] theorem State.feed_zmode (s : State) (bs : List Byte) : (s.feed bs).zmode = s.zmode := rfl
@[simp] theorem State.feed_done (s : State) (bs : List Byte) : (s.feed bs).done = s.done := rfl
@[simp] theorem State.feed_err (s : State) (bs : List Byte) : (s.feed bs).err = s.err := rfl
@[simp] theorem State.feed_ovr (s : State) (bs : List Byte) : (s.feed bs).ovr = s.ovr := rfl
@[simp] theorem State.feed_copen (s : State) (bs : List Byte) : (s.feed bs).copen = s.copen := rfl
@[simp] theorem State.feed_zopen (s : State) (bs : List Byte) : (s.feed bs).zopen = s.zopen := rfl
@[simp] theorem State.feed_errcode (s : State) (bs : List Byte) : (s.feed bs).errcode = s.errcode := rfl
@[simp] theorem State.feed_cmd (s : State) (bs : List Byte) : (s.feed bs).cmd = s.cmd := rfl
@[simp] theorem State.feed_width (s : State) (bs : List Byte) : (s.feed bs).width = s.width := rfl
@[simp] theorem State.feed_height (s : State) (bs : List Byte) : (s.feed bs).height = s.height := rfl
@[simp] theorem State.feed_color (s : State) (bs : List Byte) : (s.feed bs).color = s.color := rfl
@[simp] theorem State.feed_data (s : State) (bs : List Byte) : (s.feed bs).data = s.data := rfl
@[simp] theorem State.feed_crc (s : State) (bs : List Byte) : (s.feed bs).crc = s.crc := rfl
@[simp] theorem State.feed_adler (s : State) (bs : List Byte) : (s.feed bs).adler = adlerSeq s.adler bs := rfl
@[simp] theorem State.feed_optr (s : State) (bs : List Byte) : (s.feed bs).optr = s.optr := rfl
@[simp] theorem State.feed_clen (s : State) (bs : List Byte) : (s.feed bs).clen = s.clen := rfl
@[simp] theorem State.feed_cstart (s : State) (bs : List Byte) : (s.feed bs).cstart = s.cstart := rfl
@[simp] theorem State.feed_obuf (s : State) (bs : List Byte) : (s.feed bs).obuf = s.obuf := rfl
@[simp] theorem State.feed_zin (s : State) (bs : List Byte) : (s.feed bs).zin = s.zin ++ bs := rfl
@[simp] theorem State.feed_pend (s : State) (bs : List Byte) : (s.feed bs).pend = s.pend := rfl
@[simp] theorem State.feed_rst (s : State) (bs : List Byte) : (s.feed bs).rst = s.rst := rfl
@[simp] theorem State.feed_agenda (s : State) (bs : List Byte) : (s.feed bs).agenda = s.agenda := rfl
@[simp] theorem State.feed_resp (s : State) (bs : List Byte) : (s.feed bs).resp = s.resp := rfl
@[simp] theorem State.feed_draws (s : State) (bs : List Byte) : (s.feed bs).draws = s.draws := rfl

/-! ### ADLER <- a (40_png_encoder.md R83) -/

@[simp] theorem State.withAdler_build (s : State) (a : Word) : (s.withAdler a).build = s.build := rfl
@[simp] theorem State.withAdler_irqen (s : State) (a : Word) : (s.withAdler a).irqen = s.irqen := rfl
@[simp] theorem State.withAdler_zmode (s : State) (a : Word) : (s.withAdler a).zmode = s.zmode := rfl
@[simp] theorem State.withAdler_done (s : State) (a : Word) : (s.withAdler a).done = s.done := rfl
@[simp] theorem State.withAdler_err (s : State) (a : Word) : (s.withAdler a).err = s.err := rfl
@[simp] theorem State.withAdler_ovr (s : State) (a : Word) : (s.withAdler a).ovr = s.ovr := rfl
@[simp] theorem State.withAdler_copen (s : State) (a : Word) : (s.withAdler a).copen = s.copen := rfl
@[simp] theorem State.withAdler_zopen (s : State) (a : Word) : (s.withAdler a).zopen = s.zopen := rfl
@[simp] theorem State.withAdler_errcode (s : State) (a : Word) : (s.withAdler a).errcode = s.errcode := rfl
@[simp] theorem State.withAdler_cmd (s : State) (a : Word) : (s.withAdler a).cmd = s.cmd := rfl
@[simp] theorem State.withAdler_width (s : State) (a : Word) : (s.withAdler a).width = s.width := rfl
@[simp] theorem State.withAdler_height (s : State) (a : Word) : (s.withAdler a).height = s.height := rfl
@[simp] theorem State.withAdler_color (s : State) (a : Word) : (s.withAdler a).color = s.color := rfl
@[simp] theorem State.withAdler_data (s : State) (a : Word) : (s.withAdler a).data = s.data := rfl
@[simp] theorem State.withAdler_crc (s : State) (a : Word) : (s.withAdler a).crc = s.crc := rfl
@[simp] theorem State.withAdler_adler (s : State) (a : Word) : (s.withAdler a).adler = a := rfl
@[simp] theorem State.withAdler_optr (s : State) (a : Word) : (s.withAdler a).optr = s.optr := rfl
@[simp] theorem State.withAdler_clen (s : State) (a : Word) : (s.withAdler a).clen = s.clen := rfl
@[simp] theorem State.withAdler_cstart (s : State) (a : Word) : (s.withAdler a).cstart = s.cstart := rfl
@[simp] theorem State.withAdler_obuf (s : State) (a : Word) : (s.withAdler a).obuf = s.obuf := rfl
@[simp] theorem State.withAdler_zin (s : State) (a : Word) : (s.withAdler a).zin = s.zin := rfl
@[simp] theorem State.withAdler_pend (s : State) (a : Word) : (s.withAdler a).pend = s.pend := rfl
@[simp] theorem State.withAdler_rst (s : State) (a : Word) : (s.withAdler a).rst = s.rst := rfl
@[simp] theorem State.withAdler_agenda (s : State) (a : Word) : (s.withAdler a).agenda = s.agenda := rfl
@[simp] theorem State.withAdler_resp (s : State) (a : Word) : (s.withAdler a).resp = s.resp := rfl
@[simp] theorem State.withAdler_draws (s : State) (a : Word) : (s.withAdler a).draws = s.draws := rfl

end Sys2Proof.Machine
end

