-- ==== Sys2Proof/Laws/Emit.lean ====
section
/-! SUPPORT. What put, its sequences and the chunk helpers do, once: in closed form when the bytes fit, OFLOW otherwise
(41_chunk_serializer.md R87, R91, R92, 60_exceptions.md R127). -/

namespace Sys2Proof.Machine

/-- The state after the bytes `bs` were emitted and all fitted (R87). -/
def State.emitted (s : State) (bs : List Byte) : State :=
  { s with
    obuf := s.obuf.writeSeq s.optr.toNat bs
    optr := s.optr + BitVec.ofNat 32 bs.length
    crc := if s.copen then crcSeq s.crc bs else s.crc
    clen := if s.copen then s.clen + BitVec.ofNat 32 bs.length else s.clen }

/-- No OBUF is as large as the range of OPTR (00_scope.md R5). -/
theorem obufSize_lt (b : Build) : b.obufSize < 2 ^ 32 := by
  have := b.obuf_range
  omega

@[simp] theorem emitted_build (s : State) (bs : List Byte) : (s.emitted bs).build = s.build := rfl

theorem emitted_nil (s : State) : s.emitted [] = s := by
  cases s
  simp [State.emitted, Memory.writeSeq, crcSeq]

theorem put_fits {b : Byte} {s : State} (h : s.optr.toNat < s.build.obufSize) : put b s = .ok (s.emitted [b]) := by
  unfold put
  rw [if_neg (by omega)]
  by_cases hc : s.copen = true <;> simp [State.emitted, hc, Memory.writeSeq, crcSeq]

theorem put_full {b : Byte} {s : State} (h : s.build.obufSize ≤ s.optr.toNat) : put b s = raise .oflow := by
  unfold put
  rw [if_pos h]

theorem optr_add {p : Word} {k : Nat} (h : p.toNat + k < 2 ^ 32) : (p + BitVec.ofNat 32 k).toNat = p.toNat + k := by
  rw [BitVec.toNat_add, BitVec.toNat_ofNat]
  omega

theorem emitted_optr {s : State} {bs : List Byte} (h : s.optr.toNat + bs.length ≤ s.build.obufSize) :
    (s.emitted bs).optr.toNat = s.optr.toNat + bs.length :=
  optr_add (by have := obufSize_lt s.build; omega)

theorem crcSeq_append (bs cs : List Byte) : ∀ c : Word, crcSeq c (bs ++ cs) = crcSeq (crcSeq c bs) cs := by
  induction bs with
  | nil => intro c; rfl
  | cons b bs ih => intro c; exact ih (crcUpd8 c b)

theorem adlerSeq_append (bs cs : List Byte) : ∀ a : Word, adlerSeq a (bs ++ cs) = adlerSeq (adlerSeq a bs) cs := by
  induction bs with
  | nil => intro a; rfl
  | cons b bs ih => intro a; exact ih (adlerUpd8 a b)

/-- Emitting one sequence and then another is emitting both. -/
theorem emitted_append {s : State} {bs cs : List Byte} (h : s.optr.toNat + bs.length ≤ s.build.obufSize) :
    (s.emitted bs).emitted cs = s.emitted (bs ++ cs) := by
  have hp := emitted_optr h
  simp only [State.emitted] at hp ⊢
  rw [hp, Memory.writeSeq_append]
  by_cases hc : s.copen = true <;> simp [hc, crcSeq_append, BitVec.add_assoc, BitVec.ofNat_add]

/-- A sequence that fits is emitted whole (R127). -/
theorem putAll_fits (bs : List Byte) : ∀ {s : State}, s.optr.toNat + bs.length ≤ s.build.obufSize →
    putAll bs s = .ok (s.emitted bs) := by
  induction bs with
  | nil => intro s _; rw [emitted_nil]; rfl
  | cons b bs ih =>
    intro s h
    simp only [List.length_cons] at h
    rw [putAll, put_fits (by omega)]
    have hp : (s.emitted [b]).optr.toNat = s.optr.toNat + 1 := emitted_optr (by simp; omega)
    simp only [Except.bind]
    rw [ih (by rw [emitted_build]; omega), emitted_append (by simp; omega)]
    rfl

/-- A sequence that does not fit raises OFLOW (R127). -/
theorem putAll_overflows (bs : List Byte) : ∀ {s : State}, bs ≠ [] → s.build.obufSize < s.optr.toNat + bs.length →
    putAll bs s = raise .oflow := by
  induction bs with
  | nil => intro s h _; exact absurd rfl h
  | cons b bs ih =>
    intro s _ h
    simp only [List.length_cons] at h
    rw [putAll]
    by_cases hs : s.optr.toNat < s.build.obufSize
    · rw [put_fits hs]
      have hp : (s.emitted [b]).optr.toNat = s.optr.toNat + 1 := emitted_optr (by simp; omega)
      simp only [Except.bind]
      refine ih ?_ (by rw [emitted_build]; omega)
      rintro rfl
      simp at h
      omega
    · rw [put_full (by omega)]
      rfl

/-- All that a sequence of puts can do. -/
theorem putAll_cases (bs : List Byte) (s : State) :
    putAll bs s = .ok (s.emitted bs) ∨ putAll bs s = raise .oflow := by
  by_cases h : s.optr.toNat + bs.length ≤ s.build.obufSize
  · exact .inl (putAll_fits bs h)
  · by_cases hb : bs = []
    · subst hb
      exact .inl (by rw [emitted_nil]; rfl)
    · exact .inr (putAll_overflows bs hb (by omega))

/-- What a successful sequence of puts leaves. -/
theorem putAll_ok {bs : List Byte} {s t : State} (h : putAll bs s = .ok t) :
    t = s.emitted bs ∧ (bs = [] ∨ s.optr.toNat + bs.length ≤ s.build.obufSize) := by
  rcases putAll_cases bs s with h1 | h1
  · rw [h1] at h
    refine ⟨(Except.ok.inj h).symm, ?_⟩
    by_cases hb : bs = []
    · exact .inl hb
    · refine .inr ?_
      by_contra hlt
      rw [putAll_overflows bs hb (by omega)] at h1
      exact absurd h1 (by simp [raise])
  · rw [h1] at h
    exact absurd h (by simp [raise])

/-! ### The chunk helpers -/

/-- The state after chunk_begin(t) when its bytes fit (R91). -/
def State.chunkOpened (s : State) (t : List Byte) : State :=
  { s.emitted ([0, 0, 0, 0] ++ t) with cstart := s.optr, crc := crcSeq 0xFFFFFFFF#32 t, clen := 0, copen := true }

@[simp] theorem chunkOpened_build (s : State) (t : List Byte) : (s.chunkOpened t).build = s.build := rfl

theorem chunkBegin_fits {t : List Byte} {s : State} (h : s.optr.toNat + (4 + t.length) ≤ s.build.obufSize) :
    chunkBegin t s = .ok (s.chunkOpened t) := by
  unfold chunkBegin
  rw [putAll_fits _ (by simpa [Nat.add_comm 4] using h)]
  rfl

theorem chunkBegin_overflows {t : List Byte} {s : State} (h : s.build.obufSize < s.optr.toNat + (4 + t.length)) :
    chunkBegin t s = raise .oflow := by
  unfold chunkBegin
  rw [putAll_overflows _ (by simp) (by simpa [Nat.add_comm 4] using h)]
  rfl

/-- The state after chunk_end() when its bytes fit and the patch is in range (R92). -/
def State.chunkClosed (s : State) : State :=
  { ({ s with copen := false } : State).emitted (be32 (crcFinal s.crc)) with
    obuf := (s.obuf.writeSeq s.optr.toNat (be32 (crcFinal s.crc))).writeSeq s.cstart.toNat (be32 s.clen) }

@[simp] theorem chunkClosed_build (s : State) : s.chunkClosed.build = s.build := rfl

theorem be32_length (v : Word) : (be32 v).length = 4 := rfl

theorem chunkEnd_fits {s : State} (h : s.optr.toNat + 4 ≤ s.build.obufSize)
    (hc : s.cstart.toNat + 3 < s.build.obufSize) : chunkEnd s = .ok s.chunkClosed := by
  unfold chunkEnd
  rw [putAll_fits _ (by simpa [be32_length] using h)]
  simp only [Except.bind, patchLength]
  rw [if_pos (by simpa [State.emitted] using hc)]
  rfl

theorem chunkEnd_overflows {s : State} (h : s.build.obufSize < s.optr.toNat + 4) : chunkEnd s = raise .oflow := by
  unfold chunkEnd
  rw [putAll_overflows _ (by simp [be32]) (by simpa [be32_length] using h)]
  rfl

theorem chunkEnd_outside {s : State} (h : s.optr.toNat + 4 ≤ s.build.obufSize)
    (hc : s.build.obufSize ≤ s.cstart.toNat + 3) : chunkEnd s = .error (.fault .patchOutsideObuf) := by
  unfold chunkEnd
  rw [putAll_fits _ (by simpa [be32_length] using h)]
  simp only [Except.bind, patchLength]
  rw [if_neg (by simpa [State.emitted] using hc)]

end Sys2Proof.Machine
end

