-- ==== Sys2Proof/Laws/Exec.lean ====
section
/-! SUPPORT. Every command as one shape, the pseudocode and then the completion, and the pseudocode of the composite commands
in closed form. -/

namespace Sys2Proof.Machine

/-- The pseudocode of a command (00_scope.md R13). -/
def bodyOf : Instr → State → Run
  | .nop, s => .ok s
  | .crcInit, s => .ok { s with crc := 0xFFFFFFFF#32 }
  | .crcByte imm, s => .ok { s with crc := crcUpd8 s.crc imm }
  | .crcWord, s => .ok { s with crc := crcSeq s.crc s.dataBytes }
  | .adlerInit, s => .ok { s with adler := 0x00000001#32 }
  | .adlerByte imm, s => .ok { s with adler := adlerUpd8 s.adler imm }
  | .adlerWord, s => .ok { s with adler := adlerSeq s.adler s.dataBytes }
  | .putByte imm, s => put imm s
  | .putWord, s => putAll s.dataBytes s
  | .chunkBegin, s => require s.nothingOpen .seq fun _ => chunkBegin s.dataBytes s
  | .chunkEnd, s => require (s.copen && !s.zopen) .seq fun _ => chunkEnd s
  | .zBegin, s => require (!s.zopen) .seq fun _ => .ok { s with zin := [], adler := 0x00000001#32, zopen := true }
  | .zByte imm, s => feedStream [imm] s
  | .zWord, s => feedStream s.dataBytes s
  | .zEnd, s => require s.zopen .seq fun _ =>
      (putAll (zlibStream s.zmode s.zin s.adler) { s with zopen := false }).map fun t => { t with zin := [] }
  | .emitSig, s => sigBody s
  | .emitIhdr, s => ihdrBody s
  | .emitIdat, s => idatBody s
  | .emitIend, s => iendBody s
  | .encode, s => encodeBody s

/-- A command runs its pseudocode and completes (20_memory.md R63). -/
theorem exec_eq_finish (i : Instr) (s : State) : exec i s = finish s (startOf i s) (bodyOf i s) := by
  cases i <;> rfl

@[simp] theorem finish_ok (s : State) (start : Nat) (t : State) : finish s start (.ok t) = .next t.completeOk := rfl
@[simp] theorem finish_raise (s : State) (start : Nat) (e : CmdError) :
    finish s start (raise e) = .next (s.completeError start e) := rfl
@[simp] theorem finish_fault (s : State) (start : Nat) (f : Fault) :
    finish s start (.error (.fault f)) = .fault f := rfl

/-- All that the end of an engine step can be. -/
theorem finish_next {s t : State} {start : Nat} {r : Run} (h : finish s start r = .next t) :
    (∃ u, r = .ok u ∧ t = u.completeOk) ∨ ∃ e, r = raise e ∧ t = s.completeError start e := by
  rcases r with (⟨e⟩ | ⟨f⟩) | u
  · exact .inr ⟨e, rfl, by simpa [finish] using h.symm⟩
  · simp [finish] at h
  · exact .inl ⟨u, rfl, by simpa [finish] using h.symm⟩

@[simp] theorem require_true (e : CmdError) (r : Unit → Run) : require true e r = r () := rfl
@[simp] theorem require_false (e : CmdError) (r : Unit → Run) : require false e r = raise e := rfl

/-- A check passes or raises. -/
theorem require_cases (c : Bool) (e : CmdError) (r : Unit → Run) :
    (c = true ∧ require c e r = r ()) ∨ (c = false ∧ require c e r = raise e) := by
  cases c
  · exact .inr ⟨rfl, rfl⟩
  · exact .inl ⟨rfl, rfl⟩

theorem require_ok {c : Bool} {e : CmdError} {r : Unit → Run} {t : State} (h : require c e r = .ok t) :
    c = true ∧ r () = .ok t := by
  cases c
  · simp [raise] at h
  · exact ⟨rfl, h⟩

theorem bind_ok {r : Run} {f : State → Run} {t : State} (h : r.bind f = .ok t) : ∃ u, r = .ok u ∧ f u = .ok t := by
  cases r with
  | error e => simp [Except.bind] at h
  | ok u => exact ⟨u, rfl, h⟩

theorem map_ok {r : Run} {f : State → State} {t : State} (h : r.map f = .ok t) : ∃ u, r = .ok u ∧ t = f u := by
  cases r with
  | error e => simp [Except.map] at h
  | ok u => exact ⟨u, rfl, by simpa [Except.map] using h.symm⟩

/-! ### The composite commands -/

/-- The state after a whole chunk of type `t` with payload `p` was emitted (R82 to R84). -/
def State.wroteChunk (s : State) (t p : List Byte) : State := ((s.chunkOpened t).emitted p).chunkClosed

theorem wholeChunk_eq {t p : List Byte} {s : State} (h : s.optr.toNat + (8 + t.length + p.length) ≤ s.build.obufSize) :
    wholeChunk t p s = .ok (s.wroteChunk t p) := by
  have hlt := obufSize_lt s.build
  have h1 : (s.chunkOpened t).optr.toNat = s.optr.toNat + (4 + t.length) := by
    have := emitted_optr (s := s) (bs := [0, 0, 0, 0] ++ t) (by simp; omega)
    simp only [List.length_append, List.length_cons, List.length_nil] at this
    simpa [State.chunkOpened] using this
  have h2 : ((s.chunkOpened t).emitted p).optr.toNat = s.optr.toNat + (4 + t.length) + p.length := by
    rw [emitted_optr (by rw [chunkOpened_build]; omega), h1]
  unfold wholeChunk
  rw [chunkBegin_fits (by omega)]
  simp only [Except.bind]
  rw [putAll_fits p (by rw [chunkOpened_build]; omega)]
  simp only
  rw [chunkEnd_fits (by rw [emitted_build, chunkOpened_build]; omega)]
  · rfl
  · simp only [State.emitted, State.chunkOpened]
    omega

theorem wholeChunk_overflows {t p : List Byte} {s : State}
    (h : s.build.obufSize < s.optr.toNat + (8 + t.length + p.length)) : wholeChunk t p s = raise .oflow := by
  have hlt := obufSize_lt s.build
  unfold wholeChunk
  by_cases hb : s.optr.toNat + (4 + t.length) ≤ s.build.obufSize
  · have h1 : (s.chunkOpened t).optr.toNat = s.optr.toNat + (4 + t.length) := by
      have := emitted_optr (s := s) (bs := [0, 0, 0, 0] ++ t) (by simp; omega)
      simp only [List.length_append, List.length_cons, List.length_nil] at this
      simpa [State.chunkOpened] using this
    rw [chunkBegin_fits hb]
    simp only [Except.bind]
    by_cases hp : s.optr.toNat + (4 + t.length) + p.length ≤ s.build.obufSize
    · have h2 : ((s.chunkOpened t).emitted p).optr.toNat = s.optr.toNat + (4 + t.length) + p.length := by
        rw [emitted_optr (by rw [chunkOpened_build]; omega), h1]
      rw [putAll_fits p (by rw [chunkOpened_build]; omega)]
      simp only
      exact chunkEnd_overflows (by rw [emitted_build, chunkOpened_build]; omega)
    · have hne : p ≠ [] := by
        rintro rfl
        simp at hp
        omega
      rw [putAll_overflows p hne (by rw [chunkOpened_build]; omega)]
      rfl
  · rw [chunkBegin_overflows (by omega)]
    rfl

theorem put_withAdler (b : Byte) (s : State) (a : Word) :
    put b (s.withAdler a) = (put b s).map fun v => v.withAdler a := by
  unfold put
  by_cases h : s.build.obufSize ≤ s.optr.toNat
  · rw [if_pos (by exact h), if_pos h]
    rfl
  · rw [if_neg (by exact h), if_neg h]
    cases hc : s.copen <;> simp [State.withAdler, Except.map, hc]

theorem putAll_withAdler (bs : List Byte) : ∀ (s : State) (a : Word),
    putAll bs (s.withAdler a) = (putAll bs s).map fun v => v.withAdler a := by
  induction bs with
  | nil => intro s a; rfl
  | cons b bs ih =>
    intro s a
    rw [putAll, putAll, put_withAdler]
    cases put b s with
    | error e => rfl
    | ok v => exact ih v a

theorem chunkBegin_withAdler (t : List Byte) (s : State) (a : Word) :
    chunkBegin t (s.withAdler a) = (chunkBegin t s).map fun v => v.withAdler a := by
  unfold chunkBegin
  rw [putAll_withAdler]
  cases putAll ([0, 0, 0, 0] ++ t) s <;> rfl

/-- EMIT_IDAT's pseudocode is a whole chunk emitted with ADLER already set: no put reads or writes ADLER (R87). -/
theorem idatBody_eq (s : State) : idatBody s =
    require s.nothingOpen .seq fun _ => require s.dimsOk .param fun _ =>
      wholeChunk typeIdat (imageStream s) (s.withAdler (adlerSeq 0x00000001#32 s.raw)) := by
  unfold idatBody wholeChunk
  rw [chunkBegin_withAdler]
  cases chunkBegin typeIdat s <;> rfl

end Sys2Proof.Machine
end

