-- ==== Sys2Proof/Laws/Chunk.lean ====
section
/-! SUPPORT. What a whole chunk leaves: its closed form, and its bytes as the chunk layout gives them
(41_chunk_serializer.md R88, 40_png_encoder.md R82 to R84). -/

namespace Sys2Proof.Machine

theorem nothingOpen_iff {s : State} : s.nothingOpen = true ↔ s.copen = false ∧ s.zopen = false := by
  simp [State.nothingOpen]

theorem dimsOk_iff {s : State} : s.dimsOk = true ↔ dimsInRange s := by
  simp [State.dimsOk, dimOk, dimsInRange]
  tauto

theorem add_ofNat (p : Word) (k : Nat) : p + BitVec.ofNat 32 k = BitVec.ofNat 32 (p.toNat + k) := by
  apply BitVec.eq_of_toNat_eq
  simp [BitVec.toNat_add]

/-- A written sequence is written. -/
theorem bytesWritten_writeSeq (m : Memory) (a : Nat) (bs : List Byte) : BytesWritten m (m.writeSeq a bs) a bs := by
  intro x
  rw [Memory.read_writeSeq]
  by_cases h1 : a ≤ x
  · by_cases h2 : x < a + bs.length
    · simp [h1, h2, show x - a < bs.length by omega]
    · simp only [h1, h2, if_true, and_false, if_false]
      rw [List.getElem?_eq_none (by omega)]; rfl
  · simp [h1]

/-- Overwriting the head of a written sequence: what the length patch does to the placeholder (R92). -/
theorem bytesWritten_patch {m : Memory} {a : Nat} {h t l : List Byte} (hl : l.length = h.length) :
    BytesWritten m ((m.writeSeq a (h ++ t)).writeSeq a l) a (l ++ t) := by
  intro x
  rw [Memory.read_writeSeq, Memory.read_writeSeq]
  by_cases h1 : a ≤ x
  · simp only [h1, if_true, true_and, List.length_append]
    by_cases h2 : x - a < l.length
    · have : x < a + (l.length + t.length) := by omega
      simp [h2, this, List.getElem?_append_left]
    · rw [List.getElem?_eq_none (by omega)]
      simp only [Option.getD_none]
      rw [List.getElem?_append_right (by omega)]
      by_cases h3 : x < a + (l.length + t.length)
      · have h4 : x - a - h.length < t.length := by omega
        have h4' : x - a - l.length < t.length := by omega
        simp only [h3, if_true]
        rw [List.getD_append_right _ _ _ _ (by omega), hl]
        simp [h4]
      · simp only [h3, if_false]
        rw [List.getElem?_eq_none (by omega)]; rfl
  · simp [h1]

/-- The state after a whole chunk, with no chunk open before (R82 to R84). -/
theorem wroteChunk_eq {s : State} {t p : List Byte} (hc : s.copen = false) (h : s.optr.toNat + (8 + t.length + p.length) ≤ s.build.obufSize) :
   s.wroteChunk t p = { s with
      obuf := (s.obuf.writeSeq s.optr.toNat ([0,0,0,0] ++ (t ++ p ++ be32 (crcFinal (crcSeq 0xFFFFFFFF#32 (t ++ p)))))).writeSeq s.optr.toNat (be32 (BitVec.ofNat 32 p.length))
      optr := s.optr + BitVec.ofNat 32 (8 + t.length + p.length)
      cstart := s.optr, clen := BitVec.ofNat 32 p.length, crc := crcSeq 0xFFFFFFFF#32 (t ++ p) } := by
  have hlt := obufSize_lt s.build
  have e1 : (s.optr + BitVec.ofNat 32 (4 + t.length)).toNat = s.optr.toNat + (4 + t.length) := optr_add (by omega)
  have e2 : (s.optr + BitVec.ofNat 32 (4 + t.length + p.length)).toNat = s.optr.toNat + (4 + t.length + p.length) := optr_add (by omega)
  have e3 : (s.optr + BitVec.ofNat 32 (4 + t.length) + BitVec.ofNat 32 p.length) = s.optr + BitVec.ofNat 32 (4 + t.length + p.length) := by
    rw [BitVec.add_assoc, ← BitVec.ofNat_add]
  simp only [State.wroteChunk, State.chunkClosed, State.emitted, State.chunkOpened, hc, if_true, if_false, Bool.false_eq_true,
    List.length_append, List.length_cons, List.length_nil]
  simp only [show 0 + 1 + 1 + 1 + 1 = 4 from rfl, e3, e1, e2, be32_length]
  congr 1
  · rw [← crcSeq_append]
  · rw [BitVec.add_assoc, ← BitVec.ofNat_add]; congr 2; omega
  · simp
  · rw [← crcSeq_append]
    congr 1
    · rw [← List.append_assoc, ← List.append_assoc, Memory.writeSeq_append _ (be32 _), Memory.writeSeq_append _ p]
      simp only [List.length_append, List.length_cons, List.length_nil]
    · simp

/-- The bytes of a whole chunk are the serialized chunk (R88). -/
theorem wroteChunk_bytes {s : State} {t p : List Byte} :
    BytesWritten s.obuf ((s.obuf.writeSeq s.optr.toNat ([0,0,0,0] ++ (t ++ p ++ be32 (crcFinal (crcSeq 0xFFFFFFFF#32 (t ++ p)))))).writeSeq s.optr.toNat (be32 (BitVec.ofNat 32 p.length))) s.optr.toNat (chunkBytes t p) := by
  have := bytesWritten_patch (m := s.obuf) (a := s.optr.toNat) (h := [0,0,0,0]) (t := t ++ p ++ be32 (crcFinal (crcSeq 0xFFFFFFFF#32 (t ++ p)))) (l := be32 (BitVec.ofNat 32 p.length)) rfl
  unfold chunkBytes
  simpa [List.append_assoc] using this

end Sys2Proof.Machine
end

