-- ==== Sys2Proof/Laws/Frame.lean ====
section
/-! SUPPORT. What the pseudocode of a command can change, said once for all commands. -/

namespace Sys2Proof.Machine

/-- What no command's pseudocode writes, and what it keeps true of OBUF, ZIN and an open chunk. -/
structure BodyFrame (s t : State) : Prop where
  build : t.build = s.build
  irqen : t.irqen = s.irqen
  zmode : t.zmode = s.zmode
  done : t.done = s.done
  err : t.err = s.err
  ovr : t.ovr = s.ovr
  errcode : t.errcode = s.errcode
  cmd : t.cmd = s.cmd
  width : t.width = s.width
  height : t.height = s.height
  color : t.color = s.color
  data : t.data = s.data
  pend : t.pend = s.pend
  rst : t.rst = s.rst
  agenda : t.agenda = s.agenda
  resp : t.resp = s.resp
  draws : t.draws = s.draws
  obuf_wf : s.obuf.wf s.build.obufSize = true → t.obuf.wf s.build.obufSize = true
  origins_old : (∀ o ∈ s.obuf.origins, o.draw ≤ s.draws) → ∀ o ∈ t.obuf.origins, o.draw ≤ s.draws
  zin_fits : s.zin.length ≤ s.build.zinMax → t.zin.length ≤ s.build.zinMax
  zin_closed : (s.zopen = false → s.zin = []) → t.zopen = false → t.zin = []
  chunk_fits : (s.copen = true → s.cstart.toNat + 8 ≤ s.build.obufSize) → t.copen = true →
    t.cstart.toNat + 8 ≤ s.build.obufSize

namespace BodyFrame

theorem refl (s : State) : BodyFrame s s := by constructor <;> first | rfl | exact id

theorem trans {s t u : State} (h : BodyFrame s t) (k : BodyFrame t u) : BodyFrame s u where
  build := k.build.trans h.build
  irqen := k.irqen.trans h.irqen
  zmode := k.zmode.trans h.zmode
  done := k.done.trans h.done
  err := k.err.trans h.err
  ovr := k.ovr.trans h.ovr
  errcode := k.errcode.trans h.errcode
  cmd := k.cmd.trans h.cmd
  width := k.width.trans h.width
  height := k.height.trans h.height
  color := k.color.trans h.color
  data := k.data.trans h.data
  pend := k.pend.trans h.pend
  rst := k.rst.trans h.rst
  agenda := k.agenda.trans h.agenda
  resp := k.resp.trans h.resp
  draws := k.draws.trans h.draws
  obuf_wf := fun w => h.build ▸ k.obuf_wf (h.build ▸ h.obuf_wf w)
  origins_old := fun w => h.draws ▸ k.origins_old (h.draws ▸ h.origins_old w)
  zin_fits := fun w => h.build ▸ k.zin_fits (h.build ▸ h.zin_fits w)
  zin_closed := fun w => k.zin_closed (h.zin_closed w)
  chunk_fits := fun w => h.build ▸ k.chunk_fits (h.build ▸ h.chunk_fits w)

end BodyFrame

theorem putAll_frame {bs : List Byte} {s t : State} (h : putAll bs s = .ok t) : BodyFrame s t := by
  obtain ⟨rfl, hf⟩ := putAll_ok h
  constructor <;> first | rfl | exact id | skip
  · intro hw
    rcases hf with rfl | hf
    · exact hw
    · exact Memory.wf_writeSeq _ hw hf
  · exact Memory.draws_writeSeq _

theorem put_frame {b : Byte} {s t : State} (h : put b s = .ok t) : BodyFrame s t :=
  putAll_frame (bs := [b]) (by simp [putAll, h, Except.bind])

theorem chunkBegin_frame {ty : List Byte} {s t : State} (hty : ty.length = 4) (h : chunkBegin ty s = .ok t) :
    BodyFrame s t := by
  obtain ⟨u, hu, rfl⟩ := map_ok h
  have hp := putAll_frame hu
  refine { hp with chunk_fits := fun _ _ => ?_ }
  obtain ⟨rfl, hf⟩ := putAll_ok hu
  rcases hf with hf | hf
  · simp at hf
  · simpa [hty] using hf

theorem patchLength_frame {s t : State} (h : patchLength s = .ok t) : BodyFrame s t := by
  unfold patchLength at h
  split_ifs at h with hc
  cases h
  constructor <;> first | rfl | exact id | skip
  · exact fun hw => Memory.wf_writeSeq _ hw (by rw [be32_length]; omega)
  · exact Memory.draws_writeSeq _

/-- Closing a chunk keeps the frame: with COPEN = 0 nothing is asked of CSTART. -/
theorem close_frame (s : State) : BodyFrame s { s with copen := false } := by
  constructor <;> first | rfl | exact id | simp

theorem chunkEnd_frame {s t : State} (h : chunkEnd s = .ok t) : BodyFrame s t := by
  obtain ⟨u, hu, hp⟩ := bind_ok h
  exact ((close_frame s).trans (putAll_frame hu)).trans (patchLength_frame hp)

theorem wholeChunk_frame {ty p : List Byte} {s t : State} (hty : ty.length = 4) (h : wholeChunk ty p s = .ok t) :
    BodyFrame s t := by
  obtain ⟨u, hu, hp⟩ := bind_ok h
  obtain ⟨v, hv, hq⟩ := bind_ok hu
  exact ((chunkBegin_frame hty hv).trans (putAll_frame hq)).trans (chunkEnd_frame hp)

theorem sigBody_frame {s t : State} (h : sigBody s = .ok t) : BodyFrame s t := putAll_frame (require_ok h).2

theorem ihdrBody_frame {s t : State} (h : ihdrBody s = .ok t) : BodyFrame s t :=
  wholeChunk_frame rfl (require_ok (require_ok h).2).2

theorem idatBody_frame {s t : State} (h : idatBody s = .ok t) : BodyFrame s t := by
  rw [idatBody_eq] at h
  have h1 : BodyFrame s (s.withAdler (adlerSeq 1#32 s.raw)) := by constructor <;> first | rfl | exact id
  exact h1.trans (wholeChunk_frame rfl (require_ok (require_ok h).2).2)

theorem iendBody_frame {s t : State} (h : iendBody s = .ok t) : BodyFrame s t := wholeChunk_frame rfl (require_ok h).2

theorem encodeBody_frame {s t : State} (h : encodeBody s = .ok t) : BodyFrame s t := by
  obtain ⟨u, hu, h4⟩ := bind_ok (require_ok (require_ok h).2).2
  obtain ⟨v, hv, h3⟩ := bind_ok hu
  obtain ⟨w, hw, h2⟩ := bind_ok hv
  have h1 : BodyFrame s { s with optr := 0 } := by constructor <;> first | rfl | exact id
  exact (((h1.trans (sigBody_frame hw)).trans (ihdrBody_frame h2)).trans (idatBody_frame h3)).trans (iendBody_frame h4)

/-- Every command's pseudocode keeps the frame. -/
theorem bodyOf_frame {i : Instr} {s t : State} (h : bodyOf i s = .ok t) : BodyFrame s t := by
  cases i <;> simp only [bodyOf] at h
  case putByte => exact put_frame h
  case putWord => exact putAll_frame h
  case chunkBegin => exact chunkBegin_frame rfl (require_ok h).2
  case chunkEnd => exact chunkEnd_frame (require_ok h).2
  case zBegin =>
    cases (require_ok h).2
    constructor <;> first | rfl | exact id | simp
  case zByte | zWord =>
    obtain ⟨hz, h⟩ := require_ok h
    obtain ⟨hl, h⟩ := require_ok h
    cases h
    constructor <;> first | rfl | exact id | (intro; simpa [State.feed] using hl) | simp [hz]
  case zEnd =>
    obtain ⟨u, hu, rfl⟩ := map_ok (require_ok h).2
    have hp := putAll_frame hu
    exact { hp with zin_fits := by simp, zin_closed := by simp }
  case emitSig => exact sigBody_frame h
  case emitIhdr => exact ihdrBody_frame h
  case emitIdat => exact idatBody_frame h
  case emitIend => exact iendBody_frame h
  case encode => exact encodeBody_frame h
  all_goals (cases h; constructor <;> first | rfl | exact id)

end Sys2Proof.Machine
end

