-- ==== Sys2Proof/Laws/PerInstr.lean ====
section
/-! SUPPORT. What holds of every command as syntax: its word passes the three checks of the opcode map and carries its OP value
and its byte operand in the fields of the format (30_encoding.md R68, R71). -/

namespace Sys2Proof.Laws

/-- The word of a command is well formed, and its fields are the command's (R68, R71). -/
def Fields.Statement (i : Instr) : Prop :=
  wordWellFormed (encode i) = true ∧ opField (encode i) = opcode i ∧ immField (encode i) = immOf i ∧
    mbzField (encode i) = 0

theorem Fields.nop : Fields.Statement .nop := by unfold Fields.Statement; decide
theorem Fields.crcInit : Fields.Statement .crcInit := by unfold Fields.Statement; decide
theorem Fields.crcByte (imm : Byte) : Fields.Statement (.crcByte imm) := by unfold Fields.Statement; revert imm; decide
theorem Fields.crcWord : Fields.Statement .crcWord := by unfold Fields.Statement; decide
theorem Fields.adlerInit : Fields.Statement .adlerInit := by unfold Fields.Statement; decide
theorem Fields.adlerByte (imm : Byte) : Fields.Statement (.adlerByte imm) := by unfold Fields.Statement; revert imm; decide
theorem Fields.adlerWord : Fields.Statement .adlerWord := by unfold Fields.Statement; decide
theorem Fields.putByte (imm : Byte) : Fields.Statement (.putByte imm) := by unfold Fields.Statement; revert imm; decide
theorem Fields.putWord : Fields.Statement .putWord := by unfold Fields.Statement; decide
theorem Fields.chunkBegin : Fields.Statement .chunkBegin := by unfold Fields.Statement; decide
theorem Fields.chunkEnd : Fields.Statement .chunkEnd := by unfold Fields.Statement; decide
theorem Fields.zBegin : Fields.Statement .zBegin := by unfold Fields.Statement; decide
theorem Fields.zByte (imm : Byte) : Fields.Statement (.zByte imm) := by unfold Fields.Statement; revert imm; decide
theorem Fields.zWord : Fields.Statement .zWord := by unfold Fields.Statement; decide
theorem Fields.zEnd : Fields.Statement .zEnd := by unfold Fields.Statement; decide
theorem Fields.emitSig : Fields.Statement .emitSig := by unfold Fields.Statement; decide
theorem Fields.emitIhdr : Fields.Statement .emitIhdr := by unfold Fields.Statement; decide
theorem Fields.emitIdat : Fields.Statement .emitIdat := by unfold Fields.Statement; decide
theorem Fields.emitIend : Fields.Statement .emitIend := by unfold Fields.Statement; decide
theorem Fields.encode : Fields.Statement .encode := by unfold Fields.Statement; decide

end Sys2Proof.Laws
end

