-- ==== Sys2Proof/Tests/Slice0.lean ====
section
/-! SUPPORT. Tests whose expected values are the spec's own (the examples of its rules and 95_test_vectors.md), and for every
obligation with hypotheses a witness: concrete states and operands that meet them together. -/

open Sys2Proof Sys2Proof.Machine

namespace Sys2Proof.Tests

/-! ### Decoding: one word per command, written out from 30_encoding.md R71 -/

theorem test_decode_nop : decode 0x00000000#32 = .ok .nop := by decide
theorem test_decode_crcInit : decode 0x00000001#32 = .ok .crcInit := by decide
theorem test_decode_crcByte : decode 0x00003102#32 = .ok (.crcByte 0x31) := by decide
theorem test_decode_crcWord : decode 0x00000003#32 = .ok .crcWord := by decide
theorem test_decode_adlerInit : decode 0x00000004#32 = .ok .adlerInit := by decide
theorem test_decode_adlerByte : decode 0x00006105#32 = .ok (.adlerByte 0x61) := by decide
theorem test_decode_adlerWord : decode 0x00000006#32 = .ok .adlerWord := by decide
theorem test_decode_putByte : decode 0x0000FF10#32 = .ok (.putByte 0xFF) := by decide
theorem test_decode_putWord : decode 0x00000011#32 = .ok .putWord := by decide
theorem test_decode_chunkBegin : decode 0x00000012#32 = .ok .chunkBegin := by decide
theorem test_decode_chunkEnd : decode 0x00000013#32 = .ok .chunkEnd := by decide
theorem test_decode_zBegin : decode 0x00000020#32 = .ok .zBegin := by decide
theorem test_decode_zByte : decode 0x00008021#32 = .ok (.zByte 0x80) := by decide
theorem test_decode_zWord : decode 0x00000022#32 = .ok .zWord := by decide
theorem test_decode_zEnd : decode 0x00000023#32 = .ok .zEnd := by decide
theorem test_decode_emitSig : decode 0x00000030#32 = .ok .emitSig := by decide
theorem test_decode_emitIhdr : decode 0x00000031#32 = .ok .emitIhdr := by decide
theorem test_decode_emitIdat : decode 0x00000032#32 = .ok .emitIdat := by decide
theorem test_decode_emitIend : decode 0x00000033#32 = .ok .emitIend := by decide
theorem test_decode_encode : decode 0x0000003F#32 = .ok .encode := by decide

/-! ### Ill-formed words, one per check (R71, R72), and the assembler's operand check (R75) -/

theorem test_reserved_op_refused :
    opKnown 0x00000007#32 = false ∧ decode 0x00000007#32 = .error .reservedOp := by decide
theorem test_mbz_refused :
    mbzClear 0x00010000#32 = false ∧ decode 0x00010000#32 = .error .mbzNotZero := by decide
theorem test_imm_in_n_form_refused :
    immAllowed 0x00000113#32 = false ∧ decode 0x00000113#32 = .error .immNotZero := by decide
theorem test_operand_256_refused : operandInRange 256 = false ∧ assembleByte 0x10 256 = none := by decide
theorem test_assemble : assembleByte 0x02 0x31 = some 0x00003102#32 := by decide
theorem test_table_word : decodeTableWord 32 0x00003102 = some (.crcByte 0x31) := by decide

/-! ### Helpers -/

/-- A next state with a property. -/
def after (o : Host.Outcome State Fault Refusal) (p : State → Bool) : Bool :=
  match o with
  | .next t => p t
  | _ => false

theorem after_next {o : Host.Outcome State Fault Refusal} {p : State → Bool} (h : after o p = true) :
    ∃ t, o = .next t := by
  cases o with
  | next t => exact ⟨t, rfl⟩
  | fault f => simp [after] at h
  | refused r => simp [after] at h

/-- The OBUF bytes of a state from an offset on. -/
def bytesAt (t : State) (a n : Nat) : List Byte := (List.range n).map fun k => t.obuf.read (a + k)

/-- A chunk open at offset 0, with its type put. -/
def chunkState : State := { State.reset with copen := true, optr := 8, obuf := State.reset.obuf.writeSeq 0 [0, 0, 0, 0] }

/-- A stream open. -/
def streamState : State := { State.reset with zopen := true }

/-- The image registers at 1 by 1, black. -/
def blackPixel : State := { State.reset with width := 1, height := 1 }

/-- A command pending. -/
def busyState (w : Word) : State := { State.reset with cmd := w, pend := some w }

/-- A state with what acts next. -/
def queued (s : State) (a : List Event) : State := { s with agenda := a }

/-! ### Commands, one step each -/

/-- 44_misc.md R119: STATUS = 0x00000204, `do NOP` gives 0x00000206. -/
theorem test_nop_keeps_error :
    after (exec .nop { busyState 0 with err := true, errcode := some .seq }) (fun t => t.statusWord == 0x00000206#32) = true := by
  decide
/-- 43_crc32.md R111. -/
theorem test_crcInit : after (exec .crcInit { State.reset with crc := 5 }) (fun t => t.crc == 0xFFFFFFFF#32) = true := by decide
/-- 43_crc32.md R112. -/
theorem test_crcByte : after (exec (.crcByte 0x31) State.reset) (fun t => t.crc == 0x7C231048#32) = true := by decide
theorem test_crcByte_80 :
    after (exec (.crcByte 0x80) { State.reset with crc := 0 }) (fun t => t.crc == 0xEDB88320#32) = true := by decide
/-- 43_crc32.md R113. -/
theorem test_crcWord :
    after (exec .crcWord { State.reset with data := 0x31323334#32 }) (fun t => t.crc == 0x641C1F5C#32) = true := by decide +kernel
/-- 43_crc32.md R115. -/
theorem test_adlerInit : after (exec .adlerInit { State.reset with adler := 9 }) (fun t => t.adler == 1#32) = true := by decide
/-- 43_crc32.md R116. -/
theorem test_adlerByte_wraps :
    after (exec (.adlerByte 0x01) { State.reset with adler := 0x0000FFF0#32 }) (fun t => t.adler == 0#32) = true := by decide
theorem test_adlerByte_reduces :
    after (exec (.adlerByte 0x00) { State.reset with adler := 0xFFFFFFFF#32 }) (fun t => t.adler == 0x001C000E#32) = true := by
  decide
/-- 43_crc32.md R117. -/
theorem test_adlerWord :
    after (exec .adlerWord { State.reset with data := 0x61626364#32 }) (fun t => t.adler == 0x03D8018B#32) = true := by decide +kernel
/-- 41_chunk_serializer.md R89. -/
theorem test_putByte :
    after (exec (.putByte 0x41) { State.reset with optr := 5 })
      (fun t => bytesAt t 5 1 == [0x41] && t.optr == 6#32 && t.crc == 0xFFFFFFFF#32 && t.clen == 0#32) = true := by decide
/-- 41_chunk_serializer.md R90, in an open chunk. -/
theorem test_putWord :
    after (exec .putWord { chunkState with data := 0x61006263#32 })
      (fun t => bytesAt t 8 4 == [0x61, 0x00, 0x62, 0x63] && t.clen == 4#32) = true := by decide
/-- 95_test_vectors.md 2.6: PUT_WORD at OBUF_SIZE - 1 fails with OFLOW and keeps OPTR. -/
theorem test_putWord_overflows :
    after (exec .putWord { State.reset with optr := 0x003FFFFF#32 })
      (fun t => t.statusWord == 0x00000504#32 && t.optr == 0x003FFFFF#32) = true := by decide
/-- 41_chunk_serializer.md R91. -/
theorem test_chunkBegin :
    after (exec .chunkBegin { State.reset with optr := 8, data := 0x49454E44#32 })
      (fun t => bytesAt t 8 8 == [0, 0, 0, 0, 0x49, 0x45, 0x4E, 0x44] && t.optr == 16#32 && t.cstart == 8#32 &&
        t.clen == 0#32 && t.crc == 0x51BD9F7D#32 && t.copen) = true := by decide +kernel
/-- 95_test_vectors.md 2.6: a second CHUNK_BEGIN fails with SEQ. -/
theorem test_chunkBegin_nested :
    after (exec .chunkBegin chunkState) (fun t => t.statusWord == 0x00000214#32 && t.optr == 8#32) = true := by decide
/-- 95_test_vectors.md 2.4: the end of the tEXt chunk, CRC state 48918016, CLEN 4. -/
theorem test_chunkEnd :
    after (exec .chunkEnd { chunkState with optr := 12, crc := 0x48918016#32, clen := 4 })
      (fun t => bytesAt t 12 4 == [0xB7, 0x6E, 0x7F, 0xE9] && bytesAt t 0 4 == [0, 0, 0, 4] && t.optr == 16#32 && !t.copen &&
        t.clen == 4#32) = true := by decide
/-- 95_test_vectors.md 2.6: no chunk open. -/
theorem test_chunkEnd_closed : after (exec .chunkEnd State.reset) (fun t => t.statusWord == 0x00000204#32) = true := by decide
/-- 42_deflate.md R103. -/
theorem test_zBegin :
    after (exec .zBegin { chunkState with adler := 7 }) (fun t => t.zopen && t.adler == 1#32 && t.zin == []) = true := by decide
/-- 42_deflate.md R104. -/
theorem test_zByte :
    after (exec (.zByte 0x61) streamState) (fun t => t.zin == [0x61] && t.adler == 0x00620062#32) = true := by decide
/-- 42_deflate.md R104: no stream open. -/
theorem test_zByte_closed : after (exec (.zByte 0x61) State.reset) (fun t => t.statusWord == 0x00000204#32) = true := by decide
/-- 42_deflate.md R105. -/
theorem test_zWord :
    after (exec .zWord streamState) (fun t => t.zin.length == 4 && t.adler == 0x00040001#32) = true := by decide
/-- 95_test_vectors.md 2.3: "abcabcabc" in ZMODE 1, an overlapping match. -/
theorem test_zEnd_fixed :
    after (exec .zEnd { streamState with zin := [97, 98, 99, 97, 98, 99, 97, 98, 99], adler := 0x113D0373#32 })
      (fun t => bytesAt t 0 12 ==
        [0x78, 0xDA, 0x4B, 0x4C, 0x4A, 0x86, 0x20, 0x00, 0x11, 0x3D, 0x03, 0x73] && t.optr == 12#32 && !t.zopen &&
        t.zin == []) = true := by decide +kernel
/-- 95_test_vectors.md 2.3: the empty stream in ZMODE 0. -/
theorem test_zEnd_stored :
    after (exec .zEnd { streamState with zmode := .stored })
      (fun t => bytesAt t 0 11 == [0x78, 0x01, 0x01, 0x00, 0x00, 0xFF, 0xFF, 0x00, 0x00, 0x00, 0x01] && t.optr == 11#32) = true := by
  decide +kernel
/-- 40_png_encoder.md R81. -/
theorem test_emitSig :
    after (exec .emitSig State.reset)
      (fun t => bytesAt t 0 8 == [0x89, 0x50, 0x4E, 0x47, 0x0D, 0x0A, 0x1A, 0x0A] && t.optr == 8#32) = true := by decide
/-- 40_png_encoder.md R82. -/
theorem test_emitIhdr :
    after (exec .emitIhdr { State.reset with width := 40, height := 40 })
      (fun t => bytesAt t 0 25 ==
        [0x00, 0x00, 0x00, 0x0D, 0x49, 0x48, 0x44, 0x52, 0x00, 0x00, 0x00, 0x28, 0x00, 0x00, 0x00, 0x28, 0x08, 0x02, 0x00,
         0x00, 0x00, 0x03, 0x9C, 0x2F, 0x3A] && t.clen == 13#32) = true := by decide +kernel
/-- 95_test_vectors.md 2.6: WIDTH = 0x80000000. -/
theorem test_emitIhdr_param :
    after (exec .emitIhdr { State.reset with width := 0x80000000#32, height := 1 }) (fun t => t.statusWord == 0x00000304#32) = true := by
  decide
/-- 40_png_encoder.md R83. -/
theorem test_emitIdat :
    after (exec .emitIdat blackPixel)
      (fun t => bytesAt t 0 22 ==
        [0x00, 0x00, 0x00, 0x0A, 0x49, 0x44, 0x41, 0x54, 0x78, 0xDA, 0x63, 0x00, 0x02, 0x00, 0x00, 0x04, 0x00, 0x01, 0x27,
         0xD4, 0x4F, 0xA0] && t.adler == 0x00040001#32 && t.crc == 0xD82BB05F#32) = true := by decide +kernel
/-- 95_test_vectors.md 2.5: the same in ZMODE 0. -/
theorem test_emitIdat_stored :
    after (exec .emitIdat { blackPixel with zmode := .stored })
      (fun t => bytesAt t 0 27 ==
        [0x00, 0x00, 0x00, 0x0F, 0x49, 0x44, 0x41, 0x54, 0x78, 0x01, 0x01, 0x04, 0x00, 0xFB, 0xFF, 0x00, 0x00, 0x00, 0x00,
         0x00, 0x04, 0x00, 0x01, 0x65, 0x49, 0xC3, 0x60]) = true := by decide +kernel
/-- 40_png_encoder.md R84. -/
theorem test_emitIend :
    after (exec .emitIend { State.reset with optr := 0x21 })
      (fun t => bytesAt t 0x21 12 == [0x00, 0x00, 0x00, 0x00, 0x49, 0x45, 0x4E, 0x44, 0xAE, 0x42, 0x60, 0x82] &&
        t.optr == 0x2D#32 && t.cstart == 0x21#32 && t.crc == 0x51BD9F7D#32) = true := by decide +kernel
/-- 95_test_vectors.md 3.5 and 2.6: 1 by 1, black, from OPTR = 0xFFFFFFFF. -/
theorem test_encode :
    after (exec .encode { blackPixel with optr := 0xFFFFFFFF#32 })
      (fun t => bytesAt t 0 8 == [0x89, 0x50, 0x4E, 0x47, 0x0D, 0x0A, 0x1A, 0x0A] &&
        bytesAt t 33 22 ==
          [0x00, 0x00, 0x00, 0x0A, 0x49, 0x44, 0x41, 0x54, 0x78, 0xDA, 0x63, 0x00, 0x02, 0x00, 0x00, 0x04, 0x00, 0x01, 0x27,
           0xD4, 0x4F, 0xA0] &&
        t.optr == 67#32 && t.cstart == 55#32 && t.crc == 0x51BD9F7D#32 && t.adler == 0x00040001#32) = true := by
  decide +kernel
/-- 95_test_vectors.md 3.7: with the smallest legal OBUF_SIZE, 64, the smallest document fails with OFLOW. -/
theorem test_encode_smallest_build :
    after (exec .encode { State.resetOf ⟨64, 4, by decide, by decide⟩ with width := 1, height := 1 })
      (fun t => t.statusWord == 0x00000504#32 && t.optr == 0#32) = true := by decide +kernel
/-- 95_test_vectors.md 2.6: SEQ comes before PARAM. -/
theorem test_encode_seq_first :
    after (exec .encode chunkState) (fun t => t.statusWord == 0x00000214#32) = true := by decide

/-! ### The step and the host -/

/-- 95_test_vectors.md 2.7: the parameters of this hardware. -/
theorem test_parameters :
    State.reset.readReg .obufsz = 0x00400000#32 ∧ State.reset.readReg .zinmax = 0x00010000#32 := by decide
/-- 70_reset_and_hazards.md R147: the reads of a document of six bytes, byte by byte, and by words and bytes. -/
theorem test_document_reads :
    documentBytes 6 = [rdb 0, rdb 1, rdb 2, rdb 3, rdb 4, rdb 5] ∧ documentWords 6 = [rdw 0, rdb 4, rdb 5] := ⟨rfl, rfl⟩


/-- 30_encoding.md R72: a reserved OP as the first command after reset. -/
theorem test_step_illegal :
    after (step (State.reset.withFetchWord 32 0x07)) (fun t => t.statusWord == 0x00000104#32) = true := by decide
/-- 43_crc32.md R112 as the first command after reset. -/
theorem test_step_first_command :
    after (step (State.reset.withFetchWord 32 0x00003102)) (fun t => t.crc == 0x7C231048#32 && t.done) = true := by decide
/-- 95_test_vectors.md 2.7: writes of CTRL. -/
theorem test_ctrl_write : (State.reset.writeReg .ctrl 0x00000004#32).ctrlWord = 0x00000004#32 := by decide
theorem test_ctrl_write_illegal_zmode : (State.reset.writeReg .ctrl 0x00000024#32).ctrlWord = 0x00000014#32 := by decide
theorem test_ctrl_soft_reset :
    ((State.reset.writeReg .ctrl 0x00000004#32).writeReg .ctrl 0x00000033#32).ctrlWord = 0x00000010#32 := by decide
/-- 95_test_vectors.md 2.7: CRCOUT after a write of CRC. -/
theorem test_crcout : (State.reset.writeReg .crc 0x12345678#32).readReg .crcout = 0xEDCBA987#32 := by decide
/-- 95_test_vectors.md 2.7: an operand write while busy. -/
theorem test_busy_write : ((busyState 0).writeReg .width 9).statusWord = 0x00000009#32 := by decide
/-- 95_test_vectors.md 2.7: bus errors of the register window, and a misaligned word of the OBUF window. -/
theorem test_bus_errors :
    State.reset.readOffset 0x00 .byte = .busError ∧ State.reset.readOffset 0x44 .word = .busError ∧
    State.reset.readOffset 0x01000002 .word = .busError ∧ (State.reset.writeOffset 0x01000000 .word 1).2 = .busError := by
  decide
/-- 20_memory.md R59: the lane order of a word read. -/
theorem test_lanes :
    ({ State.reset with obuf := State.reset.obuf.writeSeq 0 [0x89, 0x50, 0x4E, 0x47] } : State).readWindow 0 .word =
      .data 0x474E5089#32 := by decide
/-- 95_test_vectors.md 2.1 and 2.2. -/
theorem test_crc_idat : crcSeq 0xFFFFFFFF#32 typeIdat = 0xCA50F9E1#32 := by decide +kernel
theorem test_adler_wikipedia :
    adlerSeq 1#32 [0x57, 0x69, 0x6B, 0x69, 0x70, 0x65, 0x64, 0x69, 0x61] = 0x11E60398#32 := by decide
/-- 95_test_vectors.md 2.3: the tokens of "abcXabcYabc", a tie that the smaller distance wins. -/
theorem test_tokens_tie :
    tokens [97, 98, 99, 88, 97, 98, 99, 89, 97, 98, 99] =
      [.lit 97, .lit 98, .lit 99, .lit 88, .copy 3 4, .lit 89, .copy 3 4] := by decide
/-- 95_test_vectors.md 2.3: the first 9-bit literal. -/
theorem test_fixed_nine_bits : fixed [0x90] = [0x9B, 0x00, 0x00] := by decide

/-! ### Witnesses: for every obligation with hypotheses, states and operands that meet them all -/

/-- Every kind of illegal word, written and then reached by the engine. -/
theorem witness_illegal_word :
    ∀ w ∈ ([0x00000007, 0x00010000, 0x00000113] : List Word), wordWellFormed w = false ∧
      (queued State.reset [wr .cmd w, .engine]).pend = none ∧ (queued State.reset [wr .cmd w, .engine]).rst = false ∧
      (queued State.reset [wr .cmd w, .engine]).agenda = wr .cmd w :: .engine :: [] := by
  intro w hw
  simp only [List.mem_cons, List.not_mem_nil, or_false] at hw
  rcases hw with rfl | rfl | rfl <;> exact ⟨by decide, rfl, rfl, rfl⟩

theorem witness_decoded_command :
    (queued (busyState 0x3F) [.engine]).pend = some 0x3F ∧ decode 0x0000003F#32 = .ok .encode ∧
    (queued (busyState 0x3F) [.engine]).agenda = .engine :: [] ∧ (busyState 0x3F).agenda = [] := by decide

theorem witness_idle_engine :
    (queued State.reset [.engine]).pend = none ∧ (queued State.reset [.engine]).agenda = .engine :: [] ∧
    State.reset.agenda = [] := by decide

/-- The invariant in a state with a command pending, and a step from it. -/
theorem witness_invariant : Inv (busyState 0) ∧ ∃ t, step (busyState 0) = .next t :=
  ⟨⟨by decide, by decide, by decide, by decide, by decide, by intro w h; cases h; rfl, by decide, by decide, by decide⟩,
    _, rfl⟩

/-- The invariant with an open chunk whose header ends at the top of OBUF. -/
theorem witness_invariant_chunk : Inv { chunkState with cstart := 0x003FFFF8#32, optr := 0x00400000#32 } :=
  ⟨by decide, by decide, by decide, by decide, by decide, nofun, by decide, by decide, by decide⟩

/-- The invariant while RST is asserted, with a host access next: the step stops. -/
theorem witness_invariant_rst :
    Inv { State.reset with rst := true, agenda := [rd .status] } ∧
    step { State.reset with rst := true, agenda := [rd .status] } = .fault .accessDuringReset :=
  ⟨⟨by decide, by decide, by decide, by decide, by decide, nofun, by decide, by decide, fun _ => rfl⟩, rfl⟩

/-- Every outcome of the check order: success for each reason, and each error alone. -/
theorem witness_outcomes :
    expectedError .chunkEnd { chunkState with cstart := 0x003FFFFC#32 } = none ∧
    ({ chunkState with cstart := 0x003FFFFC#32 } : State).cstart.toNat + 4 = State.reset.build.obufSize ∧
    expectedError .chunkEnd State.reset = some .seq ∧ expectedError .emitIhdr State.reset = some .param ∧
    expectedError (.putByte 0) { State.reset with optr := 0x003FFFFF#32 } = none ∧
    expectedError (.putByte 0) { State.reset with optr := 0x00400000#32 } = some .oflow := by decide

/-- A full ZIN: ZFULL for Z_BYTE at ZIN_MAX and for Z_WORD at ZIN_MAX - 3, and not before. -/
theorem witness_zfull (n : Nat) : let s : State := { streamState with zin := List.replicate n 0 }
    s.zopen = true ∧ (n = 65536 → s.build.zinMax < s.zin.length + 1) ∧ (n = 65533 → s.build.zinMax < s.zin.length + 4) ∧
    (n = 65535 → s.zin.length + 1 ≤ s.build.zinMax) ∧ (n = 65532 → s.zin.length + 4 ≤ s.build.zinMax) := by
  refine ⟨rfl, ?_, ?_, ?_, ?_⟩ <;> rintro rfl <;> simp only [List.length_replicate] <;> decide

theorem witness_patch_outside : let s : State := { chunkState with optr := 0x003FFFFC#32, cstart := 0x003FFFFD#32 }
    s.copen = true ∧ s.zopen = false ∧ s.optr.toNat + 4 ≤ s.build.obufSize ∧ s.build.obufSize ≤ s.cstart.toNat + 3 := by decide

/-- A command that completes and one that fails, for the statements about every next state of `exec`. -/
theorem witness_exec_next :
    (∃ t, exec (.crcByte 1) State.reset = .next t) ∧ expectedError (.crcByte 1) State.reset = none ∧
    (∃ t, exec .zEnd State.reset = .next t) ∧ expectedError .zEnd State.reset = some .seq ∧
    (∃ t, exec .emitIend State.reset = .next t) :=
  ⟨⟨_, rfl⟩, by decide, ⟨_, rfl⟩, by decide, after_next (p := fun _ => true) (by decide +kernel)⟩

/-- OBUF bytes below OPTR0: for PUT_BYTE, and for CHUNK_END below CSTART and from CSTART + 4 on. -/
theorem witness_bytes_below : (∃ t, exec (.putByte 1) { State.reset with optr := 1 } = .next t) ∧
    0 < startOf (.putByte 1) { State.reset with optr := 1 } ∧
    (∃ t, exec .chunkEnd { chunkState with cstart := 1, optr := 9 } = .next t) ∧
    0 < ({ chunkState with cstart := 1, optr := 9 } : State).cstart.toNat ∧
    8 < startOf .chunkEnd { chunkState with cstart := 1, optr := 9 } ∧
    ({ chunkState with cstart := 1, optr := 9 } : State).cstart.toNat + 4 ≤ 8 :=
  ⟨⟨_, rfl⟩, by decide, after_next (p := fun _ => true) (by decide +kernel), by decide, by decide, by decide⟩

theorem witness_not_nop : (opField 0x00000100#32 = 0 ∧ immField 0x00000100#32 ≠ 0) ∧ mbzField 0x00010000#32 ≠ 0 := by decide

/-- The last room in OBUF for each command that emits a fixed number of bytes. -/
theorem witness_room :
    ({ State.reset with optr := 0x003FFFFF#32 } : State).optr.toNat + [(0x41 : Byte)].length ≤ State.reset.build.obufSize ∧
    ({ State.reset with optr := 0x003FFFFC#32 } : State).optr.toNat + (be32 0).length ≤ State.reset.build.obufSize ∧
    ({ State.reset with optr := 0x003FFFF8#32 } : State).optr.toNat + 8 ≤ State.reset.build.obufSize ∧
    ({ State.reset with optr := 0x003FFFF4#32 } : State).optr.toNat + (12 + ([] : List Byte).length) ≤ State.reset.build.obufSize ∧
    State.reset.copen = false ∧ State.reset.zopen = false := by decide

theorem witness_chunkEnd : let s : State := { chunkState with optr := 0x003FFFFC#32, cstart := 0x003FFFFC#32 }
    s.copen = true ∧ s.zopen = false ∧ s.optr.toNat + 4 ≤ s.build.obufSize ∧ s.cstart.toNat + 4 ≤ s.build.obufSize := by decide

theorem witness_zBegin : chunkState.zopen = false := by decide

/-- The empty stream of 8 bytes at the top of OBUF. -/
theorem witness_zEnd : let s : State := { streamState with optr := 0x003FFFF8#32 }
    let z : List Byte := (if s.zmode = .fixed then [0x78, 0xDA] ++ fixed s.zin else [0x78, 0x01] ++ stored s.zin) ++
      [s.adler.extractLsb' 24 8, s.adler.extractLsb' 16 8, s.adler.extractLsb' 8 8, s.adler.extractLsb' 0 8]
    s.zopen = true ∧ s.optr.toNat + z.length ≤ s.build.obufSize := by
  have h : (fixed []).length = 2 := by decide +kernel
  refine ⟨rfl, ?_⟩
  show 0x003FFFF8 + (([0x78, 0xDA] ++ fixed [] ++ [0, 0, 0, 1] : List Byte)).length ≤ 4194304
  simp only [List.length_append, h]
  decide

/-- The largest single stored block, and the smallest input of two. -/
theorem witness_stored (b : Byte) :
    (List.replicate 65535 b).length ≤ 65535 ∧ 65535 < (List.replicate 65536 b).length := by
  simp only [List.length_replicate]
  decide

/-- The last row of each table, at the ends of its range; the next length is another symbol's. -/
theorem witness_codes : rowOf lengthTable 257 = ⟨284, 5, 227, 257⟩ ∧ rowOf lengthTable 258 = ⟨285, 0, 258, 258⟩ ∧
    rowOf distTable 24577 = ⟨29, 13, 24577, 32768⟩ ∧ rowOf distTable 32768 = ⟨29, 13, 24577, 32768⟩ ∧ (143 : Nat) ≤ 143 ∧
    (144 : Nat) ≤ 255 ∧ (256 : Nat) ≤ 279 ∧ (280 : Nat) ≤ 287 := by decide +kernel

theorem witness_search : 3 ≤ ([7, 7, 7] : List Byte).length ∧ 0 < (bestMatch [[7, 7, 7, 7]] [7, 7, 7]).len ∧
    (([[7, 7, 7, 7]] : List (List Byte)).take 32768)[0]? = some [7, 7, 7, 7] := by decide

/-- The shortest and the longest match. -/
theorem witness_tokens : Token.copy 3 1 ∈ tokens [5, 5, 5, 5] ∧ Token.copy 258 1 ∈ tokens (List.replicate 259 5) := by
  decide +kernel

/-- IHDR at the top of OBUF, with the largest width. -/
theorem witness_ihdr : let s : State := { State.reset with width := 0x7FFFFFFF#32, height := 1, optr := 0x003FFFE7#32 }
    s.copen = false ∧ s.zopen = false ∧ dimsInRange s ∧ s.optr.toNat + 25 ≤ s.build.obufSize := by decide

/-- IDAT at the top of OBUF. -/
theorem witness_idat : let s : State := { blackPixel with optr := 0x003FFFEA#32 }
    let raw := rawImage s.width.toNat s.height.toNat s.color
    let z := zlibStream s.zmode raw (adlerSeq 0x00000001#32 raw)
    s.copen = false ∧ s.zopen = false ∧ dimsInRange s ∧ s.optr.toNat + (12 + z.length) ≤ s.build.obufSize := by
  have h : (imageStream { blackPixel with optr := 0x003FFFEA#32 }).length = 10 := by decide +kernel
  refine ⟨rfl, rfl, by decide, ?_⟩
  change _ + (12 + (imageStream _).length) ≤ _
  rw [h]
  decide

theorem witness_raw : (0 : Nat) < 1 ∧ (rawImage 1 1 0x010203#24)[3]? = some 3 := by decide

theorem witness_encode : blackPixel.copen = false ∧ blackPixel.zopen = false ∧ dimsInRange blackPixel ∧
    57 + (imageStream blackPixel).length ≤ State.reset.build.obufSize ∧ expectedError .encode blackPixel = none := by decide +kernel

/-- Two machines that agree on the image and differ elsewhere. -/
theorem witness_two_encodes : let s : State := { blackPixel with optr := 5, crc := 7, data := 9 }
    s.width = blackPixel.width ∧ s.height = blackPixel.height ∧ s.color = blackPixel.color ∧ s.zmode = blackPixel.zmode ∧
    (∃ t, exec .encode s = .next t) ∧ (∃ t, exec .encode blackPixel = .next t) ∧ expectedError .encode s = none :=
  ⟨rfl, rfl, rfl, rfl, after_next (p := fun _ => true) (by decide +kernel),
    after_next (p := fun _ => true) (by decide +kernel), by decide +kernel⟩

theorem witness_streamed_idat : let s : State := { blackPixel with data := 0x49444154#32 }
    expectedError .emitIdat s = none ∧ s.zin = [] ∧ s.data = 0x49444154#32 ∧ s.raw.length ≤ s.build.zinMax := by decide +kernel

/-- Idle host writes: of CMD, of an operand register, of a read-only register, of CTRL without and with SRST. -/
theorem witness_idle_writes :
    ∀ r : Reg, (queued State.reset [wr r 3]).pend = none ∧ (queued State.reset [wr r 3]).rst = false ∧
      (queued State.reset [wr r 3]).agenda = wr r 3 :: [] := fun _ => ⟨rfl, rfl, rfl⟩
theorem witness_ctrl_values : (0x00000006#32).getLsbD 0 = false ∧ (0x00000033#32).getLsbD 0 = true ∧
    (0x00000020#32).extractLsb' 4 2 ≠ 0#2 ∧ (0x00000020#32).extractLsb' 4 2 ≠ 1#2 := by decide

/-- The step that accepts a command, and what it accepts. -/
theorem witness_issue_step : (queued State.reset [wr .cmd 5]).pend = none ∧
    ∃ t, step (queued State.reset [wr .cmd 5]) = .next t ∧ t.pend = some 5 :=
  ⟨rfl, _, step_wr (rest := []) rfl rfl, rfl⟩

/-- Busy host accesses: any register, ENCODE and CHUNK_END pending. -/
theorem witness_busy_accesses : ∀ r : Reg, (queued (busyState 0x13) [wr r 3]).pend = some 0x13 ∧
    (queued (busyState 0x13) [wr r 3]).rst = false ∧ (queued (busyState 0x3F) [rd r]).pend = some 0x3F ∧
    (queued (busyState 0x3F) [rd r]).agenda = rd r :: [] := fun _ => ⟨rfl, rfl, rfl, rfl⟩

theorem witness_rst_events : (queued State.reset [.rst true]).agenda = .rst true :: [] ∧
    ({ State.reset with rst := true, agenda := [.rst false] } : State).agenda = .rst false :: [] ∧
    ({ State.reset with rst := true, agenda := [.rst false] } : State).rst = true := by decide

theorem witness_access_during_reset (addr v : Word) : let s : State := { State.reset with rst := true }
    (queued s [.read addr .word]).rst = true ∧ (queued s [.read addr .word]).agenda = .read addr .word :: [] ∧
    (queued s [.write addr .byte v]).agenda = .write addr .byte v :: [] := ⟨rfl, rfl, rfl⟩

/-- The last byte and the last word of OBUF, read while idle. -/
theorem witness_window : (queued State.reset [rdb 0x003FFFFF]).pend = none ∧ 0x003FFFFF < State.reset.build.obufSize ∧
    (queued State.reset [rdb 0x003FFFFF]).agenda = rdb 0x003FFFFF :: [] ∧ 0x003FFFFC % 4 = 0 ∧
    0x003FFFFC + 3 < State.reset.build.obufSize ∧ (queued State.reset [rdw 0x003FFFFC]).agenda = rdw 0x003FFFFC :: [] :=
  ⟨rfl, by decide, rfl, by decide, by decide, rfl⟩

/-- While CHUNK_END is pending: the bytes before CSTART and from CSTART + 4 to OPTR, read one by one and as a word. -/
theorem witness_busy_window : let s : State := { busyState 0x13 with optr := 12, cstart := 1, agenda := [rdb 11] }
    let settled : Nat → Prop := fun a => a < (if (0x13#32) = 0x3F#32 then 0 else s.optr.toNat) ∧
      ((0x13#32) = 0x00000013#32 → a < s.cstart.toNat ∨ s.cstart.toNat + 3 < a)
    s.pend = some 0x13 ∧ s.rst = false ∧ 11 < s.build.obufSize ∧ settled 0 ∧ settled 5 ∧ settled 11 ∧ ¬ settled 4 ∧ ¬ settled 12 ∧
    s.agenda = rdb 11 :: [] ∧ 8 % 4 = 0 ∧ 8 + 3 < s.build.obufSize ∧ settled (8 + 3) ∧
    (queued s [rdw 8]).agenda = rdw 8 :: [] :=
  ⟨rfl, rfl, by decide, by decide, by decide, by decide, by decide, by decide, rfl, by decide, by decide, by decide, rfl⟩

/-- Accesses that no rule admits, by their offset from BASE: a reserved and a misaligned register offset, a byte access to a
register, an unmapped offset, the first offset past OBUF, and a misaligned word in the window. -/
theorem witness_bus_errors (k : Nat) (size : Size)
    (h : (k, size) ∈ [(0x44, Size.word), (0x02, .word), (0x00, .byte), (0x100, .word), (0x01400000, .byte), (0x01000002, .word)]) :
    let o := (Config.base + BitVec.ofNat 32 k - Config.base).toNat
    ¬ (size = .word ∧ o % 4 = 0 ∧ o ≤ 0x40) ∧
    ¬ (0x01000000 ≤ o ∧ ((size = .byte ∧ o - 0x01000000 < State.reset.build.obufSize) ∨
      (size = .word ∧ o % 4 = 0 ∧ o - 0x01000000 + 3 < State.reset.build.obufSize))) := by
  simp only [List.mem_cons, Prod.mk.injEq, List.not_mem_nil, or_false] at h
  rcases h with ⟨rfl, rfl⟩ | ⟨rfl, rfl⟩ | ⟨rfl, rfl⟩ | ⟨rfl, rfl⟩ | ⟨rfl, rfl⟩ | ⟨rfl, rfl⟩ <;>
    · rw [base_offset (by decide)]
      decide

/-- A pending command and a host access that changes none of its operands; a soft reset instead. -/
theorem witness_frozen : let s := queued (busyState 0x3F) [wr .width 3]
    s.pend ≠ none ∧ s.agenda = wr .width 3 :: [] ∧ wr .width 3 ≠ .engine ∧ (∀ l, wr .width 3 ≠ .rst l) ∧ ∃ t, step s = .next t :=
  ⟨by decide, rfl, by simp [wr], by simp [wr], _, step_wr (rest := []) rfl rfl⟩

/-- The engine's turn completes a command and an illegal word with IRQ raised. -/
theorem witness_irq : State.reset.err = false ∧ (∃ t, exec .nop { State.reset with irqen := true } = .next t ∧ t.irq = true) ∧
    (∃ t, engineTurn { busyState 0x07 with irqen := true } = .next t ∧ t.irq = true) ∧
    (busyState 0x07).agenda = [] ∧ (∃ t, step (busyState 0x07) = .next t) ∧
    (queued (busyState 0x07) [.engine]).agenda = .engine :: [] ∧ (∃ t, step (queued (busyState 0x07) [.engine]) = .next t) :=
  ⟨rfl, ⟨_, rfl, rfl⟩, ⟨_, rfl, rfl⟩, rfl, ⟨_, rfl⟩, rfl, _, rfl⟩

/-- Two canonical OBUFs of equal content, reached by different writes after bytes were left unspecified. -/
theorem witness_canonical :
    let m := ((⟨[], []⟩ : Memory).forget 2 64 1).writeSeq 3 [1, 2]
    let m' := (((⟨[(7, 9)], []⟩ : Memory).write 4 2).forget 2 64 1).writeSeq 3 [1, 2]
    m.wf 64 = true ∧ m'.wf 64 = true ∧ (∀ a, a < 64 → m.content a = m'.content a) ∧
    m.origins = [⟨2, 1⟩, ⟨3, 0⟩, ⟨5, 1⟩, ⟨64, 0⟩] := by decide +kernel

end Sys2Proof.Tests
end

/-! Hardware reset (O51): the step on an RST event, and the reset values of every state that the register reset leaves as it
is (10_state.md R49, 70_reset_and_hazards.md R142). -/

namespace Sys2Proof.Machine

/-- RST is driven whatever the state is: the one event that no level of RST stops (R142). -/
theorem step_rst {s : State} {level : Bool} {rest : List Event} (ha : s.agenda = .rst level :: rest) :
    step s = .next (({ s with agenda := rest } : State).driveRst level) := by
  unfold step actNext
  rw [ha]
  rfl

theorem driveRst_assert (s : State) : s.driveRst true = { s.hardReset with rst := true } := rfl

theorem driveRst_release {s : State} (h : s.rst = true) : s.driveRst false = { s.hardReset with rst := false } := by
  simp [State.driveRst, h]

theorem ctrlWord_resetRegs (s : State) : s.resetRegs.ctrlWord = 0x00000010#32 := by
  simp [State.ctrlWord, ZMode.field]

theorem statusWord_resetRegs (s : State) : s.resetRegs.statusWord = 0x00000000#32 := by
  simp [State.statusWord, State.statusWith, State.busy, errField]

theorem crcout_resetRegs (s : State) : s.resetRegs.regValue .crcout = 0 := BitVec.xor_self

theorem irq_resetRegs (s : State) : s.resetRegs.irq = false := rfl

/-- The register reset gives the reset values (R49). -/
theorem atReset_resetRegs (s : State) : AtReset s.resetRegs :=
  ⟨ctrlWord_resetRegs s, statusWord_resetRegs s, rfl, rfl, rfl, rfl, rfl, rfl, crcout_resetRegs s, rfl, rfl, rfl, rfl, rfl,
    rfl, rfl, irq_resetRegs s⟩

/-- A state that the register reset leaves as it is has the reset values (R49). -/
theorem atReset_of_resetRegs_eq {s : State} (h : s.resetRegs = s) : AtReset s := h ▸ atReset_resetRegs s

theorem atReset_hardReset (s : State) (level : Bool) : AtReset { s.hardReset with rst := level } :=
  atReset_of_resetRegs_eq rfl

/-- Every byte of OBUF is a free value of the draw that hardware reset makes (R142, log 9). -/
theorem read_hardReset (s : State) {a : Nat} (h : a < s.build.obufSize) :
    s.hardReset.obuf.read a = Config.freeObufByte (s.draws + 1) a := by
  rw [State.hardReset_obuf]
  exact Memory.read_forget_inside (Nat.zero_le a) h

/-- Settles O51: both RST events end in a hardware reset, whatever the state was. -/
theorem hardwareResetValues : Obligations.HardwareResetValues := by
  refine ⟨rfl, rfl, atReset_of_resetRegs_eq rfl, fun _ => rfl, fun s rest => ⟨fun ha => ?_, fun ha hr => ?_⟩⟩
  · rw [step_rst ha, driveRst_assert]
    exact ⟨_, rfl, atReset_hardReset _ true, rfl, rfl, fun _ h => read_hardReset { s with agenda := rest } h⟩
  · rw [step_rst ha, driveRst_release (s := { s with agenda := rest }) hr]
    exact ⟨_, rfl, atReset_hardReset _ false, rfl, rfl⟩

end Sys2Proof.Machine

/-! ENCODE and its four steps (O43): each PNG command in closed form where its bytes fit, what is left of the room after it,
and that completion between two of them is not seen by the next (40_png_encoder.md R81 to R85, R147). -/

namespace Sys2Proof.Machine

/-- The image can be encoded from here: nothing is open, the dimensions are in range and OBUF holds `n` more bytes. -/
structure RoomForImage (s : State) (n : Nat) : Prop where
  closed : s.nothingOpen = true
  dims : s.dimsOk = true
  room : s.optr.toNat + n ≤ s.build.obufSize

theorem wroteChunk_optr {s : State} {t p : List Byte} (hc : s.copen = false)
    (h : s.optr.toNat + (8 + t.length + p.length) ≤ s.build.obufSize) :
    (s.wroteChunk t p).optr.toNat = s.optr.toNat + (8 + t.length + p.length) := by
  rw [wroteChunk_eq hc h]
  exact optr_add (by have := obufSize_lt s.build; omega)

namespace RoomForImage

variable {s : State} {n : Nat}

theorem copen_eq (h : RoomForImage s n) : s.copen = false := (nothingOpen_iff.1 h.closed).1

/-- Emitting bytes uses up their room. -/
theorem emitted {bs : List Byte} (h : RoomForImage s (bs.length + n)) : RoomForImage (s.emitted bs) n where
  closed := h.closed
  dims := h.dims
  room := by
    have hr := h.room
    rw [emitted_optr (by omega), emitted_build]
    omega

/-- A whole chunk uses up its twelve bytes and its payload, and is closed again. -/
theorem wroteChunk {t p : List Byte} (ht : t.length = 4) (h : RoomForImage s (12 + p.length + n)) :
    RoomForImage (s.wroteChunk t p) n where
  closed := nothingOpen_iff.2 ⟨rfl, (nothingOpen_iff.1 h.closed).2⟩
  dims := h.dims
  room := by
    have hr := h.room
    rw [wroteChunk_optr h.copen_eq (by omega)]
    change _ ≤ s.build.obufSize
    omega

end RoomForImage

/-! ### The four steps -/

/-- The state after EMIT_IHDR (R82). -/
def State.wroteIhdr (s : State) : State := s.wroteChunk typeIhdr (ihdrPayload s.width s.height)

/-- The state after EMIT_IDAT (R83). -/
def State.wroteIdat (s : State) : State :=
  (s.withAdler (adlerSeq 0x00000001#32 s.raw)).wroteChunk typeIdat (imageStream s)

/-- The state after EMIT_IEND (R84). -/
def State.wroteIend (s : State) : State := s.wroteChunk typeIend []

/-- The state after EMIT_SIG, EMIT_IHDR, EMIT_IDAT and EMIT_IEND (R85). -/
def State.wroteDocument (s : State) : State := (s.emitted pngSignature).wroteIhdr.wroteIdat.wroteIend

@[simp] theorem imageStream_emitted (s : State) (bs : List Byte) : imageStream (s.emitted bs) = imageStream s := rfl

@[simp] theorem imageStream_wroteIhdr (s : State) : imageStream s.wroteIhdr = imageStream s := rfl

@[simp] theorem imageStream_completeOk (s : State) : imageStream s.completeOk = imageStream s := rfl

/-- How many bytes the four steps emit, step by step (60_exceptions.md R127). -/
def documentRoom (s : State) : Nat := 8 + (25 + (12 + (imageStream s).length + 12))

section
variable {s : State} {n : Nat}

theorem sigBody_fits (h : RoomForImage s (8 + n)) :
    sigBody s = .ok (s.emitted pngSignature) ∧ RoomForImage (s.emitted pngSignature) n := by
  refine ⟨?_, RoomForImage.emitted h⟩
  have hr := h.room
  rw [sigBody, h.closed, require_true, putAll_fits pngSignature (by simp [pngSignature]; omega)]

theorem ihdrBody_fits (h : RoomForImage s (25 + n)) : ihdrBody s = .ok s.wroteIhdr ∧ RoomForImage s.wroteIhdr n := by
  refine ⟨?_, RoomForImage.wroteChunk rfl h⟩
  have hr := h.room
  rw [ihdrBody, h.closed, h.dims, require_true, require_true,
    wholeChunk_eq (by simp [typeIhdr, ihdrPayload, be32]; omega), State.wroteIhdr]

theorem idatBody_fits {z : List Byte} (h : RoomForImage s (12 + z.length + n)) (hz : imageStream s = z) :
    idatBody s = .ok s.wroteIdat ∧ RoomForImage s.wroteIdat n := by
  subst hz
  refine ⟨?_, RoomForImage.wroteChunk rfl ⟨h.closed, h.dims, h.room⟩⟩
  have hr := h.room
  rw [idatBody_eq, h.closed, h.dims, require_true, require_true,
    wholeChunk_eq (by simp [typeIdat]; omega), State.wroteIdat]

theorem iendBody_fits (h : RoomForImage s 12) : iendBody s = .ok s.wroteIend := by
  have hr := h.room
  rw [iendBody, h.closed, require_true, wholeChunk_eq (by simp [typeIend]; omega), State.wroteIend]

end

/-! ### Completion between the steps -/

@[simp] theorem completeOk_completeOk (s : State) : s.completeOk.completeOk = s.completeOk := rfl

theorem wroteChunk_completeOk (s : State) (t p : List Byte) :
    s.completeOk.wroteChunk t p = (s.wroteChunk t p).completeOk := rfl

@[simp] theorem wroteIhdr_completeOk (s : State) : s.completeOk.wroteIhdr = s.wroteIhdr.completeOk :=
  wroteChunk_completeOk s _ _

@[simp] theorem wroteIdat_completeOk (s : State) : s.completeOk.wroteIdat = s.wroteIdat.completeOk :=
  wroteChunk_completeOk (s.withAdler _) _ _

@[simp] theorem wroteIend_completeOk (s : State) : s.completeOk.wroteIend = s.wroteIend.completeOk :=
  wroteChunk_completeOk s _ _

/-- The next command needs the same room after a completion as before it (60_exceptions.md R125). -/
theorem RoomForImage.completeOk {s : State} {n : Nat} (h : RoomForImage s n) : RoomForImage s.completeOk n :=
  ⟨h.closed, h.dims, h.room⟩

/-- A command whose pseudocode succeeds is followed by the others from its completion (20_memory.md R63). -/
theorem execAll_cons {i : Instr} {is : List Instr} {s t : State} (h : bodyOf i s = .ok t) :
    execAll (i :: is) s = execAll is t.completeOk := by
  rw [execAll, exec_eq_finish, h, finish_ok]

/-- The four bodies one after another, as ENCODE's pseudocode runs them (R85). -/
theorem documentBodies_fit {s : State} (h : RoomForImage s (documentRoom s)) :
    (((sigBody s).bind ihdrBody).bind idatBody).bind iendBody = .ok s.wroteDocument := by
  obtain ⟨hsig, hroom⟩ := sigBody_fits h
  obtain ⟨hihdr, hroom⟩ := ihdrBody_fits hroom
  obtain ⟨hidat, hroom⟩ := idatBody_fits hroom (by simp)
  simp only [hsig, hihdr, hidat, iendBody_fits hroom, Except.bind, State.wroteDocument]

/-- The four commands one after another, each to its completion (R147). -/
theorem execAll_documentSteps {s : State} (h : RoomForImage s (documentRoom s)) :
    execAll [.emitSig, .emitIhdr, .emitIdat, .emitIend] s = .next s.wroteDocument.completeOk := by
  obtain ⟨hsig, hroom⟩ := sigBody_fits h
  obtain ⟨hihdr, hroom⟩ := ihdrBody_fits hroom.completeOk
  obtain ⟨hidat, hroom⟩ := idatBody_fits hroom.completeOk (by simp)
  have hiend := iendBody_fits hroom.completeOk
  rw [execAll_cons (i := .emitSig) hsig, execAll_cons (i := .emitIhdr) hihdr, execAll_cons (i := .emitIdat) hidat,
    execAll_cons (i := .emitIend) hiend]
  simp [execAll, State.wroteDocument]

/-- ENCODE's own checks leave room for its four steps from OPTR 0 on (R85, 60_exceptions.md R124 and R127). -/
theorem roomForImage_of_encode {s : State} (h : expectedError .encode s = none) :
    RoomForImage { s with optr := 0 } (documentRoom s) := by
  unfold expectedError at h
  split_ifs at h with hseq hdims _ hfits
  refine ⟨?_, ?_, ?_⟩
  · simpa [seqAllowed, State.nothingOpen] using hseq
  · simpa [checksDims, State.dimsOk, dimOk, and_assoc] using hdims
  · have hlen : 57 + (imageStream s).length ≤ s.build.obufSize := by simpa [emitCount, startOf] using hfits
    change 0 + documentRoom s ≤ s.build.obufSize
    unfold documentRoom
    omega

/-- Settles O43: from OPTR 0 the four commands and ENCODE's body end in one closed form. -/
theorem encodeIsItsSteps : Obligations.EncodeIsItsSteps := by
  intro s h
  have hroom : RoomForImage { s with optr := 0 } (documentRoom { s with optr := 0 }) := roomForImage_of_encode h
  have hbody : encodeBody s = .ok ({ s with optr := 0 } : State).wroteDocument := by
    rw [encodeBody, show s.nothingOpen = true from hroom.closed, show s.dimsOk = true from hroom.dims, require_true,
      require_true, documentBodies_fit hroom]
  rw [execAll_documentSteps hroom, exec_eq_finish, bodyOf, hbody, finish_ok]

end Sys2Proof.Machine

/-! What one step can be, and what a host write can do: the cases from which every statement about all steps is derived
(20_memory.md R56, R61, R63, 70_reset_and_hazards.md R143). -/

namespace Sys2Proof.Machine

/-! ### The step by its event -/

/-- The state in which the next event acts: the event has left the agenda (log 3). -/
def State.popped (s : State) : State := { s with agenda := s.agenda.tail }

theorem popped_of_cons {s : State} {e : Event} {rest : List Event} (ha : s.agenda = e :: rest) :
    s.popped = { s with agenda := rest } := by
  rw [State.popped, ha, List.tail_cons]

theorem popped_of_nil {s : State} (ha : s.agenda = []) : s.popped = s := by
  rw [State.popped, ha, List.tail_nil, ← ha]

/-- The step on a turn of the engine, listed or of an empty agenda (R63, log 4). -/
theorem step_engine {s : State} {rest : List Event} (ha : s.agenda = [] ∨ s.agenda = .engine :: rest) :
    step s = engineTurn s.popped := by
  unfold step actNext
  rcases ha with ha | ha
  · rw [popped_of_nil ha, ha]
  · rw [popped_of_cons ha, ha]
    rfl

/-- RST asserted, a host access gives no next state (70_reset_and_hazards.md R142). -/
theorem whenReleased_next {s t u : State} (h : s.whenReleased t = .next u) : s.rst = false ∧ u = t := by
  unfold State.whenReleased at h
  split_ifs at h with hr
  exact ⟨by simpa using hr, (Host.Outcome.next.inj h).symm⟩

/-- All that a step can be. -/
theorem step_cases {s t : State} (h : step s = .next t) :
    engineTurn s.popped = .next t ∨
    (∃ addr size, s.rst = false ∧ t = s.popped.hostRead addr size) ∨
    (∃ addr size v rest, s.agenda = .write addr size v :: rest ∧ s.rst = false ∧ t = s.popped.hostWrite addr size v) ∨
    ∃ level, t = s.popped.driveRst level := by
  cases ha : s.agenda with
  | nil => exact .inl (step_engine (rest := []) (.inl ha) ▸ h)
  | cons e rest =>
    have hact : act e s.popped = .next t := by
      rw [popped_of_cons ha, ← h, step, actNext, ha]
    cases e with
    | engine => exact .inl hact
    | read addr size => exact .inr (.inl ⟨addr, size, whenReleased_next hact⟩)
    | write addr size v => exact .inr (.inr (.inl ⟨addr, size, v, rest, rfl, whenReleased_next hact⟩))
    | rst level => exact .inr (.inr (.inr ⟨level, (Host.Outcome.next.inj hact).symm⟩))

/-- All that a command can end in: its pseudocode's end, or an error that it raised. -/
theorem exec_cases {i : Instr} {s t : State} (h : exec i s = .next t) :
    (∃ u, bodyOf i s = .ok u ∧ t = u.completeOk) ∨
    ∃ e, bodyOf i s = raise e ∧ t = s.completeError (startOf i s) e :=
  finish_next (exec_eq_finish i s ▸ h)

/-- All that a turn of the engine can be: idle, a completed command, or a command error (R63). -/
theorem engineTurn_cases {s t : State} (h : engineTurn s = .next t) :
    (s.pend = none ∧ t = s) ∨
    (s.pend ≠ none ∧ ((∃ u, BodyFrame s u ∧ t = u.completeOk) ∨ ∃ start e, t = s.completeError start e)) := by
  cases hp : s.pend with
  | none => exact .inl ⟨rfl, by simpa [engineTurn, hp] using h.symm⟩
  | some w =>
    refine .inr ⟨by simp, ?_⟩
    simp only [engineTurn, hp] at h
    split at h
    · rcases exec_cases h with ⟨u, hu, rfl⟩ | ⟨e, -, rfl⟩
      · exact .inl ⟨u, bodyOf_frame hu, rfl⟩
      · exact .inr ⟨_, e, rfl⟩
    · exact .inr ⟨_, .illegal, by simpa using h.symm⟩

/-! ### The register map -/

theorem offset_of_regAt {o : Nat} {r : Reg} (h : regAt o = some r) : r.offset = o := by
  simpa using List.find?_some h

/-- A host write reaches a register, and then is `wr` of it, or changes nothing (R56, R57). -/
theorem hostWrite_cases (s : State) (addr : Word) (size : Size) (v : Word) :
    (∃ r, Event.write addr size v = wr r v ∧
      s.hostWrite addr size v = { s.writeReg r v with resp := some .done }) ∨
    s.hostWrite addr size v = { s with resp := some .busError } := by
  unfold State.hostWrite State.memWrite
  cases size with
  | byte | half => exact .inr rfl
  | word =>
    cases hr : regAt (addr - Config.base).toNat with
    | none => exact .inr (by simp only [State.writeOffset, hr])
    | some r =>
      refine .inl ⟨r, ?_, by simp only [State.writeOffset, hr]⟩
      have haddr : addr = Config.base + BitVec.ofNat 32 r.offset := by
        rw [offset_of_regAt hr, BitVec.ofNat_toNat, BitVec.setWidth_eq, BitVec.add_comm, BitVec.sub_add_cancel]
      rw [wr, haddr]

/-! ### Register writes -/

theorem busy_eq_false {s : State} (h : s.pend = none) : s.busy = false := by simp [State.busy, h]

theorem busy_eq_true {s : State} (h : s.pend ≠ none) : s.busy = true := by
  simpa [State.busy, Option.isSome_iff_ne_none] using h

theorem writeReg_idle {s : State} (h : s.pend = none) (r : Reg) (v : Word) : s.writeReg r v = s.writeIdle r v := by
  simp [State.writeReg, busy_eq_false h]

theorem writeReg_busy {s : State} (h : s.pend ≠ none) (r : Reg) (v : Word) : s.writeReg r v = s.writeBusy r v := by
  simp [State.writeReg, busy_eq_true h]

/-- A CTRL write with SRST = 1 is a soft reset (10_state.md R22). -/
theorem writeCtrl_srst {s : State} {v : Word} (hv : v.getLsbD 0 = true) : s.writeCtrl v = s.softReset := by
  rw [State.writeCtrl, if_pos hv]

/-- A CTRL write with SRST = 0, field by field (10_state.md R23 to R25). -/
theorem writeCtrl_fields {s : State} {v : Word} (hv : v.getLsbD 0 = false) :
    s.writeCtrl v = { s with
      irqen := v.getLsbD 2
      done := if v.getLsbD 1 then false else s.done
      err := if v.getLsbD 1 then false else s.err
      ovr := if v.getLsbD 1 then false else s.ovr
      errcode := if v.getLsbD 1 then none else s.errcode
      zmode := if s.busy then s.zmode else s.zmode.written (v.extractLsb' 4 2) } := by
  rw [State.writeCtrl, if_neg (by rw [hv]; decide)]
  cases v.getLsbD 1 <;> rfl

/-! ### Resets -/

/-- A soft reset sets every register to its reset value, idle or busy (R143). -/
theorem resetRegs_softReset (s : State) : s.softReset.resetRegs = s.softReset := by
  unfold State.softReset
  split <;> rfl

theorem softReset_idle {s : State} (h : s.pend = none) : s.softReset = s.resetRegs := by
  rw [State.softReset, h]

theorem softReset_busy {s : State} {w : Word} (h : s.pend = some w) :
    s.softReset = { s.resetRegs with obuf := s.discardObuf w, draws := s.draws + 1 } := by
  rw [State.softReset, h]

/-- All that driving RST can do: a hardware reset, or nothing (R142). -/
theorem driveRst_cases (s : State) (level : Bool) :
    s.driveRst level = { s.hardReset with rst := level } ∨ (s.rst = false ∧ s.driveRst level = s) := by
  cases level with
  | true => exact .inl rfl
  | false =>
    cases hr : s.rst with
    | true => exact .inl (driveRst_release hr)
    | false => exact .inr ⟨rfl, by simp [State.driveRst, hr]⟩

/-! ### No register write touches the build or RST, and no step the build (10_state.md R16) -/

theorem softReset_frame (s : State) :
    s.softReset.build = s.build ∧ s.softReset.rst = s.rst ∧ s.softReset.agenda = s.agenda := by
  unfold State.softReset
  split <;> exact ⟨rfl, rfl, rfl⟩

theorem writeCtrl_frame (s : State) (v : Word) : (s.writeCtrl v).build = s.build ∧ (s.writeCtrl v).rst = s.rst := by
  cases hv : v.getLsbD 0 with
  | false => simp [writeCtrl_fields hv]
  | true =>
    obtain ⟨hbuild, hrst, -⟩ := softReset_frame s
    rw [writeCtrl_srst hv]
    exact ⟨hbuild, hrst⟩

theorem writeReg_frame (s : State) (r : Reg) (v : Word) :
    (s.writeReg r v).build = s.build ∧ (s.writeReg r v).rst = s.rst := by
  unfold State.writeReg
  split_ifs <;> cases r
  case pos.ctrl | neg.ctrl => exact writeCtrl_frame s v
  all_goals exact ⟨rfl, rfl⟩

theorem step_build {s t : State} (h : step s = .next t) : t.build = s.build := by
  rcases step_cases h with h | ⟨addr, size, -, rfl⟩ | ⟨addr, size, v, rest, -, -, rfl⟩ | ⟨level, rfl⟩
  · rcases engineTurn_cases h with ⟨-, rfl⟩ | ⟨-, ⟨u, hu, rfl⟩ | ⟨start, e, rfl⟩⟩
    · rfl
    · exact hu.build
    · exact State.completeError_build ..
  · rfl
  · rcases hostWrite_cases s.popped addr size v with ⟨r, -, hw⟩ | hw
    · rw [hw]
      exact (writeReg_frame s.popped r v).1
    · rw [hw]
      rfl
  · rcases driveRst_cases s.popped level with hd | ⟨-, hd⟩ <;> rw [hd] <;> rfl

end Sys2Proof.Machine

/-! The invariant (O7, O8): it holds after reset, and every event keeps it. -/

namespace Sys2Proof.Machine

/-! ### Reset states -/

/-- The reset values meet the invariant over any canonical OBUF. -/
theorem inv_resetRegs {s : State} (hwf : s.obuf.wf s.build.obufSize = true)
    (hold : ∀ o ∈ s.obuf.origins, o.draw ≤ s.draws) : Inv s.resetRegs where
  obuf_wf := hwf
  origins_old := hold
  zin_fits := Nat.zero_le _
  zin_closed := fun _ => rfl
  chunk_fits := nofun
  pend_cmd := nofun
  pend_done := fun _ => rfl
  err_code := rfl
  rst_held := fun _ => rfl

/-- So does a state that the register reset leaves as it is. -/
theorem inv_of_resetRegs_eq {s : State} (h : s.resetRegs = s) (hwf : s.obuf.wf s.build.obufSize = true)
    (hold : ∀ o ∈ s.obuf.origins, o.draw ≤ s.draws) : Inv s :=
  h ▸ inv_resetRegs hwf hold

/-- The invariant holds after reset, for every build (00_scope.md R5, R6). -/
theorem inv_resetOf (b : Build) : Inv (State.resetOf b) :=
  inv_of_resetRegs_eq rfl (reset_obuf_wf b) nofun

/-- Settles O7: reset leaves the reset values and an OBUF of which nothing is specified. -/
theorem resetMeetsInvariant : Obligations.ResetMeetsInvariant := inv_resetOf _

/-! ### What the memory operations of errors and resets keep -/

theorem wf_completeError {s : State} (h : s.obuf.wf s.build.obufSize = true) (start : Nat) (e : CmdError) :
    (s.completeError start e).obuf.wf s.build.obufSize = true := by
  cases e with
  | oflow => exact Memory.wf_forget h le_rfl
  | illegal | seq | param | zfull => exact h

theorem origins_old_completeError {s : State} (h : ∀ o ∈ s.obuf.origins, o.draw ≤ s.draws) (start : Nat)
    (e : CmdError) : ∀ o ∈ (s.completeError start e).obuf.origins, o.draw ≤ (s.completeError start e).draws := by
  cases e with
  | oflow => exact Memory.draws_forget (fun o ho => Nat.le_succ_of_le (h o ho)) le_rfl
  | illegal | seq | param | zfull => exact h

theorem wf_discardObuf {s : State} (h : s.obuf.wf s.build.obufSize = true) (w : Word) :
    (s.discardObuf w).wf s.build.obufSize = true := by
  unfold State.discardObuf
  split_ifs
  · exact Memory.wf_forget (Memory.wf_forget h le_rfl) (min_le_right ..)
  · exact Memory.wf_forget h le_rfl

theorem origins_old_discardObuf {s : State} (h : ∀ o ∈ s.obuf.origins, o.draw ≤ s.draws) (w : Word) :
    ∀ o ∈ (s.discardObuf w).origins, o.draw ≤ s.draws + 1 := by
  have hold : ∀ o ∈ s.obuf.origins, o.draw ≤ s.draws + 1 := fun o ho => Nat.le_succ_of_le (h o ho)
  unfold State.discardObuf
  split_ifs
  · exact Memory.draws_forget (Memory.draws_forget hold le_rfl) le_rfl
  · exact Memory.draws_forget hold le_rfl

namespace Inv

variable {s : State}

/-! ### The engine -/

/-- A pending command means that RST is released: PEND has its reset value while RST is asserted (R142). -/
theorem released_of_pend (h : Inv s) (hp : s.pend ≠ none) : s.rst = false := by
  by_contra hr
  have hreset := h.rst_held (by simpa using hr)
  exact hp (by rw [← hreset]; rfl)

/-- What is next on the agenda is no part of the invariant. -/
theorem popped (h : Inv s) : Inv s.popped :=
  { h with rst_held := fun hr => congrArg (fun t : State => { t with agenda := s.agenda.tail }) (h.rst_held hr) }

/-- Completion with success (60_exceptions.md R125). -/
theorem completeOk {u : State} (h : Inv s) (hp : s.pend ≠ none) (hu : BodyFrame s u) : Inv u.completeOk where
  obuf_wf := by simpa [hu.build] using hu.obuf_wf h.obuf_wf
  origins_old := by simpa [hu.draws] using hu.origins_old h.origins_old
  zin_fits := by simpa [hu.build] using hu.zin_fits h.zin_fits
  zin_closed := hu.zin_closed h.zin_closed
  chunk_fits := by simpa [hu.build] using hu.chunk_fits h.chunk_fits
  pend_cmd := nofun
  pend_done := fun hn => absurd rfl hn
  err_code := by simpa [hu.err, hu.errcode] using h.err_code
  rst_held := fun hr => by simp [hu.rst, h.released_of_pend hp] at hr

/-- Completion with an error (R126). -/
theorem completeError (h : Inv s) (hp : s.pend ≠ none) (start : Nat) (e : CmdError) :
    Inv (s.completeError start e) where
  obuf_wf := by simpa using wf_completeError h.obuf_wf start e
  origins_old := origins_old_completeError h.origins_old start e
  zin_fits := by simpa using h.zin_fits
  zin_closed := by simpa using h.zin_closed
  chunk_fits := by simpa using h.chunk_fits
  pend_cmd := by simp
  pend_done := by simp
  err_code := by simp
  rst_held := fun hr => by simp [h.released_of_pend hp] at hr

/-- The engine's turn keeps the invariant (20_memory.md R63). -/
theorem engineTurn {t : State} (h : Inv s) (ht : engineTurn s = .next t) : Inv t := by
  rcases engineTurn_cases ht with ⟨-, rfl⟩ | ⟨hp, ⟨u, hu, rfl⟩ | ⟨start, e, rfl⟩⟩
  · exact h
  · exact h.completeOk hp hu
  · exact h.completeError hp start e

/-! ### Resets -/

/-- Soft reset (70_reset_and_hazards.md R143). -/
theorem softReset (h : Inv s) : Inv s.softReset := by
  cases hp : s.pend with
  | none =>
    rw [softReset_idle hp]
    exact inv_resetRegs h.obuf_wf h.origins_old
  | some w =>
    rw [softReset_busy hp]
    exact inv_of_resetRegs_eq rfl (wf_discardObuf h.obuf_wf w) (origins_old_discardObuf h.origins_old w)

/-- RST driven to a level (R142). -/
theorem driveRst (h : Inv s) (level : Bool) : Inv (s.driveRst level) := by
  rcases driveRst_cases s level with hd | ⟨-, hd⟩
  · rw [hd]
    exact inv_of_resetRegs_eq rfl (Memory.wf_forget h.obuf_wf le_rfl)
      (Memory.draws_forget (fun o ho => Nat.le_succ_of_le (h.origins_old o ho)) le_rfl)
  · rwa [hd]

/-! ### Host accesses, RST released -/

/-- A host access may leave any response and make draws (20_memory.md R55, R57). -/
theorem withResp (h : Inv s) (hr : s.rst = false) (b : Option BusResp) {d : Nat} (hd : s.draws ≤ d) :
    Inv { s with resp := b, draws := d } :=
  { h with
    origins_old := fun o ho => (h.origins_old o ho).trans hd
    rst_held := fun hr' => by simp [hr] at hr' }

theorem hostRead (h : Inv s) (hr : s.rst = false) (addr : Word) (size : Size) : Inv (s.hostRead addr size) :=
  h.withResp hr _ (by split_ifs <;> omega)

/-- A CTRL write: a soft reset, or new flags (10_state.md R22 to R25). -/
theorem writeCtrl (h : Inv s) (hr : s.rst = false) (v : Word) : Inv (s.writeCtrl v) := by
  cases hv : v.getLsbD 0 with
  | true => exact writeCtrl_srst hv ▸ h.softReset
  | false =>
    rw [writeCtrl_fields hv]
    refine { h with pend_done := fun hp => ?_, err_code := ?_, rst_held := fun hr' => by simp [hr] at hr' }
    · simp [h.pend_done hp]
    · cases v.getLsbD 1 <;> simp [h.err_code]

/-- Issue: CMD shows the word, and DONE is 0 (20_memory.md R60). -/
theorem issue (h : Inv s) (hr : s.rst = false) (w : Word) : Inv (s.issue w) :=
  { h with
    pend_cmd := fun _ hw => Option.some.inj hw
    pend_done := fun _ => rfl
    rst_held := fun hr' => by simp [hr] at hr' }

/-- Any register write: but for CMD and CTRL it touches nothing that the invariant speaks of (R61, 10_state.md R33 to
R41). -/
theorem writeReg (h : Inv s) (hr : s.rst = false) (r : Reg) (v : Word) : Inv (s.writeReg r v) := by
  have held {t : State} (ht : t.rst = s.rst) : t.rst = true → t.resetRegs = t := fun hr' => by simp [ht, hr] at hr'
  unfold State.writeReg
  split_ifs <;> cases r
  case pos.ctrl | neg.ctrl => exact h.writeCtrl hr v
  case neg.cmd => exact h.issue hr v
  all_goals exact { h with rst_held := held rfl }

theorem hostWrite (h : Inv s) (hr : s.rst = false) (addr : Word) (size : Size) (v : Word) :
    Inv (s.hostWrite addr size v) := by
  rcases hostWrite_cases s addr size v with ⟨r, -, hw⟩ | hw
  · rw [hw]
    exact (h.writeReg hr r v).withResp ((writeReg_frame s r v).2.trans hr) _ le_rfl
  · rw [hw]
    exact h.withResp hr _ le_rfl

/-- Every step keeps the invariant, event by event. -/
theorem step {t : State} (h : Inv s) (ht : step s = .next t) : Inv t := by
  rcases step_cases ht with ht | ⟨addr, size, hr, rfl⟩ | ⟨addr, size, v, rest, -, hr, rfl⟩ | ⟨level, rfl⟩
  · exact h.popped.engineTurn ht
  · exact h.popped.hostRead hr addr size
  · exact h.popped.hostWrite hr addr size v
  · exact h.popped.driveRst level

end Inv

/-- Settles O8: each event keeps the invariant, and none writes the build. -/
theorem stepKeepsInvariant : Obligations.StepKeepsInvariant := fun _ _ h ht => ⟨h.step ht, step_build ht⟩

end Sys2Proof.Machine

/-! Host writes and idle reads of the registers (O45 to O50, O53): each is the step on a bus access of the register, with the
register's rule (10_state.md R17 to R44, 20_memory.md R60, R61, 70_reset_and_hazards.md R143). -/

namespace Sys2Proof.Machine

/-! ### The step on `wr` -/

section
variable {s : State} {v : Word} {rest : List Event}

theorem step_wr_idle {r : Reg} (hp : s.pend = none) (hr : s.rst = false) (ha : s.agenda = wr r v :: rest) :
    step s = .next { ({ s with agenda := rest } : State).writeIdle r v with resp := some .done } := by
  rw [step_wr hr ha, ← writeReg_idle (s := { s with agenda := rest }) hp]

theorem step_wr_busy {r : Reg} (hp : s.pend ≠ none) (hr : s.rst = false) (ha : s.agenda = wr r v :: rest) :
    step s = .next { ({ s with agenda := rest } : State).writeBusy r v with resp := some .done } := by
  rw [step_wr hr ha, ← writeReg_busy (s := { s with agenda := rest }) hp]

theorem step_wr_ctrl (hr : s.rst = false) (ha : s.agenda = wr .ctrl v :: rest) :
    step s = .next { ({ s with agenda := rest } : State).writeCtrl v with resp := some .done } := by
  rw [step_wr hr ha, writeReg_ctrl]

end

/-! ### Issue and idle writes -/

/-- Settles O45: an idle write of CMD is issue. -/
theorem cmdWriteIssues : Obligations.CmdWriteIssues := by
  intro s w rest hp hr ha
  exact ⟨step_wr_idle hp hr ha, rfl⟩

/-- A register write that leaves a command pending where none was is issue of that word (20_memory.md R60). -/
theorem issued_of_writeReg {s : State} {r : Reg} {v w : Word} (hp : s.pend = none) (h : (s.writeReg r v).pend = some w) :
    r = .cmd ∧ v = w := by
  rw [writeReg_idle hp] at h
  cases r
  case cmd => exact ⟨rfl, Option.some.inj h⟩
  case ctrl =>
    replace h : (s.writeCtrl v).pend = some w := h
    cases hv : v.getLsbD 0 with
    | true => simp [writeCtrl_srst hv, softReset_idle hp] at h
    | false => simp [writeCtrl_fields hv, hp] at h
  all_goals exact absurd (h.symm.trans hp) (Option.some_ne_none w)

/-- Settles O46: of the events only a register write can leave a new pending word, and only that of CMD. -/
theorem onlyCmdWritesIssue : Obligations.OnlyCmdWritesIssue := by
  intro s t w hp h ht
  have hidle : t.pend ≠ none := by simp [ht]
  rcases step_cases h with h | ⟨addr, size, -, rfl⟩ | ⟨addr, size, v, rest, ha, -, rfl⟩ | ⟨level, rfl⟩
  · rcases engineTurn_cases h with ⟨-, rfl⟩ | ⟨hbusy, -⟩
    · exact absurd hp hidle
    · exact absurd hp hbusy
  · exact absurd hp hidle
  · rcases hostWrite_cases s.popped addr size v with ⟨r, he, hw⟩ | hw
    · rw [hw] at ht
      obtain ⟨rfl, rfl⟩ := issued_of_writeReg (s := s.popped) hp ht
      exact ⟨rest, he ▸ ha⟩
    · rw [hw] at hidle
      exact absurd hp hidle
  · rcases driveRst_cases s.popped level with hd | ⟨-, hd⟩
    · rw [hd] at hidle
      exact absurd rfl hidle
    · rw [hd] at hidle
      exact absurd hp hidle

/-- Settles O47: the write action of each register but CMD and CTRL. -/
theorem idleRegisterWrites : Obligations.IdleRegisterWrites := by
  intro s r v rest hp hr ha hcmd hctrl
  rw [step_wr_idle hp hr ha]
  cases r
  case cmd => exact absurd rfl hcmd
  case ctrl => exact absurd rfl hctrl
  all_goals rfl

/-- Settles O48: while busy the operand registers only report the overrun. -/
theorem busyWritesAreIgnored : Obligations.BusyWritesAreIgnored := by
  intro s r v rest hp hr ha hctrl
  rw [step_wr_busy hp hr ha]
  cases r
  case ctrl => exact absurd rfl hctrl
  all_goals rfl

/-! ### CTRL -/

/-- Settles O49: a CTRL write without SRST, field by field. -/
theorem ctrlWriteFields : Obligations.CtrlWriteFields := by
  intro s v rest hr ha hv
  rw [step_wr_ctrl hr ha, writeCtrl_fields hv]
  cases s.pend <;> simp [State.busy, ZMode.written]

/-! ### The pending word as a command (30_encoding.md R71) -/

theorem nForm_ok {imm : Byte} {i j : Instr} (h : nForm imm i = .ok j) : imm = 0 ∧ j = i := by
  unfold nForm at h
  split_ifs at h with himm
  exact ⟨himm, (Except.ok.inj h).symm⟩

/-- A row of the opcode map gives its command with the row's OP value and the word's IMM8. -/
theorem decodeOp_ok {op : Nat} {imm : Byte} {i : Instr} (h : decodeOp op imm = .ok i) :
    (opcode i).toNat = op ∧ immOf i = imm := by
  unfold decodeOp at h
  split at h
  case h_21 => exact absurd h (by simp)
  case h_3 | h_6 | h_8 | h_13 =>
    cases h
    exact ⟨rfl, rfl⟩
  all_goals
    obtain ⟨rfl, rfl⟩ := nForm_ok h
    exact ⟨rfl, rfl⟩

theorem toNat_append_eq_add {m n : Nat} (x : BitVec m) (y : BitVec n) : (x ++ y).toNat = x.toNat * 2 ^ n + y.toNat := by
  rw [BitVec.toNat_append, ← Nat.shiftLeft_add_eq_or_of_lt y.isLt, Nat.shiftLeft_eq]

/-- The three fields are the whole word (R68). -/
theorem fields_append (w : Word) : (mbzField w ++ immField w ++ opField w : BitVec (16 + 8 + 8)) = w := by
  apply BitVec.eq_of_toNat_eq
  simp only [mbzField, immField, opField, toNat_append_eq_add, BitVec.extractLsb'_toNat, Nat.shiftRight_eq_div_pow]
  omega

/-- A word that decodes to a command is the command's word. -/
theorem eq_encode_of_decode {w : Word} {i : Instr} (h : decode w = .ok i) : w = encode i := by
  unfold decode at h
  split_ifs at h with hmbz
  obtain ⟨hop, himm⟩ := decodeOp_ok h
  have hword := fields_append w
  rw [hmbz] at hword
  rw [encode, himm, BitVec.eq_of_toNat_eq hop]
  exact hword.symm

theorem decode_encode_word {w : Word} : decode w = .ok .encode ↔ w = 0x0000003F#32 :=
  ⟨eq_encode_of_decode, by rintro rfl; rfl⟩

theorem decode_chunkEnd_word {w : Word} : decode w = .ok .chunkEnd ↔ w = 0x00000013#32 :=
  ⟨eq_encode_of_decode, by rintro rfl; rfl⟩

/-! ### Soft reset -/

theorem Memory.read_forget_from {m : Memory} {lo hi draw x : Nat} (h : x < hi) :
    (m.forget lo hi draw).read x = if lo ≤ x then Config.freeObufByte draw x else m.read x := by
  split_ifs with hlo
  · exact Memory.read_forget_inside hlo h
  · exact Memory.read_forget_outside (by omega)

/-- What OBUF holds after a soft reset that discards the pending word `w` (70_reset_and_hazards.md R143). -/
theorem read_discardObuf (s : State) (w : Word) {a : Nat} (h : a < s.build.obufSize) :
    (s.discardObuf w).read a =
      if s.pendStart w ≤ a ∨ (decode w = .ok .chunkEnd ∧ s.cstart.toNat ≤ a ∧ a ≤ s.cstart.toNat + 3)
      then Config.freeObufByte (s.draws + 1) a else s.obuf.read a := by
  unfold State.discardObuf
  by_cases hend : decode w = .ok .chunkEnd
  · rw [if_pos hend]
    by_cases hpatch : s.cstart.toNat ≤ a ∧ a < s.cstart.toNat + 4
    · rw [Memory.read_forget_inside hpatch.1 (by omega), if_pos (.inr ⟨hend, by omega⟩)]
    · rw [Memory.read_forget_outside (by omega), Memory.read_forget_from h]
      simp only [hend, true_and]
      refine if_congr ?_ rfl rfl
      omega
  · simp [hend, Memory.read_forget_from h]

/-- Settles O50: the register reset, and what of OBUF the discarded command may have written. -/
theorem softResetByCtrlWrite : Obligations.SoftResetByCtrlWrite := by
  intro s v rest hr ha hv
  rw [step_wr_ctrl hr ha, writeCtrl_srst hv]
  obtain ⟨-, hrst, hagenda⟩ := softReset_frame { s with agenda := rest }
  refine ⟨_, rfl, atReset_of_resetRegs_eq ?_, hagenda, rfl, hrst.trans hr, fun hp => ?_, fun w hp => ?_⟩
  · exact congrArg (fun t : State => { t with resp := some .done }) (resetRegs_softReset { s with agenda := rest })
  · rw [softReset_idle (s := { s with agenda := rest }) hp]
    exact ⟨rfl, rfl⟩
  · rw [softReset_busy (s := { s with agenda := rest }) hp]
    refine ⟨rfl, fun a h => ?_⟩
    have hread := read_discardObuf { s with agenda := rest } w h
    simp only [State.pendStart, decode_encode_word, decode_chunkEnd_word] at hread
    exact hread

/-! ### Idle reads -/

theorem readReg_idle {s : State} (h : s.pend = none) (r : Reg) : s.readReg r = s.regValue r := by
  simp [State.readReg, busy_eq_false h]

/-- The step on an idle `rd REG`: the register's exact value, and nothing else changed (20_memory.md R55). -/
theorem step_rd_idle {s : State} {r : Reg} {rest : List Event} (hp : s.pend = none) (hr : s.rst = false)
    (ha : s.agenda = rd r :: rest) :
    step s = .next { s with agenda := rest, resp := some (.data (s.regValue r)) } := by
  rw [step_rd hr ha, readReg_idle (s := { s with agenda := rest }) hp, busy_eq_false hp]
  cases r <;> rfl

/-- CTRL as a number (10_state.md R25). -/
theorem ctrlWord_toNat (s : State) :
    s.ctrlWord.toNat = (if s.zmode = .fixed then 1 else 0) * 2 ^ 4 + s.irqen.toNat * 2 ^ 2 := by
  unfold State.ctrlWord
  cases s.zmode <;> cases s.irqen <;> rfl

/-- STATUS as a number, bit by bit (R31). -/
theorem statusWord_toNat (s : State) :
    s.statusWord.toNat = (errField s.errcode).toNat * 2 ^ 8 + s.zopen.toNat * 2 ^ 5 + s.copen.toNat * 2 ^ 4 +
      s.ovr.toNat * 2 ^ 3 + s.err.toNat * 2 ^ 2 + s.done.toNat * 2 + s.busy.toNat := by
  simp only [State.statusWord, State.statusWith, toNat_append_eq_add, BitVec.toNat_ofBool, BitVec.toNat_ofNat]
  omega

/-- Settles O53: the value that each register's rule gives. -/
theorem idleRegisterReads : Obligations.IdleRegisterReads := by
  intro s r rest hp hr ha
  refine ⟨_, step_rd_idle hp hr ha, ?_⟩
  have hobuf := s.build.obuf_range
  have hzin := s.build.zin_range
  cases r
  case ctrl => exact ctrlWord_toNat s
  case status =>
    show s.statusWord.toNat = _
    rw [statusWord_toNat, busy_eq_false hp]
    rcases s.errcode with _ | ⟨⟨⟩⟩ <;> simp [errField, CmdError.code]
  case color =>
    show (s.color.setWidth 32).toNat = _
    exact BitVec.toNat_setWidth_of_le (by decide)
  case obufsz => exact Nat.mod_eq_of_lt (by omega)
  case zinmax => exact Nat.mod_eq_of_lt (by omega)
  all_goals rfl

/-! ### The interrupt line (60_exceptions.md R130, R131) -/

/-- A completion, with or without error, sets DONE or ERR. -/
theorem irq_of_exec {i : Instr} {s t : State} (h : exec i s = .next t) : t.irq = s.irqen := by
  rcases exec_cases h with ⟨u, hu, rfl⟩ | ⟨e, -, rfl⟩
  · simp [State.irq, (bodyOf_frame hu).irqen]
  · simp [State.irq]

/-- So does every turn of the engine that finds a word pending, an illegal one too (30_encoding.md R72). -/
theorem irq_of_engineTurn {s t : State} (hp : s.pend ≠ none) (h : engineTurn s = .next t) :
    t.pend = none ∧ t.irq = s.irqen := by
  rcases engineTurn_cases h with ⟨hidle, -⟩ | ⟨-, ⟨u, hu, rfl⟩ | ⟨start, e, rfl⟩⟩
  · exact absurd hidle hp
  · simp [State.irq, hu.irqen]
  · simp [State.irq]

/-- Settles O59: a completion raises IRQ where it is enabled, and issue with ERR = 0 lowers it. -/
theorem completionDrivesIrq : Obligations.CompletionDrivesIrq := by
  refine ⟨fun i s t => irq_of_exec, fun s t w hp => irq_of_engineTurn (by simp [hp]), fun s t w rest hp ha h => ?_,
    fun s w he => ?_⟩
  · exact irq_of_engineTurn (s := s.popped) (by simp [State.popped, hp]) (step_engine ha ▸ h)
  · simp [State.irq, he]

end Sys2Proof.Machine

/-! What no command writes (O13, O14) and what none reads (O12): the frame of every command's pseudocode, the open flags that
it leaves, and the error that it raises, which is the first of the check order (60_exceptions.md R124 to R128). -/

namespace Sys2Proof.Machine

/-! ### Operands -/

/-- Settles O13: the pseudocode writes no operand, and completion only the completion bits. -/
theorem noCommandWritesOperands : Obligations.NoCommandWritesOperands := by
  intro i s t h
  rcases exec_cases h with ⟨u, hu, rfl⟩ | ⟨e, -, rfl⟩
  · have hf := bodyOf_frame hu
    exact ⟨hf.width, hf.height, hf.color, hf.data, hf.cmd, hf.irqen, hf.zmode, hf.ovr, hf.rst, hf.agenda, hf.resp,
      hf.build⟩
  · simp

/-! ### COPEN and ZOPEN (10_state.md R30) -/

/-- COPEN and ZOPEN are as before. -/
structure SameOpen (s t : State) : Prop where
  copen : t.copen = s.copen
  zopen : t.zopen = s.zopen

theorem SameOpen.trans {s t u : State} (h : SameOpen s t) (k : SameOpen t u) : SameOpen s u :=
  ⟨k.copen.trans h.copen, k.zopen.trans h.zopen⟩

theorem putAll_sameOpen {bs : List Byte} {s t : State} (h : putAll bs s = .ok t) : SameOpen s t := by
  obtain ⟨rfl, -⟩ := putAll_ok h
  exact ⟨rfl, rfl⟩

theorem put_eq_putAll (b : Byte) (s : State) : put b s = putAll [b] s := by
  rw [putAll]
  cases put b s <;> rfl

theorem chunkBegin_zopen {ty : List Byte} {s t : State} (h : chunkBegin ty s = .ok t) : t.zopen = s.zopen := by
  obtain ⟨u, hu, rfl⟩ := map_ok h
  exact (putAll_sameOpen hu).zopen

theorem chunkEnd_open {s t : State} (h : chunkEnd s = .ok t) : t.copen = false ∧ t.zopen = s.zopen := by
  obtain ⟨u, hu, hp⟩ := bind_ok h
  unfold patchLength at hp
  split_ifs at hp
  cases hp
  exact ⟨(putAll_sameOpen hu).copen, (putAll_sameOpen hu).zopen⟩

/-- A whole chunk closes what it opened. -/
theorem wholeChunk_sameOpen {ty p : List Byte} {s t : State} (hc : s.copen = false) (h : wholeChunk ty p s = .ok t) :
    SameOpen s t := by
  obtain ⟨u, hu, hend⟩ := bind_ok h
  obtain ⟨v, hv, hput⟩ := bind_ok hu
  obtain ⟨hcopen, hzopen⟩ := chunkEnd_open hend
  exact ⟨hcopen.trans hc.symm, hzopen.trans ((putAll_sameOpen hput).zopen.trans (chunkBegin_zopen hv))⟩

theorem sigBody_sameOpen {s t : State} (h : sigBody s = .ok t) : SameOpen s t := putAll_sameOpen (require_ok h).2

theorem ihdrBody_sameOpen {s t : State} (h : ihdrBody s = .ok t) : SameOpen s t := by
  obtain ⟨hopen, h⟩ := require_ok h
  exact wholeChunk_sameOpen (nothingOpen_iff.1 hopen).1 (require_ok h).2

theorem idatBody_sameOpen {s t : State} (h : idatBody s = .ok t) : SameOpen s t := by
  rw [idatBody_eq] at h
  obtain ⟨hopen, h⟩ := require_ok h
  have hs : SameOpen s (s.withAdler (adlerSeq 0x00000001#32 s.raw)) := ⟨rfl, rfl⟩
  exact hs.trans (wholeChunk_sameOpen (nothingOpen_iff.1 hopen).1 (require_ok h).2)

theorem iendBody_sameOpen {s t : State} (h : iendBody s = .ok t) : SameOpen s t := by
  obtain ⟨hopen, h⟩ := require_ok h
  exact wholeChunk_sameOpen (nothingOpen_iff.1 hopen).1 h

theorem encodeBody_sameOpen {s t : State} (h : encodeBody s = .ok t) : SameOpen s t := by
  obtain ⟨u, hu, h4⟩ := bind_ok (require_ok (require_ok h).2).2
  obtain ⟨v, hv, h3⟩ := bind_ok hu
  obtain ⟨w, hw, h2⟩ := bind_ok hv
  have h1 : SameOpen s { s with optr := 0 } := ⟨rfl, rfl⟩
  exact (((h1.trans (sigBody_sameOpen hw)).trans (ihdrBody_sameOpen h2)).trans (idatBody_sameOpen h3)).trans
    (iendBody_sameOpen h4)

theorem feedStream_ok {bs : List Byte} {s t : State} (h : feedStream bs s = .ok t) : t = s.feed bs := by
  obtain ⟨-, h⟩ := require_ok h
  obtain ⟨-, h⟩ := require_ok h
  exact (Except.ok.inj h).symm

/-- The pseudocode of a command moves only the open flag that the command is for. -/
theorem bodyOf_open {i : Instr} {s t : State} (h : bodyOf i s = .ok t) :
    (i ≠ .chunkBegin → i ≠ .chunkEnd → t.copen = s.copen) ∧ (i ≠ .zBegin → i ≠ .zEnd → t.zopen = s.zopen) := by
  have both (hs : SameOpen s t) : (i ≠ .chunkBegin → i ≠ .chunkEnd → t.copen = s.copen) ∧
      (i ≠ .zBegin → i ≠ .zEnd → t.zopen = s.zopen) := ⟨fun _ _ => hs.copen, fun _ _ => hs.zopen⟩
  cases i <;> simp only [bodyOf] at h
  case putByte imm => exact both (putAll_sameOpen (put_eq_putAll imm s ▸ h))
  case putWord => exact both (putAll_sameOpen h)
  case chunkBegin => exact ⟨fun hne => absurd rfl hne, fun _ _ => chunkBegin_zopen (require_ok h).2⟩
  case chunkEnd => exact ⟨fun _ hne => absurd rfl hne, fun _ _ => (chunkEnd_open (require_ok h).2).2⟩
  case zBegin =>
    cases (require_ok h).2
    exact ⟨fun _ _ => rfl, fun hne => absurd rfl hne⟩
  case zByte | zWord =>
    rw [feedStream_ok h] at both ⊢
    exact both ⟨State.feed_copen .., State.feed_zopen ..⟩
  case zEnd =>
    obtain ⟨u, hu, rfl⟩ := map_ok (require_ok h).2
    exact ⟨fun _ _ => (putAll_sameOpen hu).copen, fun _ hne => absurd rfl hne⟩
  case emitSig => exact both (sigBody_sameOpen h)
  case emitIhdr => exact both (ihdrBody_sameOpen h)
  case emitIdat => exact both (idatBody_sameOpen h)
  case emitIend => exact both (iendBody_sameOpen h)
  case encode => exact both (encodeBody_sameOpen h)
  all_goals
    cases h
    exact both ⟨rfl, rfl⟩

/-- Settles O14: an error keeps both flags, and success moves them as the pseudocode does. -/
theorem onlyOpenAndCloseCommandsMoveTheOpenFlags : Obligations.OnlyOpenAndCloseCommandsMoveTheOpenFlags := by
  intro i s t h
  rcases exec_cases h with ⟨u, hu, rfl⟩ | ⟨e, -, rfl⟩
  · simpa using bodyOf_open hu
  · simp

/-! ### What the parts of a command raise -/

theorem raise_inj {e e' : CmdError} : raise e = raise e' ↔ e = e' := by simp [raise]

theorem ok_ne_raise (s : State) (e : CmdError) : (.ok s : Run) ≠ raise e := nofun

theorem fault_ne_raise (f : Fault) (e : CmdError) : (.error (.fault f) : Run) ≠ raise e := by simp [raise]

theorem require_raise_iff {c : Bool} {e e' : CmdError} {r : Unit → Run} :
    require c e' r = raise e ↔ (c = false ∧ e = e') ∨ (c = true ∧ r () = raise e) := by
  cases c <;> simp [raise_inj, eq_comm]

/-- A run that raises OFLOW exactly under `p` and nothing else (60_exceptions.md R127). -/
theorem raise_iff_oflow {r : Run} {p : Prop} {e : CmdError} (hp : p → r = raise .oflow)
    (hn : ¬ p → ∀ e, r ≠ raise e) :
    r = raise e ↔ p ∧ e = .oflow := by
  by_cases h : p
  · simp [h, hp h, raise_inj, eq_comm]
  · simp [h, hn h e]

theorem putAll_raise_iff {bs : List Byte} {s : State} {e : CmdError} (hb : bs ≠ []) :
    putAll bs s = raise e ↔ s.build.obufSize < s.optr.toNat + bs.length ∧ e = .oflow := by
  refine raise_iff_oflow (putAll_overflows bs hb) fun h => ?_
  rw [putAll_fits bs (by omega)]
  exact ok_ne_raise _

theorem chunkBegin_raise_iff {t : List Byte} {s : State} {e : CmdError} :
    chunkBegin t s = raise e ↔ s.build.obufSize < s.optr.toNat + (4 + t.length) ∧ e = .oflow := by
  refine raise_iff_oflow chunkBegin_overflows fun h => ?_
  rw [chunkBegin_fits (by omega)]
  exact ok_ne_raise _

theorem chunkEnd_raise_iff {s : State} {e : CmdError} :
    chunkEnd s = raise e ↔ s.build.obufSize < s.optr.toNat + 4 ∧ e = .oflow := by
  refine raise_iff_oflow chunkEnd_overflows fun h => ?_
  by_cases hc : s.cstart.toNat + 3 < s.build.obufSize
  · rw [chunkEnd_fits (by omega) hc]
    exact ok_ne_raise _
  · rw [chunkEnd_outside (by omega) (by omega)]
    exact fault_ne_raise _

theorem wholeChunk_raise_iff {t p : List Byte} {s : State} {e : CmdError} :
    wholeChunk t p s = raise e ↔ s.build.obufSize < s.optr.toNat + (8 + t.length + p.length) ∧ e = .oflow := by
  refine raise_iff_oflow wholeChunk_overflows fun h => ?_
  rw [wholeChunk_eq (by omega)]
  exact ok_ne_raise _

/-! ### The four bodies of ENCODE (40_png_encoder.md R85) -/

/-- The checks of the PNG commands pass, and `z` is the stream of the image. -/
structure ImageReady (z : List Byte) (s : State) : Prop where
  closed : s.nothingOpen = true
  dims : s.dimsOk = true
  stream : imageStream s = z

/-- A run that keeps the operands and the open flags leaves the next PNG command as ready as the one before it. -/
theorem ImageReady.of_frame {z : List Byte} {s t : State} (h : ImageReady z s) (hf : BodyFrame s t) (ho : SameOpen s t) :
    ImageReady z t where
  closed := by simpa [State.nothingOpen, ho.copen, ho.zopen] using h.closed
  dims := by simpa [State.dimsOk, hf.width, hf.height] using h.dims
  stream := by simpa [imageStream, State.raw, hf.zmode, hf.width, hf.height, hf.color] using h.stream

/-- From every state that is ready, `body` emits `n` bytes and leaves the next step ready, or overflows. -/
structure Emits (z : List Byte) (body : State → Run) (n : Nat) : Prop where
  fits : ∀ s, ImageReady z s → s.optr.toNat + n ≤ s.build.obufSize →
    ∃ u, body s = .ok u ∧ ImageReady z u ∧ u.optr.toNat = s.optr.toNat + n ∧ u.build = s.build
  overflows : ∀ s, ImageReady z s → s.build.obufSize < s.optr.toNat + n → body s = raise .oflow

/-- Two steps in a row emit the bytes of both. -/
theorem Emits.bind {z : List Byte} {f g : State → Run} {m n : Nat} (hf : Emits z f m) (hg : Emits z g n) :
    Emits z (fun s => (f s).bind g) (m + n) where
  fits s hs h := by
    obtain ⟨u, hu, hready, hptr, hbuild⟩ := hf.fits s hs (by omega)
    obtain ⟨v, hv, hready', hptr', hbuild'⟩ := hg.fits u hready (by rw [hbuild]; omega)
    exact ⟨v, by simp [hu, hv, Except.bind], hready', by omega, hbuild'.trans hbuild⟩
  overflows s hs h := by
    by_cases hm : s.optr.toNat + m ≤ s.build.obufSize
    · obtain ⟨u, hu, hready, hptr, hbuild⟩ := hf.fits s hs hm
      simp only [hu, Except.bind]
      exact hg.overflows u hready (by rw [hbuild]; omega)
    · simp only [hf.overflows s hs (by omega)]
      rfl

theorem emits_sigBody (z : List Byte) : Emits z sigBody 8 where
  fits s hs h := by
    have hroom : s.optr.toNat + pngSignature.length ≤ s.build.obufSize := h
    have hput := putAll_fits pngSignature hroom
    exact ⟨_, by rw [sigBody, hs.closed, require_true, hput], hs.of_frame (putAll_frame hput) (putAll_sameOpen hput),
      emitted_optr hroom, rfl⟩
  overflows s hs h := by
    rw [sigBody, hs.closed, require_true, putAll_overflows pngSignature (by simp [pngSignature]) h]

/-- A body that, once its checks pass, is a whole chunk of `k` payload bytes; no put reads ADLER (R82 to R84). -/
theorem emits_wholeChunk {z t : List Byte} {body : State → Run} {k : Nat} (ht : t.length = 4)
    (hbody : ∀ s, ImageReady z s → ∃ p a, p.length = k ∧ body s = wholeChunk t p (s.withAdler a)) :
    Emits z body (12 + k) where
  fits s hs h := by
    obtain ⟨p, a, rfl, hp⟩ := hbody s hs
    have hready : ImageReady z (s.withAdler a) := ⟨hs.closed, hs.dims, hs.stream⟩
    have hc := (nothingOpen_iff.1 hready.closed).1
    have hlen : 8 + t.length + p.length = 12 + p.length := by rw [ht]
    have hroom : (s.withAdler a).optr.toNat + (8 + t.length + p.length) ≤ (s.withAdler a).build.obufSize := by
      rwa [hlen, State.withAdler_optr, State.withAdler_build]
    have hchunk := wholeChunk_eq hroom
    refine ⟨_, hp.trans hchunk, hready.of_frame (wholeChunk_frame ht hchunk) (wholeChunk_sameOpen hc hchunk), ?_,
      (wholeChunk_frame ht hchunk).build⟩
    rw [wroteChunk_optr hc hroom, hlen, State.withAdler_optr]
  overflows s hs h := by
    obtain ⟨p, a, rfl, hp⟩ := hbody s hs
    have hlen : 8 + t.length + p.length = 12 + p.length := by rw [ht]
    rw [hp]
    exact wholeChunk_overflows (by rwa [hlen, State.withAdler_optr, State.withAdler_build])

theorem emits_ihdrBody (z : List Byte) : Emits z ihdrBody 25 :=
  emits_wholeChunk (k := 13) (t := typeIhdr) rfl fun s hs =>
    ⟨ihdrPayload s.width s.height, s.adler, rfl, by rw [ihdrBody, hs.closed, hs.dims]; rfl⟩

theorem emits_idatBody (z : List Byte) : Emits z idatBody (12 + z.length) :=
  emits_wholeChunk (t := typeIdat) rfl fun s hs =>
    ⟨imageStream s, _, congrArg _ hs.stream, by rw [idatBody_eq, hs.closed, hs.dims]; rfl⟩

theorem emits_iendBody (z : List Byte) : Emits z iendBody 12 :=
  emits_wholeChunk (k := 0) (t := typeIend) rfl fun s hs => ⟨[], s.adler, rfl, by rw [iendBody, hs.closed]; rfl⟩

/-- ENCODE's four bodies from OPTR 0, its checks passed. -/
theorem documentBodies_raise_iff {s : State} {e : CmdError} (hopen : s.nothingOpen = true) (hdims : s.dimsOk = true) :
    (((sigBody { s with optr := 0 }).bind ihdrBody).bind idatBody).bind iendBody = raise e ↔
      s.build.obufSize < 0 + (57 + (imageStream s).length) ∧ e = .oflow := by
  have hemits := (((emits_sigBody (imageStream s)).bind (emits_ihdrBody _)).bind (emits_idatBody _)).bind (emits_iendBody _)
  have hs : ImageReady (imageStream s) { s with optr := 0 } := ⟨hopen, hdims, rfl⟩
  have hsum : 8 + 25 + (12 + (imageStream s).length) + 12 = 57 + (imageStream s).length := by omega
  rw [hsum] at hemits
  refine raise_iff_oflow (hemits.overflows _ hs) fun h => ?_
  obtain ⟨u, hu, -⟩ := hemits.fits _ hs (Nat.le_of_not_lt h)
  rw [hu]
  exact ok_ne_raise u

/-! ### The check order (60_exceptions.md R124) -/

/-- A run raises the error `x` and no other; none: it raises nothing. -/
def Raises (r : Run) (x : Option CmdError) : Prop := ∀ e, r = raise e ↔ x = some e

/-- The error of the last check, OFLOW (R127). -/
def oflowError (i : Instr) (s : State) : Option CmdError :=
  if emitCount i s ≠ 0 ∧ s.build.obufSize < startOf i s + emitCount i s then some .oflow else none

/-- The error of the checks from ZFULL on. -/
def zfullError (i : Instr) (s : State) : Option CmdError :=
  if zinNeed i ≠ 0 ∧ s.build.zinMax < s.zin.length + zinNeed i then some .zfull else oflowError i s

/-- The error of the checks from PARAM on. -/
def paramError (i : Instr) (s : State) : Option CmdError :=
  if checksDims i = true ∧ ¬ dimsInRange s then some .param else zfullError i s

theorem expectedError_eq (i : Instr) (s : State) :
    expectedError i s = if seqAllowed i s = false then some .seq else paramError i s := rfl

namespace Raises

variable {r : Run} {i : Instr} {s : State}

/-- A check of the run comes before what the rest of the run raises. -/
theorem check {c : Bool} {p : Prop} [Decidable p] {e : CmdError} {rest : Unit → Run} {x : Option CmdError}
    (hp : p ↔ c = false) (h : c = true → Raises (rest ()) x) :
    Raises (require c e rest) (if p then some e else x) := by
  cases c with
  | false => simp [Raises, hp, raise_inj]
  | true => simpa [hp] using h rfl

theorem seq {c : Bool} {rest : Unit → Run} (hc : seqAllowed i s = c) (h : c = true → Raises (rest ()) (paramError i s)) :
    Raises (require c .seq rest) (expectedError i s) :=
  check (by rw [hc]) h

/-- A command allowed whatever is open. -/
theorem noSeq (hi : seqAllowed i s = true) (h : Raises r (paramError i s)) : Raises r (expectedError i s) := by
  rwa [expectedError_eq, if_neg (by simp [hi])]

theorem param {rest : Unit → Run} (hi : checksDims i = true) (h : s.dimsOk = true → Raises (rest ()) (zfullError i s)) :
    Raises (require s.dimsOk .param rest) (paramError i s) :=
  check (by simp [hi, ← dimsOk_iff]) h

theorem noParam (hi : checksDims i = false) (h : Raises r (zfullError i s)) : Raises r (paramError i s) := by
  rwa [paramError, if_neg (by simp [hi])]

theorem noZfull (hi : zinNeed i = 0) (h : Raises r (oflowError i s)) : Raises r (zfullError i s) := by
  rwa [zfullError, if_neg (by simp [hi])]

theorem oflow (hn : emitCount i s ≠ 0)
    (h : ∀ e, r = raise e ↔ s.build.obufSize < startOf i s + emitCount i s ∧ e = .oflow) :
    Raises r (oflowError i s) := by
  intro e
  by_cases hs : s.build.obufSize < startOf i s + emitCount i s <;> simp [oflowError, h, hn, hs, eq_comm]

/-- A command that emits nothing succeeds once its checks pass. -/
theorem done {t : State} (hn : emitCount i s = 0) : Raises (.ok t) (oflowError i s) := by
  intro e
  simp [oflowError, hn, raise]

/-- OFLOW is all that can be left to check. -/
theorem onlyOflow (hi : checksDims i = false) (hz : zinNeed i = 0) (hn : emitCount i s ≠ 0)
    (h : ∀ e, r = raise e ↔ s.build.obufSize < startOf i s + emitCount i s ∧ e = .oflow) :
    Raises r (paramError i s) :=
  noParam hi (noZfull hz (oflow hn h))

/-- Nothing is left to check. -/
theorem nothing {t : State} (hi : checksDims i = false) (hz : zinNeed i = 0) (hn : emitCount i s = 0) :
    Raises (.ok t) (paramError i s) :=
  noParam hi (noZfull hz (done hn))

/-- Z_BYTE and Z_WORD: the bytes must fit in ZIN (42_deflate.md R104, R105). -/
theorem feed {bs : List Byte} (hz : zinNeed i = bs.length) (hb : bs ≠ []) (hn : emitCount i s = 0) :
    Raises (require (decide (s.zin.length + bs.length ≤ s.build.zinMax)) .zfull fun _ => .ok (s.feed bs))
      (zfullError i s) :=
  check (by simp [hz, hb]) fun _ => done hn

end Raises

theorem map_raise_iff {r : Run} {f : State → State} {e : CmdError} : r.map f = raise e ↔ r = raise e := by
  cases r <;> simp [Except.map, raise]

theorem seqAllowed_nothingOpen (s : State) : (s.copen == false && s.zopen == false) = s.nothingOpen := by
  simp [State.nothingOpen]

/-- A command's pseudocode raises exactly the error that the check order expects. -/
theorem bodyOf_raises (i : Instr) (s : State) : Raises (bodyOf i s) (expectedError i s) := by
  have hopen := seqAllowed_nothingOpen s
  have hz : zlibStream s.zmode s.zin s.adler ≠ [] := by simp [zlibStream]
  have hput {b : Byte} {bs : List Byte} : b :: bs ≠ [] := nofun
  cases i <;> simp only [bodyOf]
  case putByte imm =>
    rw [put_eq_putAll]
    exact .noSeq rfl (.onlyOflow rfl rfl (by simp [emitCount]) fun _ => putAll_raise_iff hput)
  case putWord => exact .noSeq rfl (.onlyOflow rfl rfl (by simp [emitCount]) fun _ => putAll_raise_iff hput)
  case chunkBegin => exact .seq hopen fun _ => .onlyOflow rfl rfl (by simp [emitCount]) fun _ => chunkBegin_raise_iff
  case chunkEnd =>
    exact .seq (by simp [seqAllowed]) fun _ => .onlyOflow rfl rfl (by simp [emitCount]) fun _ => chunkEnd_raise_iff
  case zBegin => exact .seq (by simp [seqAllowed]) fun _ => .nothing rfl rfl rfl
  case zByte | zWord => exact .seq (by simp [seqAllowed]) fun _ => .noParam rfl (.feed rfl hput rfl)
  case zEnd =>
    exact .seq (by simp [seqAllowed]) fun _ => .onlyOflow rfl rfl (by simpa [emitCount] using hz) fun _ =>
      map_raise_iff.trans (putAll_raise_iff hz)
  case emitSig => exact .seq hopen fun _ => .onlyOflow rfl rfl (by simp [emitCount]) fun _ => putAll_raise_iff hput
  case emitIhdr =>
    exact .seq hopen fun _ => .param rfl fun _ => .noZfull rfl <| .oflow (by simp [emitCount]) fun _ => wholeChunk_raise_iff
  case emitIdat =>
    rw [idatBody_eq]
    exact .seq hopen fun _ => .param rfl fun _ => .noZfull rfl <| .oflow (by simp [emitCount]) fun _ => wholeChunk_raise_iff
  case emitIend => exact .seq hopen fun _ => .onlyOflow rfl rfl (by simp [emitCount]) fun _ => wholeChunk_raise_iff
  case encode =>
    exact .seq hopen fun ho => .param rfl fun hd => .noZfull rfl <| .oflow (by simp [emitCount]) fun _ =>
      documentBodies_raise_iff ho hd
  all_goals exact .noSeq rfl (.nothing rfl rfl rfl)

/-! ### No pseudocode reads the flags (R128) -/

/-- Other values in DONE, ERR, OVR and ERRCODE. -/
def State.withFlags (s : State) (d e o : Bool) (c : Option CmdError) : State :=
  { s with done := d, err := e, ovr := o, errcode := c }

/-- A run with its final state's flags replaced. -/
def Run.withFlags (d e o : Bool) (c : Option CmdError) (r : Run) : Run := r.map fun t => t.withFlags d e o c

section
variable {d e o : Bool} {c : Option CmdError}

theorem bind_withFlags {r : Run} {f : State → Run} (hf : ∀ u, f (u.withFlags d e o c) = Run.withFlags d e o c (f u)) :
    (Run.withFlags d e o c r).bind f = Run.withFlags d e o c (r.bind f) := by
  cases r with
  | error x => rfl
  | ok u => exact hf u

theorem require_withFlags {b : Bool} {x : CmdError} {f g : Unit → Run} (h : f () = Run.withFlags d e o c (g ())) :
    require b x f = Run.withFlags d e o c (require b x g) := by
  cases b with
  | false => rfl
  | true => exact h

theorem put_withFlags (b : Byte) (s : State) : put b (s.withFlags d e o c) = Run.withFlags d e o c (put b s) := by
  unfold put
  by_cases h : s.build.obufSize ≤ s.optr.toNat
  · rw [if_pos (by exact h), if_pos h]
    rfl
  · rw [if_neg (by exact h), if_neg h]
    cases hc : s.copen <;> simp [State.withFlags, Run.withFlags, Except.map, hc]

theorem putAll_withFlags (bs : List Byte) : ∀ s : State,
    putAll bs (s.withFlags d e o c) = Run.withFlags d e o c (putAll bs s) := by
  induction bs with
  | nil => intro s; rfl
  | cons b bs ih =>
    intro s
    rw [putAll, putAll, put_withFlags]
    exact bind_withFlags ih

theorem chunkBegin_withFlags (t : List Byte) (s : State) :
    chunkBegin t (s.withFlags d e o c) = Run.withFlags d e o c (chunkBegin t s) := by
  unfold chunkBegin
  rw [putAll_withFlags]
  cases putAll ([0, 0, 0, 0] ++ t) s <;> rfl

theorem patchLength_withFlags (s : State) :
    patchLength (s.withFlags d e o c) = Run.withFlags d e o c (patchLength s) := by
  unfold patchLength
  by_cases h : s.cstart.toNat + 3 < s.build.obufSize
  · rw [if_pos (by exact h), if_pos h]
    rfl
  · rw [if_neg (by exact h), if_neg h]
    rfl

theorem chunkEnd_withFlags (s : State) : chunkEnd (s.withFlags d e o c) = Run.withFlags d e o c (chunkEnd s) := by
  have hput := putAll_withFlags (d := d) (e := e) (o := o) (c := c) (be32 (crcFinal s.crc)) { s with copen := false }
  exact (congrArg (fun r : Run => r.bind patchLength) hput).trans (bind_withFlags patchLength_withFlags)

theorem wholeChunk_withFlags (t p : List Byte) (s : State) :
    wholeChunk t p (s.withFlags d e o c) = Run.withFlags d e o c (wholeChunk t p s) := by
  unfold wholeChunk
  rw [chunkBegin_withFlags, bind_withFlags (putAll_withFlags p), bind_withFlags chunkEnd_withFlags]

theorem sigBody_withFlags (s : State) : sigBody (s.withFlags d e o c) = Run.withFlags d e o c (sigBody s) :=
  require_withFlags (putAll_withFlags _ s)

theorem ihdrBody_withFlags (s : State) : ihdrBody (s.withFlags d e o c) = Run.withFlags d e o c (ihdrBody s) :=
  require_withFlags (require_withFlags (wholeChunk_withFlags _ _ s))

theorem idatBody_withFlags (s : State) : idatBody (s.withFlags d e o c) = Run.withFlags d e o c (idatBody s) := by
  rw [idatBody_eq, idatBody_eq]
  exact require_withFlags (require_withFlags (wholeChunk_withFlags _ _ (s.withAdler _)))

theorem iendBody_withFlags (s : State) : iendBody (s.withFlags d e o c) = Run.withFlags d e o c (iendBody s) :=
  require_withFlags (wholeChunk_withFlags _ _ s)

theorem encodeBody_withFlags (s : State) : encodeBody (s.withFlags d e o c) = Run.withFlags d e o c (encodeBody s) := by
  have hsig := sigBody_withFlags (d := d) (e := e) (o := o) (c := c) { s with optr := 0 }
  refine require_withFlags (require_withFlags ?_)
  rw [← bind_withFlags iendBody_withFlags, ← bind_withFlags idatBody_withFlags, ← bind_withFlags ihdrBody_withFlags,
    ← hsig]
  rfl

/-- With other flags the pseudocode ends in the same way, and in the same state but for those flags. -/
theorem bodyOf_withFlags (i : Instr) (s : State) :
    bodyOf i (s.withFlags d e o c) = Run.withFlags d e o c (bodyOf i s) := by
  cases i <;> simp only [bodyOf]
  case putByte imm => exact put_withFlags imm s
  case putWord => exact putAll_withFlags _ s
  case chunkBegin => exact require_withFlags (chunkBegin_withFlags _ s)
  case chunkEnd => exact require_withFlags (chunkEnd_withFlags s)
  case zBegin => exact require_withFlags rfl
  case zByte | zWord => exact require_withFlags (require_withFlags rfl)
  case zEnd =>
    refine require_withFlags ?_
    have hput := putAll_withFlags (d := d) (e := e) (o := o) (c := c) (zlibStream s.zmode s.zin s.adler)
      { s with zopen := false }
    refine (congrArg (fun r : Run => r.map fun t => { t with zin := [] }) hput).trans ?_
    cases putAll (zlibStream s.zmode s.zin s.adler) { s with zopen := false } <;> rfl
  case emitSig => exact sigBody_withFlags s
  case emitIhdr => exact ihdrBody_withFlags s
  case emitIdat => exact idatBody_withFlags s
  case emitIend => exact iendBody_withFlags s
  case encode => exact encodeBody_withFlags s
  all_goals rfl

theorem exec_withFlags_ok {i : Instr} {s u : State} (h : bodyOf i s = .ok u) :
    exec i (s.withFlags d e o c) = .next (u.withFlags d e o c).completeOk := by
  rw [exec_eq_finish, bodyOf_withFlags, h]
  rfl

theorem exec_withFlags_raise {i : Instr} {s : State} {x : CmdError} (h : bodyOf i s = raise x) :
    exec i (s.withFlags d e o c) = .next ((s.withFlags d e o c).completeError (startOf i s) x) := by
  rw [exec_eq_finish, bodyOf_withFlags, h]
  rfl

end

/-- Settles O12: the pseudocode does not see the flags, and what it raises is the error of the check order. -/
theorem flagsDoNotAffectCommands : Obligations.FlagsDoNotAffectCommands := by
  intro i s t d e o c h
  have hraises := bodyOf_raises i s
  rcases exec_cases h with ⟨u, hu, rfl⟩ | ⟨x, hx, rfl⟩
  · refine ⟨_, exec_withFlags_ok hu, rfl, fun _ => ⟨rfl, rfl, rfl⟩, fun x hx => ?_⟩
    exact absurd (hu.symm.trans ((hraises x).2 hx)) (ok_ne_raise u x)
  · have hexpected := (hraises x).1 hx
    refine ⟨_, exec_withFlags_raise hx, ?_, fun hn => ?_, fun y hy => ?_⟩
    · cases x <;> rfl
    · simp [hn] at hexpected
    · obtain rfl : x = y := by simpa [hexpected] using hy
      simp [State.withFlags]

end Sys2Proof.Machine

/-! The engine's turn as a step, and why no step from the invariant stops (O5, O6, O9): of all pseudocode only CHUNK_END's
length patch can fault, and the invariant keeps an open chunk's header inside OBUF (41_chunk_serializer.md R92). -/

namespace Sys2Proof.Machine

/-! ### The engine's turn (20_memory.md R63) -/

theorem engineTurn_idle {s : State} (hp : s.pend = none) : engineTurn s = .next s := by
  rw [engineTurn, hp]

theorem engineTurn_command {s : State} {w : Word} {i : Instr} (hp : s.pend = some w) (hw : decode w = .ok i) :
    engineTurn s = exec i s := by
  simp only [engineTurn, hp, hw]

theorem engineTurn_illegal {s : State} {w : Word} {e : Reject} (hp : s.pend = some w) (hw : decode w = .error e) :
    engineTurn s = .next (s.completeError s.optr.toNat .illegal) := by
  simp only [engineTurn, hp, hw, finish_raise]

/-- A listed event acts once it has left the agenda (log 3). -/
theorem step_cons {s : State} {e : Event} {rest : List Event} (ha : s.agenda = e :: rest) : step s = act e s.popped := by
  rw [popped_of_cons ha, step, actNext, ha]

/-- What the engine's turn does is the step on it, listed first, and on an empty agenda (log 3, log 4). -/
theorem step_of_engineTurn {s : State} {f : State → Host.Outcome State Fault Refusal}
    (h : ∀ a, engineTurn { s with agenda := a } = f { s with agenda := a }) :
    (∀ rest, s.agenda = .engine :: rest → step s = f { s with agenda := rest }) ∧ (s.agenda = [] → step s = f s) := by
  refine ⟨fun rest ha => ?_, fun ha => ?_⟩
  · rw [step_engine (.inr ha), popped_of_cons ha]
    exact h rest
  · rw [step_engine (rest := []) (.inl ha), popped_of_nil ha]
    exact h s.agenda

/-- Settles O5: the engine's turn on a word that decodes. -/
theorem stepRunsDecodedCommand : Obligations.StepRunsDecodedCommand :=
  fun _ _ _ hp hw => step_of_engineTurn fun _ => engineTurn_command hp hw

/-- Settles O6: the engine's turn with nothing pending. -/
theorem idleEngineHoldsState : Obligations.IdleEngineHoldsState :=
  fun _ hp => step_of_engineTurn fun _ => engineTurn_idle hp

/-! ### Runs that do not fault -/

/-- A run that ends in a state or raises an error, and does not fault. -/
def Faultless (r : Run) : Prop := (∃ t, r = .ok t) ∨ ∃ e, r = raise e

namespace Faultless

theorem ok (t : State) : Faultless (.ok t) := .inl ⟨t, rfl⟩

theorem raised (e : CmdError) : Faultless (raise e) := .inr ⟨e, rfl⟩

theorem require {c : Bool} {e : CmdError} {r : Unit → Run} (h : c = true → Faultless (r ())) :
    Faultless (require c e r) := by
  rcases require_cases c e r with ⟨hc, hr⟩ | ⟨-, hr⟩ <;> rw [hr]
  · exact h hc
  · exact raised e

theorem bind {r : Run} {f : State → Run} (hr : Faultless r) (hf : ∀ u, Faultless (f u)) : Faultless (r.bind f) := by
  rcases hr with ⟨u, rfl⟩ | ⟨e, rfl⟩
  · exact hf u
  · exact raised e

theorem map {r : Run} (hr : Faultless r) (f : State → State) : Faultless (r.map f) := by
  rcases hr with ⟨u, rfl⟩ | ⟨e, rfl⟩
  · exact ok (f u)
  · exact raised e

theorem putAll (bs : List Byte) (s : State) : Faultless (putAll bs s) :=
  (putAll_cases bs s).imp (fun h => ⟨_, h⟩) fun h => ⟨_, h⟩

theorem chunkBegin (t : List Byte) (s : State) : Faultless (chunkBegin t s) := (putAll _ s).map _

/-- CHUNK_END where the length patch is in range (41_chunk_serializer.md R92). -/
theorem chunkEnd {s : State} (h : s.cstart.toNat + 3 < s.build.obufSize) : Faultless (chunkEnd s) := by
  by_cases hfit : s.optr.toNat + 4 ≤ s.build.obufSize
  · exact .inl ⟨_, chunkEnd_fits hfit h⟩
  · exact .inr ⟨_, chunkEnd_overflows (by omega)⟩

/-- A whole chunk patches the header that it has itself emitted. -/
theorem wholeChunk (t p : List Byte) (s : State) : Faultless (wholeChunk t p s) := by
  by_cases hfit : s.optr.toNat + (8 + t.length + p.length) ≤ s.build.obufSize
  · exact .inl ⟨_, wholeChunk_eq hfit⟩
  · exact .inr ⟨_, wholeChunk_overflows (by omega)⟩

theorem sigBody (s : State) : Faultless (sigBody s) := require fun _ => putAll _ s

theorem ihdrBody (s : State) : Faultless (ihdrBody s) := require fun _ => require fun _ => wholeChunk _ _ s

theorem idatBody (s : State) : Faultless (idatBody s) := by
  rw [idatBody_eq]
  exact require fun _ => require fun _ => wholeChunk ..

theorem iendBody (s : State) : Faultless (iendBody s) := require fun _ => wholeChunk _ _ s

theorem encodeBody (s : State) : Faultless (encodeBody s) :=
  require fun _ => require fun _ => (((sigBody _).bind ihdrBody).bind idatBody).bind iendBody

/-- The engine step of a run that does not fault has a next state. -/
theorem finish {r : Run} (h : Faultless r) (s : State) (start : Nat) : ∃ t, finish s start r = .next t := by
  rcases h with ⟨t, rfl⟩ | ⟨e, rfl⟩
  · exact ⟨_, finish_ok s start t⟩
  · exact ⟨_, finish_raise s start e⟩

end Faultless

/-- No command faults where an open chunk's header is inside OBUF. -/
theorem bodyOf_faultless {s : State} (h : s.copen = true → s.cstart.toNat + 8 ≤ s.build.obufSize) (i : Instr) :
    Faultless (bodyOf i s) := by
  cases i <;> simp only [bodyOf]
  case putByte imm =>
    rw [put_eq_putAll]
    exact .putAll _ s
  case putWord => exact .putAll _ s
  case chunkBegin => exact .require fun _ => .chunkBegin _ s
  case chunkEnd =>
    refine .require fun hseq => .chunkEnd ?_
    have hheader := h (Bool.and_eq_true_iff.1 hseq).1
    omega
  case zBegin => exact .require fun _ => .ok _
  case zByte | zWord => exact .require fun _ => .require fun _ => .ok _
  case zEnd => exact .require fun _ => .map (.putAll ..) _
  case emitSig => exact .sigBody s
  case emitIhdr => exact .ihdrBody s
  case emitIdat => exact .idatBody s
  case emitIend => exact .iendBody s
  case encode => exact .encodeBody s
  all_goals exact .ok _

/-- From the invariant the engine's turn never stops: neither the patch fault nor a refusal is reached. -/
theorem engineTurn_next {s : State} (h : Inv s) : ∃ t, engineTurn s = .next t := by
  cases hp : s.pend with
  | none => exact ⟨s, engineTurn_idle hp⟩
  | some w =>
    cases hw : decode w with
    | error e => exact ⟨_, engineTurn_illegal hp hw⟩
    | ok i =>
      rw [engineTurn_command hp hw, exec_eq_finish]
      exact (bodyOf_faultless h.chunk_fits i).finish s _

/-- All that a host access can be (70_reset_and_hazards.md R142). -/
theorem whenReleased_cases (s t : State) :
    s.whenReleased t = .next t ∨ (s.rst = true ∧ s.whenReleased t = .fault .accessDuringReset) := by
  unfold State.whenReleased
  cases hr : s.rst with
  | false => exact .inl rfl
  | true => exact .inr ⟨rfl, rfl⟩

/-- Settles O9: the step by its event. -/
theorem stepStopsOnlyForAccessDuringReset : Obligations.StepStopsOnlyForAccessDuringReset := by
  intro s h
  have access (t : State) : (∃ u, s.popped.whenReleased t = .next u) ∨
      (s.rst = true ∧ s.popped.whenReleased t = .fault .accessDuringReset) :=
    (whenReleased_cases s.popped t).imp_left fun ht => ⟨t, ht⟩
  cases ha : s.agenda with
  | nil =>
    rw [step_engine (rest := []) (.inl ha)]
    exact .inl (engineTurn_next h.popped)
  | cons e rest =>
    rw [step_cons ha]
    cases e with
    | engine => exact .inl (engineTurn_next h.popped)
    | read addr size => exact access _
    | write addr size v => exact access _
    | rst level => exact .inl ⟨_, rfl⟩

end Sys2Proof.Machine

/-! Host accesses beyond the idle registers (O54 to O58): reads while a command is pending, the OBUF window, the bus errors, and
what no access but a reset changes (20_memory.md R52 to R62). -/

namespace Sys2Proof.Machine

/-! ### Busy register reads (R62) -/

theorem step_rd_busy {s : State} {r : Reg} {rest : List Event} (hp : s.pend ≠ none) (hr : s.rst = false)
    (ha : s.agenda = rd r :: rest) :
    step s = .next { s with agenda := rest, resp := some (.data (s.readReg r)), draws := s.draws + 1 } := by
  rw [step_rd hr ha, busy_eq_true hp]
  rfl

/-- The registers that no pending command may change read exactly. -/
theorem readReg_settled (s : State) {r : Reg} (hs : r ≠ .status) (ho : r.openWhileBusy = false) :
    s.readReg r = s.regValue r := by
  simp [State.readReg, hs, ho]

/-- STATUS read while busy: COPEN and ZOPEN are free, the rest is exact. -/
theorem readReg_status_busy {s : State} (hp : s.pend ≠ none) : ∃ co zo, s.readReg .status = s.statusWith co zo :=
  ⟨_, _, by rw [State.readReg, busy_eq_true hp]; rfl⟩

theorem getLsbD_of_toNat {n k : Nat} {v : BitVec n} {b : Bool} (h : v.toNat / 2 ^ k % 2 = b.toNat) :
    v.getLsbD k = b := by
  simp [BitVec.getLsbD, Nat.testBit_eq_decide_div_mod_eq, h]

theorem extractLsb'_of_toNat {m n k : Nat} {v : BitVec m} {f : BitVec n} (h : v.toNat / 2 ^ k % 2 ^ n = f.toNat) :
    v.extractLsb' k n = f := by
  apply BitVec.eq_of_toNat_eq
  rw [BitVec.extractLsb'_toNat, Nat.shiftRight_eq_div_pow, h]

/-- Every bit of a STATUS word but COPEN and ZOPEN is exact, and the reserved ones are 0 (10_state.md R31). -/
theorem statusWith_fields (s : State) (co zo : Bool) :
    (s.statusWith co zo).getLsbD 0 = s.busy ∧ (s.statusWith co zo).getLsbD 1 = s.done ∧
      (s.statusWith co zo).getLsbD 2 = s.err ∧ (s.statusWith co zo).getLsbD 3 = s.ovr ∧
      (s.statusWith co zo).extractLsb' 8 4 = errField s.errcode ∧
      (s.statusWith co zo).extractLsb' 6 2 = 0#2 ∧ (s.statusWith co zo).extractLsb' 12 20 = 0#20 := by
  have hsum : (s.statusWith co zo).toNat = (errField s.errcode).toNat * 2 ^ 8 + zo.toNat * 2 ^ 5 + co.toNat * 2 ^ 4 +
      s.ovr.toNat * 2 ^ 3 + s.err.toNat * 2 ^ 2 + s.done.toNat * 2 + s.busy.toNat :=
    statusWord_toNat { s with copen := co, zopen := zo }
  have hcode := (errField s.errcode).isLt
  have hzo := zo.toNat_le
  have hco := co.toNat_le
  have hovr := s.ovr.toNat_le
  have herr := s.err.toNat_le
  have hdone := s.done.toNat_le
  have hbusy := s.busy.toNat_le
  refine ⟨getLsbD_of_toNat ?_, getLsbD_of_toNat ?_, getLsbD_of_toNat ?_, getLsbD_of_toNat ?_,
    extractLsb'_of_toNat ?_, extractLsb'_of_toNat (Eq.trans ?_ BitVec.toNat_zero.symm),
    extractLsb'_of_toNat (Eq.trans ?_ BitVec.toNat_zero.symm)⟩ <;> omega

/-- Settles O54: a register that the pending command may not change reads as it is, and so do the other bits of STATUS. -/
theorem busyReadsExactFields : Obligations.BusyReadsExactFields := by
  intro s r rest hp hr ha
  refine ⟨_, step_rd_busy hp hr ha, fun hmem => ?_, ?_⟩
  · have hsettled : ∀ q ∈ ([.id, .ctrl, .cmd, .width, .height, .color, .data, .obufsz, .zinmax] : List Reg),
        q ≠ .status ∧ q.openWhileBusy = false := by decide
    obtain ⟨hstatus, hopen⟩ := hsettled r hmem
    exact readReg_settled s hstatus hopen
  · rintro rfl
    obtain ⟨co, zo, hv⟩ := readReg_status_busy hp
    obtain ⟨hbusy, hdone, herr, hovr, hcode, hlow, hhigh⟩ := statusWith_fields s co zo
    rw [hv, hbusy, hcode, busy_eq_true hp]
    refine ⟨rfl, hdone, herr, hovr, ?_, hlow, hhigh⟩
    rcases s.errcode with _ | ⟨⟨⟩⟩ <;> rfl

/-! ### The OBUF window (R54, R59) -/

/-- The step on a read of OBUF offset `k`; only while busy does it make a draw. -/
theorem step_window {s : State} {k : Nat} {size : Size} {rest : List Event} (hr : s.rst = false)
    (hk : k < s.build.obufSize) (ha : s.agenda = .read (Config.base + BitVec.ofNat 32 (obufWindow + k)) size :: rest) :
    step s = .next { s with
      agenda := rest, resp := some (s.readWindow k size), draws := if s.busy then s.draws + 1 else s.draws } := by
  rw [step_read hr ha, State.hostRead, memRead_window { s with agenda := rest } hk]
  cases size <;> rfl

theorem step_rdb {s : State} {k : Nat} {rest : List Event} (hr : s.rst = false) (hk : k < s.build.obufSize)
    (ha : s.agenda = rdb k :: rest) :
    step s = .next { s with
      agenda := rest, resp := some (.data ((s.readObuf k).setWidth 32))
      draws := if s.busy then s.draws + 1 else s.draws } := by
  have hbyte : s.readWindow k .byte = .data ((s.readObuf k).setWidth 32) := if_pos hk
  rw [step_window hr hk ha, hbyte]

/-- Byte `j` of four in a word is lane `j`, the first byte least significant (R59). -/
theorem extractLsb'_lane (b : Nat → Byte) {j : Nat} (hj : j < 4) :
    (b 3 ++ b 2 ++ b 1 ++ b 0 : BitVec (8 + 8 + 8 + 8)).extractLsb' (8 * j) 8 = b j := by
  apply extractLsb'_of_toNat
  have h0 := (b 0).isLt
  have h1 := (b 1).isLt
  have h2 := (b 2).isLt
  have h3 := (b 3).isLt
  simp only [toNat_append_eq_add]
  interval_cases j <;> omega

theorem step_rdw {s : State} {k : Nat} {rest : List Event} (hr : s.rst = false) (h4 : k % 4 = 0)
    (hk : k + 3 < s.build.obufSize) (ha : s.agenda = rdw k :: rest) :
    ∃ v : Word, step s = .next { s with
        agenda := rest, resp := some (.data v), draws := if s.busy then s.draws + 1 else s.draws } ∧
      ∀ j, j < 4 → v.extractLsb' (8 * j) 8 = s.readObuf (k + j) := by
  refine ⟨_, ?_, fun _ => extractLsb'_lane fun i => s.readObuf (k + i)⟩
  rw [step_window hr (by omega) ha]
  simp only [State.readWindow, if_pos (And.intro h4 hk), Nat.add_zero]

theorem readObuf_idle {s : State} (hp : s.pend = none) (a : Nat) : s.readObuf a = s.obuf.read a := by
  simp [State.readObuf, State.inFlight, hp]

/-- The bytes that the pending word cannot write read exactly (R62). -/
theorem readObuf_settled {s : State} {w : Word} {a : Nat} (hp : s.pend = some w)
    (hstart : a < if w = 0x0000003F#32 then 0 else s.optr.toNat)
    (hpatch : w = 0x00000013#32 → a < s.cstart.toNat ∨ s.cstart.toNat + 3 < a) : s.readObuf a = s.obuf.read a := by
  have hsettled : s.inFlight a = false := by
    simp only [State.inFlight, hp, State.pendStart, decode_encode_word, decode_chunkEnd_word, Bool.or_eq_false_iff,
      Bool.and_eq_false_iff, decide_eq_false_iff_not]
    refine ⟨by omega, ?_⟩
    by_cases hw : w = 0x00000013#32
    · rcases hpatch hw with h | h
      · exact .inl (.inr (by omega))
      · exact .inr (by omega)
    · exact .inl (.inl hw)
  rw [State.readObuf, hsettled]
  rfl

/-- Settles O55: idle, every byte of the window is the byte of OBUF. -/
theorem obufWindowReads : Obligations.ObufWindowReads := by
  intro s k rest hp hr
  have hbusy := busy_eq_false hp
  refine ⟨fun hk ha => ?_, fun h4 hk ha => ?_⟩
  · rw [step_rdb hr hk ha, readObuf_idle hp, hbusy]
    rfl
  · obtain ⟨v, hstep, hlane⟩ := step_rdw hr h4 hk ha
    rw [hbusy] at hstep
    exact ⟨v, hstep, fun j hj => (hlane j hj).trans (readObuf_idle hp _)⟩

/-- Settles O56: while busy, so is every byte that the pending word cannot write. -/
theorem busyObufBytesBelowStartReadExactly : Obligations.BusyObufBytesBelowStartReadExactly := by
  intro s w k rest hp hr settled
  have hbusy : s.busy = true := busy_eq_true (by simp [hp])
  have hread {a : Nat} : settled a → s.readObuf a = s.obuf.read a :=
    fun ⟨hstart, hpatch⟩ => readObuf_settled hp hstart hpatch
  refine ⟨fun hk hs ha => ?_, fun h4 hk ha => ?_⟩
  · rw [step_rdb hr hk ha, hread hs, hbusy]
    rfl
  · obtain ⟨v, hstep, hlane⟩ := step_rdw hr h4 hk ha
    rw [hbusy] at hstep
    exact ⟨v, hstep, fun j hj hs => (hlane j hj).trans (hread hs)⟩

/-! ### Bus errors (R53 to R57) -/

/-- The register accesses that are admitted (R53). -/
def NamesRegister (o : Nat) (size : Size) : Prop := size = .word ∧ o % 4 = 0 ∧ o ≤ 0x40

/-- The reads of the OBUF window at OBUF offset `k` that are admitted (R54). -/
def State.AdmitsWindowRead (s : State) (k : Nat) (size : Size) : Prop :=
  (size = .byte ∧ k < s.build.obufSize) ∨ (size = .word ∧ k % 4 = 0 ∧ k + 3 < s.build.obufSize)

theorem regAt_none {o : Nat} (h : ¬ NamesRegister o .word) : regAt o = none := by
  rw [← Option.not_isSome_iff_eq_none, regAt_isSome]
  exact fun ho => h ⟨rfl, ho⟩

theorem readRegWindow_refused (s : State) {o : Nat} {size : Size} (h : ¬ NamesRegister o size) :
    s.readRegWindow o size = .busError := by
  cases size with
  | byte | half => rfl
  | word => simp only [State.readRegWindow, regAt_none h]

theorem writeOffset_refused (s : State) {o : Nat} {size : Size} (v : Word) (h : ¬ NamesRegister o size) :
    s.writeOffset o size v = (s, .busError) := by
  cases size with
  | byte | half => rfl
  | word => simp only [State.writeOffset, regAt_none h]

theorem readWindow_refused {s : State} {k : Nat} {size : Size} (h : ¬ s.AdmitsWindowRead k size) :
    s.readWindow k size = .busError := by
  cases size with
  | byte => exact if_neg fun hk => h (.inl ⟨rfl, hk⟩)
  | half => rfl
  | word => exact if_neg fun hk => h (.inr ⟨rfl, hk⟩)

/-- A read that neither window admits; outside both every read is refused (R55). -/
theorem readOffset_refused {s : State} {o : Nat} {size : Size} (hreg : ¬ NamesRegister o size)
    (hobuf : obufWindow ≤ o → ¬ s.AdmitsWindowRead (o - obufWindow) size) : s.readOffset o size = .busError := by
  unfold State.readOffset
  split_ifs with hlow hwin
  · exact readRegWindow_refused s hreg
  · exact readWindow_refused (hobuf hwin.1)
  · rfl

/-- Settles O57: the offsets that no rule admits, read and written. The window starts at a multiple of 4. -/
theorem otherAccessesAreBusErrors : Obligations.OtherAccessesAreBusErrors := by
  intro s addr v size rest hr o regOk obufOk
  refine ⟨fun ha hreg hobuf => ?_, fun ha hreg => ?_⟩
  · have hwindow (hle : obufWindow ≤ o) : ¬ s.AdmitsWindowRead (o - obufWindow) size := by
      rintro (hbyte | ⟨hword, h4, hlt⟩)
      · exact hobuf ⟨hle, .inl hbyte⟩
      · have hmod : o % 4 = 0 := by unfold obufWindow at hle h4; omega
        exact hobuf ⟨hle, .inr ⟨hword, hmod, hlt⟩⟩
    have hresp : ({ s with agenda := rest } : State).memRead addr size = .busError := readOffset_refused hreg hwindow
    refine ⟨if s.busy then s.draws + 1 else s.draws, ?_, fun hp => by simp [busy_eq_false hp]⟩
    rw [step_read hr ha, State.hostRead, hresp]
    rfl
  · rw [step_write hr ha, State.hostWrite, State.memWrite, writeOffset_refused _ v hreg]

/-! ### What is held while a command is pending (R61, R65) -/

/-- PEND, the operands, OBUF and ZIN are as before. -/
structure HoldsPending (s t : State) : Prop where
  pend : t.pend = s.pend
  cmd : t.cmd = s.cmd
  width : t.width = s.width
  height : t.height = s.height
  color : t.color = s.color
  data : t.data = s.data
  crc : t.crc = s.crc
  adler : t.adler = s.adler
  optr : t.optr = s.optr
  clen : t.clen = s.clen
  cstart : t.cstart = s.cstart
  zin : t.zin = s.zin
  zmode : t.zmode = s.zmode
  copen : t.copen = s.copen
  zopen : t.zopen = s.zopen
  obuf : t.obuf = s.obuf

/-- A CTRL write without SRST writes only flags and, when idle, ZMODE (R61 (b)). -/
theorem writeCtrl_holdsPending {s : State} {v : Word} (hp : s.pend ≠ none) (hv : v.getLsbD 0 = false) :
    HoldsPending s (s.writeCtrl v) := by
  rw [writeCtrl_fields hv, busy_eq_true hp]
  constructor <;> rfl

/-- Every register write but a soft reset (R61). -/
theorem writeReg_holdsPending {s : State} (hp : s.pend ≠ none) (r : Reg) (v : Word) :
    HoldsPending s (s.writeReg r v) ∨ (r = .ctrl ∧ v.getLsbD 0 = true) := by
  rw [writeReg_busy hp]
  cases r
  case ctrl =>
    cases hv : v.getLsbD 0 with
    | true => exact .inr ⟨rfl, rfl⟩
    | false => exact .inl (writeCtrl_holdsPending hp hv)
  all_goals
    left
    constructor <;> rfl

/-- Every host access but a soft reset, RST released. -/
theorem access_holdsPending {s t : State} {e : Event} (hp : s.pend ≠ none) (hengine : e ≠ .engine)
    (hrst : ∀ l, e ≠ .rst l) (h : act e s = .next t) :
    HoldsPending s t ∨ ∃ v, e = wr .ctrl v ∧ v.getLsbD 0 = true := by
  cases e with
  | engine => exact absurd rfl hengine
  | rst level => exact absurd rfl (hrst level)
  | read addr size =>
    obtain ⟨-, rfl⟩ := whenReleased_next h
    left
    constructor <;> rfl
  | write addr size v =>
    obtain ⟨-, rfl⟩ := whenReleased_next h
    rcases hostWrite_cases s addr size v with ⟨r, he, hw⟩ | hw
    · rw [hw, he]
      refine (writeReg_holdsPending hp r v).imp (fun hheld => { hheld with }) ?_
      rintro ⟨rfl, hv⟩
      exact ⟨v, rfl, hv⟩
    · rw [hw]
      left
      constructor <;> rfl

/-- Settles O58: of the host's accesses only a soft reset touches what a pending command depends on. -/
theorem pendingOperandsAreFrozen : Obligations.PendingOperandsAreFrozen := by
  intro s t e rest hp ha hengine hrst h
  rw [step_cons ha] at h
  refine (access_holdsPending (s := s.popped) hp hengine hrst h).imp_left fun hheld => ?_
  exact ⟨hheld.pend, hheld.cmd, hheld.width, hheld.height, hheld.color, hheld.data, hheld.crc, hheld.adler, hheld.optr,
    hheld.clen, hheld.cstart, hheld.zin, hheld.zmode, hheld.copen, hheld.zopen, hheld.obuf⟩

end Sys2Proof.Machine

/-! The opcode map as code (O1 to O4): encoder and decoder invert each other, the decoder accepts the words of R71 and no other,
and what becomes of an illegal word once it is written to CMD (30_encoding.md R68 to R75). -/

namespace Sys2Proof.Machine

/-! ### The encoder and the decoder (R71) -/

open Laws in
/-- The word of every command has the fields of its row of the opcode map. -/
theorem fields_encode : ∀ i : Instr, Fields.Statement i
  | .nop => Fields.nop
  | .crcInit => Fields.crcInit
  | .crcByte imm => Fields.crcByte imm
  | .crcWord => Fields.crcWord
  | .adlerInit => Fields.adlerInit
  | .adlerByte imm => Fields.adlerByte imm
  | .adlerWord => Fields.adlerWord
  | .putByte imm => Fields.putByte imm
  | .putWord => Fields.putWord
  | .chunkBegin => Fields.chunkBegin
  | .chunkEnd => Fields.chunkEnd
  | .zBegin => Fields.zBegin
  | .zByte imm => Fields.zByte imm
  | .zWord => Fields.zWord
  | .zEnd => Fields.zEnd
  | .emitSig => Fields.emitSig
  | .emitIhdr => Fields.emitIhdr
  | .emitIdat => Fields.emitIdat
  | .emitIend => Fields.emitIend
  | .encode => Fields.encode

/-- The row of a command's OP value gives that command back. -/
theorem decodeOp_opcode (i : Instr) : decodeOp (opcode i).toNat (immOf i) = .ok i := by
  cases i <;> rfl

theorem decode_of_mbz {w : Word} (h : mbzField w = 0) : decode w = decodeOp (opField w).toNat (immField w) := if_pos h

theorem decode_encode (i : Instr) : decode (encode i) = .ok i := by
  obtain ⟨-, hop, himm, hmbz⟩ := fields_encode i
  rw [decode_of_mbz hmbz, hop, himm, decodeOp_opcode]

/-- Settles O1: a decoded word is its command's word, and a command's word decodes to it. -/
theorem decodeAndEncodeAgree : Obligations.DecodeAndEncodeAgree :=
  fun _ i => ⟨eq_encode_of_decode, fun h => h ▸ decode_encode i⟩

/-! ### The words that are commands (R71, R72) -/

theorem wordWellFormed_iff {w : Word} : wordWellFormed w = true ↔
    (formOf (opField w)).isSome ∧ mbzField w = 0 ∧ (formOf (opField w) = some .i ∨ immField w = 0) := by
  simp [wordWellFormed, opKnown, mbzClear, immAllowed, and_assoc]

/-- The I rows of the opcode map (R71). -/
theorem op_of_form_i : ∀ {op : Byte}, formOf op = some .i → op = 0x02 ∨ op = 0x05 ∨ op = 0x10 ∨ op = 0x21 := by decide

/-- Every row of the opcode map gives a command when IMM8 is 0 (R71). -/
theorem decodeOp_imm_zero : ∀ {op : Byte}, (formOf op).isSome → ((decodeOp op.toNat 0).toOption).isSome := by decide

/-- Checks 1 and 3 on the fields are enough for a command; only an I row has one for each value of IMM8. -/
theorem decodeOp_accepts {op imm : Byte} (hop : (formOf op).isSome) (himm : formOf op = some .i ∨ imm = 0) :
    ∃ i, decodeOp op.toNat imm = .ok i := by
  rcases himm with hform | rfl
  · rcases op_of_form_i hform with rfl | rfl | rfl | rfl <;> exact ⟨_, rfl⟩
  · have hsome := decodeOp_imm_zero hop
    cases hd : decodeOp op.toNat 0 with
    | ok i => exact ⟨i, rfl⟩
    | error e =>
      rw [hd] at hsome
      cases hsome

/-- Settles O3: a command's word passes the checks, and a word that passes them has a row of the map that accepts it. -/
theorem decodeAcceptsExactlyTheMap : Obligations.DecodeAcceptsExactlyTheMap := by
  refine fun w => ⟨fun ⟨i, hi⟩ => ?_, fun hwf => ?_⟩
  · obtain ⟨hwf, -, -, -⟩ := fields_encode i
    exact eq_encode_of_decode hi ▸ hwf
  · obtain ⟨hop, hmbz, himm⟩ := wordWellFormed_iff.1 hwf
    rw [decode_of_mbz hmbz]
    exact decodeOp_accepts hop himm

/-! ### Illegal words (R72) -/

theorem decode_error_of_illformed {w : Word} (h : wordWellFormed w = false) : ∃ e, decode w = .error e := by
  cases hd : decode w with
  | ok i => exact absurd ((decodeAcceptsExactlyTheMap w).1 ⟨i, hd⟩) (by simp [h])
  | error e => exact ⟨e, rfl⟩

/-- Settles O4: the write is issue, and the engine's turn on a word that does not decode raises ILLEGAL. -/
theorem illegalWordCompletesWithIllegal : Obligations.IllegalWordCompletesWithIllegal := by
  intro s w rest hwf hp hr ha
  obtain ⟨e, hd⟩ := decode_error_of_illformed hwf
  refine ⟨_, step_wr_idle hp hr ha, rfl, ?_⟩
  rw [step_engine (.inr rfl), engineTurn_illegal rfl hd]
  rfl

/-! ### Words written out -/

/-- Settles O2: each accepted word is the word of its command, and each refused one fails the check it is named by. -/
theorem specWordsDecode : Obligations.SpecWordsDecode :=
  ⟨decode_encode .nop, decode_encode (.crcByte 0x31), decode_encode (.adlerByte 0x61), decode_encode (.putByte 0x41),
    decode_encode .chunkEnd, decode_encode (.zByte 0x61), decode_encode .encode, rfl, rfl, rfl⟩

end Sys2Proof.Machine

/-! The PNG commands (O36 to O42, O44): what each writes and leaves in the registers, the document of ENCODE as the bytes of
its four steps, RAW byte by byte, and EMIT_IDAT as the streamed sequence (40_png_encoder.md R77 to R86, R147). -/

namespace Sys2Proof.Machine

/-! ### RAW (R79) -/

/-- Byte `j` of copy `i` in a row of equal copies. -/
theorem getElem?_flatten_replicate {α : Type} (l : List α) {j : Nat} (hj : j < l.length) :
    ∀ {n i : Nat}, i < n → (List.replicate n l).flatten[i * l.length + j]? = l[j]? := by
  intro n
  induction n with
  | zero => intro i hi; omega
  | succ n ih =>
    intro i hi
    rw [List.replicate_succ, List.flatten_cons]
    cases i with
    | zero => rw [Nat.zero_mul, Nat.zero_add, List.getElem?_append_left hj]
    | succ i =>
      rw [List.getElem?_append_right (by rw [Nat.succ_mul]; omega),
        show (i + 1) * l.length + j - l.length = i * l.length + j by rw [Nat.succ_mul]; omega, ih (by omega)]

theorem pixel_length (c : BitVec 24) : (pixel c).length = 3 := rfl

theorem rawRow_length (w : Nat) (c : BitVec 24) : (rawRow w c).length = 1 + 3 * w := by
  simp [rawRow, pixel_length]
  omega

theorem rawImage_length (w h : Nat) (c : BitVec 24) : (rawImage w h c).length = h * (1 + 3 * w) := by
  simp [rawImage, rawRow_length]

/-- Byte `k` of row `y`. -/
theorem rawImage_getElem? {w h y k : Nat} {c : BitVec 24} (hy : y < h) (hk : k < 1 + 3 * w) :
    (rawImage w h c)[y * (1 + 3 * w) + k]? = (rawRow w c)[k]? := by
  have hrow := getElem?_flatten_replicate (rawRow w c) (j := k) (by rwa [rawRow_length]) hy
  rwa [rawRow_length] at hrow

/-- Byte `k` of pixel `x`: after the filter byte, three bytes for each pixel before it. -/
theorem rawRow_getElem?_pixel {w x k : Nat} {c : BitVec 24} (hx : x < w) (hk : k < 3) :
    (rawRow w c)[k + 1 + 3 * x]? = (pixel c)[k]? := by
  rw [rawRow, show k + 1 + 3 * x = x * 3 + k + 1 by omega, List.getElem?_cons_succ]
  exact getElem?_flatten_replicate (pixel c) (by rwa [pixel_length]) hx

/-- Byte `k` of pixel `x` of row `y`. -/
theorem rawImage_getElem?_pixel {w h y x k : Nat} {c : BitVec 24} (hy : y < h) (hx : x < w) (hk : k < 3) :
    (rawImage w h c)[y * (1 + 3 * w) + (k + 1) + 3 * x]? = (pixel c)[k]? := by
  rw [Nat.add_assoc, rawImage_getElem? hy (by omega), rawRow_getElem?_pixel hx hk]

/-- Settles O39: equal rows of equal pixels, each byte found by its row, pixel and channel. -/
theorem rawImageIsRowsOfPixels : Obligations.RawImageIsRowsOfPixels := fun w h c =>
  ⟨rawImage_length w h c, fun _ hy => rawImage_getElem? (k := 0) hy (by omega), fun _ _ hy hx =>
    ⟨rawImage_getElem?_pixel (k := 0) hy hx (by decide), rawImage_getElem?_pixel (k := 1) hy hx (by decide),
      rawImage_getElem?_pixel (k := 2) hy hx (by decide)⟩⟩

/-! ### Bytes written one after another -/

/-- A sequence and then another right behind it are both together. -/
theorem BytesWritten.append {m m' m'' : Memory} {a : Nat} {bs cs : List Byte} (h : BytesWritten m m' a bs)
    (k : BytesWritten m' m'' (a + bs.length) cs) : BytesWritten m m'' a (bs ++ cs) := by
  intro x
  rw [k x, h x, List.length_append]
  by_cases hcs : a + bs.length ≤ x ∧ x < a + bs.length + cs.length
  · rw [if_pos hcs, if_pos (by omega), List.getD_append_right _ _ _ _ (by omega), Nat.sub_sub]
  · rw [if_neg hcs]
    by_cases hbs : a ≤ x ∧ x < a + bs.length
    · rw [if_pos hbs, if_pos (by omega), List.getD_append _ _ _ _ (by omega)]
    · rw [if_neg hbs, if_neg (by omega)]

/-- Where the same bytes were written, whatever stood there before, the same bytes read. -/
theorem BytesWritten.read_eq {m m' n n' : Memory} {a x : Nat} {bs : List Byte} (h : BytesWritten m m' a bs)
    (k : BytesWritten n n' a bs) (hx : a ≤ x ∧ x < a + bs.length) : m'.read x = n'.read x := by
  rw [h x, k x, if_pos hx, if_pos hx]

/-- From `s` to `t` the bytes `bs` are appended at OPTR. -/
structure Appends (bs : List Byte) (s t : State) : Prop where
  written : BytesWritten s.obuf t.obuf s.optr.toNat bs
  optr : t.optr.toNat = s.optr.toNat + bs.length

theorem Appends.trans {bs cs : List Byte} {s t u : State} (h : Appends bs s t) (k : Appends cs t u) :
    Appends (bs ++ cs) s u where
  written := h.written.append (h.optr ▸ k.written)
  optr := by rw [k.optr, h.optr, List.length_append, Nat.add_assoc]

theorem chunkBytes_length (t p : List Byte) : (chunkBytes t p).length = 8 + t.length + p.length := by
  simp [chunkBytes, be32_length]
  omega

theorem emitted_appends {s : State} {bs : List Byte} (h : s.optr.toNat + bs.length ≤ s.build.obufSize) :
    Appends bs s (s.emitted bs) :=
  ⟨bytesWritten_writeSeq _ _ _, emitted_optr h⟩

theorem wroteChunk_appends {s : State} {t p : List Byte} (hc : s.copen = false)
    (h : s.optr.toNat + (8 + t.length + p.length) ≤ s.build.obufSize) :
    Appends (chunkBytes t p) s (s.wroteChunk t p) where
  written := by
    rw [wroteChunk_eq hc h]
    exact wroteChunk_bytes
  optr := by rw [wroteChunk_optr hc h, chunkBytes_length]

/-! What a whole chunk leaves unchanged, through chunk_begin, the puts and chunk_end. -/

@[simp] theorem emitted_adler (s : State) (bs : List Byte) : (s.emitted bs).adler = s.adler := rfl
@[simp] theorem emitted_zin (s : State) (bs : List Byte) : (s.emitted bs).zin = s.zin := rfl
@[simp] theorem emitted_raw (s : State) (bs : List Byte) : (s.emitted bs).raw = s.raw := rfl
@[simp] theorem chunkOpened_adler (s : State) (t : List Byte) : (s.chunkOpened t).adler = s.adler := rfl
@[simp] theorem chunkOpened_zin (s : State) (t : List Byte) : (s.chunkOpened t).zin = s.zin := rfl
@[simp] theorem chunkOpened_raw (s : State) (t : List Byte) : (s.chunkOpened t).raw = s.raw := rfl
@[simp] theorem chunkClosed_adler (s : State) : s.chunkClosed.adler = s.adler := rfl
@[simp] theorem chunkClosed_zin (s : State) : s.chunkClosed.zin = s.zin := rfl
@[simp] theorem chunkClosed_raw (s : State) : s.chunkClosed.raw = s.raw := rfl

@[simp] theorem wroteChunk_adler (s : State) (t p : List Byte) : (s.wroteChunk t p).adler = s.adler := by
  simp [State.wroteChunk]

@[simp] theorem wroteChunk_zin (s : State) (t p : List Byte) : (s.wroteChunk t p).zin = s.zin := by
  simp [State.wroteChunk]

@[simp] theorem wroteChunk_raw (s : State) (t p : List Byte) : (s.wroteChunk t p).raw = s.raw := by
  simp [State.wroteChunk]

/-- The registers after a whole chunk (R82 to R84). -/
theorem wroteChunk_registers {s : State} {t p : List Byte} (ht : t.length = 4) (hc : s.copen = false)
    (h : s.optr.toNat + (12 + p.length) ≤ s.build.obufSize) :
    ∃ m, BytesWritten s.obuf m s.optr.toNat (chunkBytes t p) ∧ s.wroteChunk t p = { s with
      obuf := m, optr := BitVec.ofNat 32 (s.optr.toNat + (12 + p.length)), cstart := s.optr
      clen := BitVec.ofNat 32 p.length, crc := crcSeq 0xFFFFFFFF#32 (t ++ p) } := by
  have hlen : 8 + t.length + p.length = 12 + p.length := by omega
  exact ⟨_, wroteChunk_bytes, by rw [wroteChunk_eq hc (by omega), add_ofNat, hlen]⟩

/-! ### The commands that emit one part of the document (R81 to R84) -/

theorem exec_ok {i : Instr} {s t : State} (h : bodyOf i s = .ok t) : exec i s = .next t.completeOk := by
  rw [exec_eq_finish, h, finish_ok]

/-- Settles O36: eight puts that fit, with no chunk open. -/
theorem emitSigWritesSignature : Obligations.EmitSigWritesSignature := by
  intro s hc hz h
  have hbody : bodyOf .emitSig s = .ok (s.emitted pngSignature) := by
    rw [bodyOf, sigBody, nothingOpen_iff.2 ⟨hc, hz⟩, require_true, putAll_fits pngSignature h]
  refine ⟨_, bytesWritten_writeSeq _ _ _, ?_⟩
  rw [exec_ok hbody]
  simp [State.emitted, State.completeOk, hc, add_ofNat, pngSignature]

/-- Settles O37: the body is the IHDR chunk. -/
theorem emitIhdrWritesChunk : Obligations.EmitIhdrWritesChunk := by
  intro s hc hz hd h p
  obtain ⟨hbody, -⟩ := ihdrBody_fits (n := 0) ⟨nothingOpen_iff.2 ⟨hc, hz⟩, dimsOk_iff.2 hd, h⟩
  obtain ⟨m, hm, heq⟩ := wroteChunk_registers (t := typeIhdr) (p := p) rfl hc h
  refine ⟨m, hm, ?_⟩
  rw [exec_ok (i := .emitIhdr) hbody, State.wroteIhdr, ihdrPayload, heq]
  rfl

/-- Settles O38: the body is the IDAT chunk of the stream of RAW, emitted with ADLER already set. -/
theorem emitIdatWritesChunk : Obligations.EmitIdatWritesChunk := by
  intro s raw z hc hz hd h
  obtain ⟨hbody, -⟩ := idatBody_fits (n := 0) ⟨nothingOpen_iff.2 ⟨hc, hz⟩, dimsOk_iff.2 hd, h⟩ rfl
  obtain ⟨m, hm, (heq : s.wroteIdat = _)⟩ :=
    wroteChunk_registers (s := s.withAdler (adlerSeq 0x00000001#32 raw)) (t := typeIdat) (p := z) rfl hc h
  refine ⟨m, hm, ?_⟩
  rw [exec_ok (i := .emitIdat) hbody, heq]
  simp only [State.completeOk, State.withAdler]
  rfl

/-- The CRC of an IEND chunk's type. -/
theorem crcSeq_typeIend : crcSeq 0xFFFFFFFF#32 typeIend = 0x51BD9F7D#32 := by decide +kernel

/-- The IEND chunk, the same in every document (R84). -/
theorem chunkBytes_typeIend :
    chunkBytes typeIend [] = [0x00, 0x00, 0x00, 0x00, 0x49, 0x45, 0x4E, 0x44, 0xAE, 0x42, 0x60, 0x82] := by
  rw [chunkBytes, List.append_nil, List.append_nil, crcSeq_typeIend]
  rfl

/-- Settles O40: the body is a chunk without payload. -/
theorem emitIendWritesChunk : Obligations.EmitIendWritesChunk := by
  intro s hc hz h
  have hbody : bodyOf .emitIend s = .ok s.wroteIend := by
    rw [bodyOf, iendBody, nothingOpen_iff.2 ⟨hc, hz⟩, require_true, wholeChunk_eq h, State.wroteIend]
  obtain ⟨m, hm, heq⟩ := wroteChunk_registers (t := typeIend) (p := []) rfl hc h
  rw [chunkBytes_typeIend] at hm
  refine ⟨m, hm, ?_⟩
  rw [exec_ok hbody, State.wroteIend, heq, List.append_nil, crcSeq_typeIend]
  rfl

/-! ### ENCODE (R85, R86) -/

theorem pngDocument_length (s : State) : (pngDocument s).length = 57 + (imageStream s).length := by
  simp [pngDocument, chunkBytes_length, pngSignature, typeIhdr, typeIdat, typeIend, ihdrPayload, be32_length]
  omega

section
variable {s : State} {n : Nat}

theorem appends_sig (h : RoomForImage s (8 + n)) : Appends pngSignature s (s.emitted pngSignature) :=
  emitted_appends (by have := h.room; simp [pngSignature]; omega)

theorem appends_ihdr (h : RoomForImage s (25 + n)) :
    Appends (chunkBytes typeIhdr (ihdrPayload s.width s.height)) s s.wroteIhdr :=
  wroteChunk_appends h.copen_eq (by have := h.room; simp [typeIhdr, ihdrPayload, be32_length]; omega)

theorem appends_idat {z : List Byte} (h : RoomForImage s (12 + z.length + n)) (hz : imageStream s = z) :
    Appends (chunkBytes typeIdat z) s s.wroteIdat := by
  subst hz
  have hr := h.room
  have hlen : typeIdat.length = 4 := rfl
  have hchunk : Appends _ (s.withAdler (adlerSeq 0x00000001#32 s.raw)) s.wroteIdat :=
    wroteChunk_appends h.copen_eq (by rw [hlen, State.withAdler_optr, State.withAdler_build]; omega)
  exact ⟨hchunk.written, hchunk.optr⟩

theorem appends_iend (h : RoomForImage s 12) : Appends (chunkBytes typeIend []) s s.wroteIend :=
  wroteChunk_appends h.copen_eq h.room

/-- The four steps append the document (R85). -/
theorem appends_document (h : RoomForImage s (documentRoom s)) : Appends (pngDocument s) s s.wroteDocument := by
  obtain ⟨-, h1⟩ := sigBody_fits h
  obtain ⟨-, h2⟩ := ihdrBody_fits h1
  obtain ⟨-, h3⟩ := idatBody_fits h2 (by simp)
  exact (((appends_sig h).trans (appends_ihdr h1)).trans (appends_idat h2 (by simp))).trans (appends_iend h3)

/-- Where the IEND chunk of the document starts. -/
theorem wroteIdat_optr (h : RoomForImage s (documentRoom s)) :
    (s.emitted pngSignature).wroteIhdr.wroteIdat.optr.toNat = s.optr.toNat + (45 + (imageStream s).length) := by
  obtain ⟨-, h1⟩ := sigBody_fits h
  obtain ⟨-, h2⟩ := ihdrBody_fits h1
  rw [(((appends_sig h).trans (appends_ihdr h1)).trans (appends_idat h2 (by simp))).optr]
  simp [chunkBytes_length, pngSignature, typeIhdr, typeIdat, ihdrPayload, be32_length]
  omega

theorem wroteDocument_adler (s : State) : s.wroteDocument.adler = adlerSeq 0x00000001#32 s.raw := by
  simp [State.wroteDocument, State.wroteIend, State.wroteIdat, State.wroteIhdr]

theorem wroteDocument_zin (s : State) : s.wroteDocument.zin = s.zin := by
  simp [State.wroteDocument, State.wroteIend, State.wroteIdat, State.wroteIhdr]

/-- The registers after the four steps: those of the IEND chunk, and ADLER from the IDAT chunk (R83 to R85). -/
theorem wroteDocument_registers (h : RoomForImage s (documentRoom s)) :
    s.wroteDocument.optr = BitVec.ofNat 32 (s.optr.toNat + (57 + (imageStream s).length)) ∧
    s.wroteDocument.cstart = BitVec.ofNat 32 (s.optr.toNat + (45 + (imageStream s).length)) ∧
    s.wroteDocument.clen = 0 ∧ s.wroteDocument.crc = 0x51BD9F7D#32 := by
  obtain ⟨-, h1⟩ := sigBody_fits h
  obtain ⟨-, h2⟩ := ihdrBody_fits h1
  obtain ⟨-, h3⟩ := idatBody_fits h2 (by simp)
  obtain ⟨m, -, (hlast : s.wroteDocument = _)⟩ := wroteChunk_registers (t := typeIend) (p := []) rfl h3.copen_eq h3.room
  have hdocument := (appends_document h).optr
  rw [pngDocument_length] at hdocument
  refine ⟨by rw [← hdocument, BitVec.ofNat_toNat, BitVec.setWidth_eq], ?_, by rw [hlast]; rfl, ?_⟩
  · rw [hlast, ← wroteIdat_optr h, BitVec.ofNat_toNat, BitVec.setWidth_eq]
  · rw [hlast, List.append_nil, crcSeq_typeIend]

end

/-- What is left free by the frame of the pseudocode, the open flags and ZIN unchanged: OBUF and six registers. -/
theorem eq_of_frame {s t : State} (hf : BodyFrame s t) (ho : SameOpen s t) (hz : t.zin = s.zin) :
    t = { s with
      obuf := t.obuf, optr := t.optr, cstart := t.cstart, clen := t.clen, crc := t.crc, adler := t.adler } := by
  cases hf
  cases ho
  cases t
  simp_all

/-- Where ENCODE's four steps start: OPTR <- 0 (R85). -/
def State.rewound (s : State) : State := { s with optr := 0 }

theorem imageStream_rewound (s : State) : imageStream s.rewound = imageStream s := rfl

theorem pngDocument_rewound (s : State) : pngDocument s.rewound = pngDocument s := rfl

/-- ENCODE meets no error when nothing is open, the dimensions are in range and the document fits (R124). -/
theorem expectedError_encode_none {s : State} (hc : s.copen = false) (hz : s.zopen = false) (hd : dimsInRange s)
    (hfits : 57 + (imageStream s).length ≤ s.build.obufSize) : expectedError .encode s = none := by
  rw [expectedError, if_neg (by simp [seqAllowed, hc, hz]), if_neg (fun h => h.2 hd), if_neg (by simp [zinNeed]),
    if_neg (by simpa [emitCount, startOf] using hfits)]

section
variable {s : State}

theorem roomForImage_rewound (h : expectedError .encode s = none) : RoomForImage s.rewound (documentRoom s.rewound) :=
  roomForImage_of_encode h

theorem encodeBody_fits (h : expectedError .encode s = none) : encodeBody s = .ok s.rewound.wroteDocument := by
  have hroom := roomForImage_rewound h
  rw [encodeBody, show s.nothingOpen = true from hroom.closed, show s.dimsOk = true from hroom.dims, require_true,
    require_true]
  exact documentBodies_fit hroom

/-- From OPTR 0 the four steps append the document. -/
theorem appends_rewound (h : expectedError .encode s = none) :
    Appends (pngDocument s) s.rewound s.rewound.wroteDocument := by
  rw [← pngDocument_rewound]
  exact appends_document (roomForImage_rewound h)

/-- What a successful ENCODE appends: its document, from offset 0 on. -/
theorem exec_encode_appends {t : State} (h : expectedError .encode s = none) (ht : exec .encode s = .next t) :
    Appends (pngDocument s) s.rewound t := by
  rw [exec_ok (i := .encode) (encodeBody_fits h)] at ht
  cases ht
  obtain ⟨hwritten, hoptr⟩ := appends_rewound h
  exact ⟨hwritten, hoptr⟩

/-- The state after ENCODE's body, but for OBUF. -/
theorem wroteDocument_rewound (h : expectedError .encode s = none) : s.rewound.wroteDocument = { s with
    obuf := s.rewound.wroteDocument.obuf, optr := BitVec.ofNat 32 (57 + (imageStream s).length)
    cstart := BitVec.ofNat 32 (45 + (imageStream s).length), clen := 0, crc := 0x51BD9F7D#32
    adler := adlerSeq 0x00000001#32 s.raw } := by
  have hbody := encodeBody_fits h
  obtain ⟨hoptr, hcstart, hclen, hcrc⟩ := wroteDocument_registers (roomForImage_rewound h)
  have hstart : s.rewound.optr.toNat = 0 := rfl
  have hraw : s.rewound.raw = s.raw := rfl
  rw [hstart, Nat.zero_add, imageStream_rewound] at hoptr hcstart
  have hstate := eq_of_frame (encodeBody_frame hbody) (encodeBody_sameOpen hbody) (wroteDocument_zin _)
  rwa [hoptr, hcstart, hclen, hcrc, wroteDocument_adler, hraw] at hstate

end

/-- Settles O41: the four steps from OPTR 0 append the document, and the frame of the body keeps the rest. -/
theorem encodeWritesDocument : Obligations.EncodeWritesDocument := by
  intro s hc hz hd hfits
  have hnone := expectedError_encode_none hc hz hd hfits
  refine ⟨_, (appends_rewound hnone).written, pngDocument_length s, ?_⟩
  rw [exec_ok (i := .encode) (encodeBody_fits hnone), wroteDocument_rewound hnone]
  rfl

/-- Settles O42: both outputs are the document, which is made of these four registers alone. -/
theorem encodeDependsOnImageAlone : Obligations.EncodeDependsOnImageAlone := by
  intro s s' t t' hw hh hc hm ht ht' h h'
  have hdocument : pngDocument s = pngDocument s' := by
    simp only [pngDocument, imageStream, State.raw, hw, hh, hc, hm]
  obtain ⟨hwritten, hoptr⟩ := exec_encode_appends h ht
  obtain ⟨hwritten', hoptr'⟩ := exec_encode_appends h' ht'
  rw [← hdocument] at hwritten' hoptr'
  exact ⟨BitVec.eq_of_toNat_eq (hoptr.trans hoptr'.symm),
    fun a ha => hwritten.read_eq hwritten' ⟨Nat.zero_le a, lt_of_lt_of_eq ha hoptr⟩⟩

/-! ### EMIT_IDAT as the streamed sequence (R83, R147) -/

theorem feed_nil (s : State) : s.feed [] = s := by
  cases s
  simp [State.feed, adlerSeq]

theorem feed_feed (s : State) (bs cs : List Byte) : (s.feed bs).feed cs = s.feed (bs ++ cs) := by
  simp [State.feed, adlerSeq_append]

theorem feed_completeOk (s : State) (bs : List Byte) : s.completeOk.feed bs = (s.feed bs).completeOk := rfl

/-- Z_BYTE for each byte of a sequence that fits in ZIN, each from the completion of the one before (42_deflate.md R104). -/
theorem execAll_zBytes {is : List Instr} (bs : List Byte) : ∀ {s : State}, s.zopen = true →
    s.zin.length + bs.length ≤ s.build.zinMax →
    execAll (bs.map Instr.zByte ++ is) s.completeOk = execAll is (s.feed bs).completeOk := by
  induction bs with
  | nil =>
    intro s _ _
    rw [feed_nil, List.map_nil, List.nil_append]
  | cons b bs ih =>
    intro s hz hfits
    rw [List.length_cons] at hfits
    have hbyte : bodyOf (.zByte b) s.completeOk = .ok (s.completeOk.feed [b]) := by
      rw [bodyOf, feedStream, State.completeOk_zopen, hz, require_true, decide_eq_true (by simp; omega), require_true]
    have hrest : (s.feed [b]).zin.length + bs.length ≤ (s.feed [b]).build.zinMax := by
      rw [State.feed_zin, State.feed_build, List.length_append, List.length_singleton]
      omega
    rw [List.map_cons, List.cons_append, execAll_cons hbyte, feed_completeOk, completeOk_completeOk,
      ih ((State.feed_zopen s [b]).trans hz) hrest, feed_feed, List.singleton_append]

/-- The state after Z_BEGIN (42_deflate.md R103). -/
def State.streamOpened (s : State) : State := { s with zin := [], adler := 0x00000001#32, zopen := true }

/-- The state after Z_BEGIN and the bytes `bs` (42_deflate.md R103, R104). -/
theorem streamOpened_feed (s : State) (bs : List Byte) :
    s.streamOpened.feed bs = { s with zin := bs, adler := adlerSeq 0x00000001#32 bs, zopen := true } := rfl

/-- Z_END with a stream open and room for it (42_deflate.md R106). -/
theorem zEnd_fits {s : State} (hz : s.zopen = true)
    (hroom : s.optr.toNat + (zlibStream s.zmode s.zin s.adler).length ≤ s.build.obufSize) : bodyOf .zEnd s =
      .ok { ({ s with zopen := false } : State).emitted (zlibStream s.zmode s.zin s.adler) with zin := [] } := by
  have hput := putAll_fits (zlibStream s.zmode s.zin s.adler) (s := { s with zopen := false }) hroom
  rw [bodyOf, hz, require_true, hput]
  rfl

/-- Z_BEGIN, Z_BYTE for each byte of an input and Z_END: the input's stream is emitted and ADLER is the input's, and no
stream is open and ZIN is empty again (42_deflate.md R103 to R106). -/
theorem execAll_stream {is : List Instr} {bs : List Byte} {s : State} (hz : s.zopen = false) (hzin : s.zin = [])
    (hfits : bs.length ≤ s.build.zinMax)
    (hroom : s.optr.toNat + (zlibStream s.zmode bs (adlerSeq 0x00000001#32 bs)).length ≤ s.build.obufSize) :
    execAll ([.zBegin] ++ bs.map Instr.zByte ++ .zEnd :: is) s.completeOk = execAll is
      ((s.withAdler (adlerSeq 0x00000001#32 bs)).emitted
        (zlibStream s.zmode bs (adlerSeq 0x00000001#32 bs))).completeOk := by
  have hbegin : bodyOf .zBegin s.completeOk = .ok s.streamOpened.completeOk := by
    rw [bodyOf, State.completeOk_zopen, hz]
    rfl
  have hend : bodyOf .zEnd (s.streamOpened.feed bs).completeOk =
      .ok ((s.withAdler (adlerSeq 0x00000001#32 bs)).emitted
        (zlibStream s.zmode bs (adlerSeq 0x00000001#32 bs))).completeOk := by
    rw [streamOpened_feed, zEnd_fits rfl hroom]
    cases s
    cases hz
    cases hzin
    rfl
  have hbytes := execAll_zBytes (is := .zEnd :: is) bs (s := s.streamOpened) rfl
    (by simpa [State.streamOpened] using hfits)
  rw [List.append_assoc, List.singleton_append, execAll_cons hbegin, completeOk_completeOk, hbytes, execAll_cons hend,
    completeOk_completeOk]

/-- What a successful chunk_begin leaves (41_chunk_serializer.md R91). -/
theorem chunkBegin_ok {t : List Byte} {s u : State} (h : chunkBegin t s = .ok u) : u = s.chunkOpened t := by
  by_cases hfits : s.optr.toNat + (4 + t.length) ≤ s.build.obufSize
  · exact (Except.ok.inj ((chunkBegin_fits hfits).symm.trans h)).symm
  · exact absurd (h.symm.trans (chunkBegin_overflows (by omega))) (ok_ne_raise _ _)

/-- What a successful chunk_end leaves, and the room it had (41_chunk_serializer.md R92). -/
theorem chunkEnd_ok {s u : State} (h : chunkEnd s = .ok u) :
    u = s.chunkClosed ∧ s.optr.toNat + 4 ≤ s.build.obufSize ∧ s.cstart.toNat + 3 < s.build.obufSize := by
  by_cases hfits : s.optr.toNat + 4 ≤ s.build.obufSize
  · by_cases hpatch : s.cstart.toNat + 3 < s.build.obufSize
    · exact ⟨(Except.ok.inj ((chunkEnd_fits hfits hpatch).symm.trans h)).symm, hfits, hpatch⟩
    · rw [chunkEnd_outside hfits (by omega)] at h
      cases h
  · exact absurd (h.symm.trans (chunkEnd_overflows (by omega))) (ok_ne_raise _ _)

/-- The three parts of a successful EMIT_IDAT (R83): the stream is put with ADLER already set. -/
theorem idatBody_ok {s t : State} (h : idatBody s = .ok t) : ∃ v,
    chunkBegin typeIdat s = .ok (s.chunkOpened typeIdat) ∧
    putAll (imageStream s) ((s.chunkOpened typeIdat).withAdler (adlerSeq 0x00000001#32 s.raw)) = .ok v ∧
    chunkEnd v = .ok t := by
  obtain ⟨v, hv, hend⟩ := bind_ok (require_ok (require_ok h).2).2
  obtain ⟨u, hu, hput⟩ := bind_ok hv
  obtain rfl := chunkBegin_ok hu
  exact ⟨v, hu, hput, hend⟩

/-- EMIT_IDAT's own checks leave room for its chunk (60_exceptions.md R124 and R127). -/
theorem roomForImage_of_emitIdat {s : State} (h : expectedError .emitIdat s = none) :
    RoomForImage s (12 + (imageStream s).length) := by
  unfold expectedError at h
  split_ifs at h with hseq hdims _ hfits
  refine ⟨?_, ?_, ?_⟩
  · simpa [seqAllowed, State.nothingOpen] using hseq
  · simpa [checksDims, ← dimsOk_iff] using hdims
  · simpa [emitCount, startOf] using hfits

/-- CHUNK_END after a completion (41_chunk_serializer.md R92). -/
theorem execAll_chunkEnd {s u : State} (hc : s.copen = true) (hz : s.zopen = false) (h : chunkEnd s = .ok u) :
    execAll [.chunkEnd] s.completeOk = .next u.completeOk := by
  obtain ⟨rfl, hroom, hpatch⟩ := chunkEnd_ok h
  have hend : bodyOf .chunkEnd s.completeOk = .ok s.completeOk.chunkClosed := by
    rw [bodyOf, State.completeOk_copen, State.completeOk_zopen, hc, hz]
    exact chunkEnd_fits hroom hpatch
  rw [execAll_cons hend]
  rfl

/-- Settles O44: both run chunk_begin, the puts of the image's stream and chunk_end, with ADLER the image's. -/
theorem emitIdatIsTheStreamedSequence : Obligations.EmitIdatIsTheStreamedSequence := by
  intro s h hzin hdata hfits
  have hroom := roomForImage_of_emitIdat h
  obtain ⟨-, hz⟩ := nothingOpen_iff.1 hroom.closed
  obtain ⟨hbody, -⟩ := idatBody_fits (n := 0) hroom rfl
  obtain ⟨v, hbegin, hput, hend⟩ := idatBody_ok hbody
  obtain ⟨rfl, hstreamRoom⟩ := putAll_ok hput
  have hopen : bodyOf .chunkBegin s = .ok (s.chunkOpened typeIdat) := by
    rw [bodyOf, hroom.closed, require_true, State.dataBytes, hdata]
    exact hbegin
  have hstream := execAll_stream (is := [.chunkEnd]) (bs := s.raw) (s := s.chunkOpened typeIdat) hz hzin hfits
    (hstreamRoom.resolve_left nofun)
  simp only [List.cons_append, List.nil_append] at hstream ⊢
  rw [exec_ok (i := .emitIdat) hbody, execAll_cons hopen, hstream]
  exact execAll_chunkEnd (s := ((s.chunkOpened typeIdat).withAdler _).emitted (imageStream s)) rfl hz hend

end Sys2Proof.Machine

/-! The puts and the chunk commands (O11, O15, O22 to O25): each command in closed form where its bytes fit, a chunk built
command by command as the whole chunk of the PNG commands, and the OBUF bytes that lie before all that a command writes
(41_chunk_serializer.md R87 to R92). -/

namespace Sys2Proof.Machine

/-! ### One command each (R89 to R92) -/

/-- PUT_BYTE and PUT_WORD with room emit their bytes (R89, R90). -/
theorem bodyOf_puts_fits {i : Instr} {bs : List Byte} {s : State}
    (hi : (∃ b, i = .putByte b ∧ bs = [b]) ∨ (i = .putWord ∧ bs = be32 s.data))
    (h : s.optr.toNat + bs.length ≤ s.build.obufSize) : bodyOf i s = .ok (s.emitted bs) := by
  rcases hi with ⟨b, rfl, rfl⟩ | ⟨rfl, rfl⟩
  · exact put_fits h
  · exact putAll_fits (be32 s.data) h

/-- Settles O22: both commands are a sequence of puts that fits. -/
theorem putsAppendBytes : Obligations.PutsAppendBytes := by
  intro s i bs hi h
  refine ⟨_, bytesWritten_writeSeq _ _ _, ?_⟩
  rw [exec_ok (bodyOf_puts_fits hi h), ← add_ofNat, ← add_ofNat]
  rfl

/-- CHUNK_BEGIN with nothing open (R91). -/
theorem bodyOf_chunkBegin {s : State} (hc : s.copen = false) (hz : s.zopen = false) :
    bodyOf .chunkBegin s = chunkBegin s.dataBytes s := by
  rw [bodyOf, nothingOpen_iff.2 ⟨hc, hz⟩, require_true]

/-- CHUNK_END with a chunk open and no stream open (R92). -/
theorem bodyOf_chunkEnd {s : State} (hc : s.copen = true) (hz : s.zopen = false) : bodyOf .chunkEnd s = chunkEnd s := by
  rw [bodyOf, hc, hz]
  rfl

/-- Settles O23: the eight puts of chunk_begin fit. -/
theorem chunkBeginOpensChunk : Obligations.ChunkBeginOpensChunk := by
  intro s hc hz h
  refine ⟨_, bytesWritten_writeSeq _ _ _, ?_⟩
  rw [exec_ok ((bodyOf_chunkBegin hc hz).trans (chunkBegin_fits h)), ← add_ofNat]
  rfl

/-- Settles O24: the puts of the CRC fit and the length patch is in range. -/
theorem chunkEndClosesChunk : Obligations.ChunkEndClosesChunk := by
  intro s hc hz h hpatch
  refine ⟨_, _, bytesWritten_writeSeq _ _ _, bytesWritten_writeSeq _ _ _, ?_⟩
  rw [exec_ok ((bodyOf_chunkEnd hc hz).trans (chunkEnd_fits h (by omega))), ← add_ofNat]
  rfl

/-- Settles O11: the puts of the CRC fit, and the patch after them faults. -/
theorem patchOutsideObufStops : Obligations.PatchOutsideObufStops := by
  intro s hc hz h hpatch
  rw [exec_eq_finish, bodyOf_chunkEnd hc hz, chunkEnd_outside h hpatch, finish_fault]

/-! ### A chunk by its commands (R88, R118) -/

/-- A put that succeeds does so after a completion too. -/
theorem put_completeOk {b : Byte} {s u : State} (h : put b s = .ok u) : put b s.completeOk = .ok u.completeOk := by
  rw [put_eq_putAll] at h
  obtain ⟨rfl, hroom⟩ := putAll_ok h
  exact put_fits (s := s.completeOk) (hroom.resolve_left nofun)

/-- PUT_BYTE for each byte of a sequence puts the sequence. -/
theorem execAll_putBytes {is : List Instr} (bs : List Byte) : ∀ {s u : State}, putAll bs s = .ok u →
    execAll (bs.map Instr.putByte ++ is) s.completeOk = execAll is u.completeOk := by
  induction bs with
  | nil =>
    intro s u h
    exact Except.ok.inj h ▸ rfl
  | cons b bs ih =>
    intro s u h
    obtain ⟨v, hput, hrest⟩ := bind_ok h
    rw [List.map_cons, List.cons_append, execAll_cons (i := .putByte b) (put_completeOk hput), completeOk_completeOk,
      ih hrest]

/-- The commands of a chunk run chunk_begin, the puts and chunk_end, as the PNG commands do for theirs (40_png_encoder.md
R82 to R84). -/
theorem execAll_chunk {s u : State} {p : List Byte} (hc : s.copen = false) (hz : s.zopen = false)
    (h : wholeChunk (be32 s.data) p s = .ok u) :
    execAll ([.chunkBegin] ++ p.map Instr.putByte ++ [.chunkEnd]) s = .next u.completeOk := by
  obtain ⟨w, hw, hend⟩ := bind_ok h
  obtain ⟨v, hbegin, hput⟩ := bind_ok hw
  have hopen : bodyOf .chunkBegin s = .ok v := (bodyOf_chunkBegin hc hz).trans hbegin
  obtain rfl := chunkBegin_ok hbegin
  have hflags := putAll_sameOpen hput
  rw [List.append_assoc, List.singleton_append, execAll_cons hopen, execAll_putBytes p hput]
  exact execAll_chunkEnd hflags.copen (hflags.zopen.trans hz) hend

/-- Settles O25: the commands leave the whole chunk of the type in DATA. -/
theorem chunkCommandsSerializeChunk : Obligations.ChunkCommandsSerializeChunk := by
  intro s p hc hz h
  have hchunk := execAll_chunk hc hz (wholeChunk_eq (t := be32 s.data) h)
  obtain ⟨hwritten, hoptr⟩ := wroteChunk_appends (t := be32 s.data) hc h
  obtain ⟨m, -, heq⟩ := wroteChunk_registers (t := be32 s.data) rfl hc h
  have hlt := obufSize_lt s.build
  refine ⟨_, hchunk, hwritten, ?_, ?_, ?_, rfl⟩
  · rw [State.completeOk_optr, hoptr, chunkBytes_length, be32_length]
  · rw [heq]
    rfl
  · rw [State.completeOk_clen, heq]
    exact Nat.mod_eq_of_lt (by omega)

/-! ### The bytes before OPTR0 (R87, R92, R126) -/

/-- Nothing is written before the start. -/
theorem BytesWritten.read_before {m m' : Memory} {a x : Nat} {bs : List Byte} (h : BytesWritten m m' a bs) (hx : x < a) :
    m'.read x = m.read x := by
  rw [h x, if_neg (by omega)]

/-- Every byte before OPTR of `s` reads in `t` as in `s`. -/
def KeepsBefore (s t : State) : Prop := ∀ a, a < s.optr.toNat → t.obuf.read a = s.obuf.read a

theorem keepsBefore_of_obuf_eq {s t : State} (h : t.obuf = s.obuf) : KeepsBefore s t := fun _ _ => by rw [h]

theorem Appends.keepsBefore {bs : List Byte} {s t : State} (h : Appends bs s t) : KeepsBefore s t :=
  fun _ => h.written.read_before

theorem emitted_keepsBefore (s : State) (bs : List Byte) : KeepsBefore s (s.emitted bs) :=
  fun _ => (bytesWritten_writeSeq s.obuf s.optr.toNat bs).read_before

theorem putAll_keepsBefore {bs : List Byte} {s t : State} (h : putAll bs s = .ok t) : KeepsBefore s t :=
  (putAll_ok h).1 ▸ emitted_keepsBefore s bs

theorem chunkBegin_keepsBefore {ty : List Byte} {s t : State} (h : chunkBegin ty s = .ok t) : KeepsBefore s t :=
  chunkBegin_ok h ▸ emitted_keepsBefore s ([0, 0, 0, 0] ++ ty)

/-- chunk_end writes before OPTR only in its length patch (R92). -/
theorem chunkEnd_read {s t : State} {a : Nat} (h : chunkEnd s = .ok t) (ha : a < s.optr.toNat)
    (hpatch : a < s.cstart.toNat ∨ s.cstart.toNat + 4 ≤ a) : t.obuf.read a = s.obuf.read a := by
  obtain ⟨rfl, -, -⟩ := chunkEnd_ok h
  exact (Memory.read_writeSeq_outside hpatch).trans (Memory.read_writeSeq_outside (.inl ha))

/-- What a successful whole chunk leaves, and the room it had (40_png_encoder.md R82 to R84). -/
theorem wholeChunk_ok {ty p : List Byte} {s t : State} (h : wholeChunk ty p s = .ok t) :
    t = s.wroteChunk ty p ∧ s.optr.toNat + (8 + ty.length + p.length) ≤ s.build.obufSize := by
  by_cases hroom : s.optr.toNat + (8 + ty.length + p.length) ≤ s.build.obufSize
  · exact ⟨Except.ok.inj (h.symm.trans (wholeChunk_eq hroom)), hroom⟩
  · exact absurd (h.symm.trans (wholeChunk_overflows (by omega))) (ok_ne_raise _ _)

/-- A whole chunk patches only the header that it has itself emitted. -/
theorem wholeChunk_keepsBefore {ty p : List Byte} {s t : State} (hopen : s.nothingOpen = true)
    (h : wholeChunk ty p s = .ok t) : KeepsBefore s t := by
  obtain ⟨rfl, hroom⟩ := wholeChunk_ok h
  exact (wroteChunk_appends (nothingOpen_iff.1 hopen).1 hroom).keepsBefore

/-- The pseudocode of every command but CHUNK_END, which patches, and ENCODE, which starts at offset 0. -/
theorem bodyOf_keepsBefore {i : Instr} {s t : State} (hend : i ≠ .chunkEnd) (hencode : i ≠ .encode)
    (h : bodyOf i s = .ok t) : KeepsBefore s t := by
  cases i <;> simp only [bodyOf] at h
  case putByte imm => exact putAll_keepsBefore (put_eq_putAll imm s ▸ h)
  case putWord => exact putAll_keepsBefore h
  case chunkBegin => exact chunkBegin_keepsBefore (require_ok h).2
  case chunkEnd => exact absurd rfl hend
  case zBegin =>
    cases (require_ok h).2
    exact keepsBefore_of_obuf_eq rfl
  case zByte | zWord =>
    rw [feedStream_ok h]
    exact keepsBefore_of_obuf_eq rfl
  case zEnd =>
    obtain ⟨u, hu, rfl⟩ := map_ok (require_ok h).2
    exact putAll_keepsBefore (s := { s with zopen := false }) (t := u) hu
  case emitSig => exact putAll_keepsBefore (require_ok h).2
  case emitIhdr =>
    obtain ⟨hopen, h⟩ := require_ok h
    exact wholeChunk_keepsBefore hopen (require_ok h).2
  case emitIdat =>
    rw [idatBody_eq] at h
    obtain ⟨hopen, h⟩ := require_ok h
    exact wholeChunk_keepsBefore (s := s.withAdler (adlerSeq 0x00000001#32 s.raw)) hopen (require_ok h).2
  case emitIend =>
    obtain ⟨hopen, h⟩ := require_ok h
    exact wholeChunk_keepsBefore hopen h
  case encode => exact absurd rfl hencode
  all_goals
    cases h
    exact keepsBefore_of_obuf_eq rfl

/-- An error leaves unspecified at most the bytes from OPTR0 on (60_exceptions.md R126). -/
theorem read_completeError (s : State) {start a : Nat} (e : CmdError) (ha : a < start) :
    (s.completeError start e).obuf.read a = s.obuf.read a := by
  by_cases he : e = .oflow
  · rw [he, State.completeError_obuf_oflow, Memory.read_forget_outside (.inl ha)]
  · rw [State.completeError_obuf_other s start he]

/-- Settles O15: an error keeps the bytes below OPTR0, CHUNK_END patches outside the byte, ENCODE has no byte below its
OPTR0, and every other command writes from OPTR on. -/
theorem bytesBelowStartAreKept : Obligations.BytesBelowStartAreKept := by
  intro i s t h a ha hpatch
  rcases exec_cases h with ⟨u, hu, rfl⟩ | ⟨e, -, rfl⟩
  · rw [State.completeOk_obuf]
    by_cases hencode : i = .encode
    · simp [startOf, hencode] at ha
    · rw [startOf, if_neg hencode] at ha
      by_cases hend : i = .chunkEnd
      · subst hend
        rw [bodyOf] at hu
        exact chunkEnd_read (require_ok hu).2 ha (hpatch rfl)
      · exact bodyOf_keepsBefore hend hencode hu a ha
  · exact read_completeError s e ha

end Sys2Proof.Machine

/-! The tokens of an input (O32 to O34): the match search as a maximum over the suffixes that start before a position, TOKENS
as greedy longest-match parsing, and from that alone the range of every match token and the expansion (42_deflate.md R101). -/

namespace Sys2Proof.Machine

/-! ### The search (R101) -/

/-- Two sequences share `l` leading bytes, `l` at most `m`, exactly when they have them and agree on them. -/
theorem le_matchLen_iff {m l : Nat} {as bs : List Byte} :
    l ≤ matchLen m as bs ↔ l ≤ m ∧ l ≤ as.length ∧ ∀ j, j < l → as[j]? = bs[j]? := by
  fun_induction matchLen m as bs generalizing l with
  | case1 m a as bs ih =>
    cases l with
    | zero => simp
    | succ l =>
      rw [Nat.add_le_add_iff_right, ih, List.length_cons, Nat.add_le_add_iff_right, Nat.add_le_add_iff_right]
      refine and_congr_right fun _ => and_congr_right fun _ => ⟨fun h j hj => ?_, fun h j hj => ?_⟩
      · cases j with
        | zero => rfl
        | succ j => exact h j (by omega)
      · exact h (j + 1) (by omega)
  | case2 m a as b bs hne =>
    refine ⟨fun h => by simp [Nat.le_zero.1 h], fun ⟨_, _, h⟩ => ?_⟩
    by_contra hl
    exact hne (by simpa using h 0 (by omega))
  | case3 m as bs hnil =>
    refine ⟨fun h => by simp [Nat.le_zero.1 h], fun ⟨hm, hlen, h⟩ => ?_⟩
    by_contra hl
    cases m with
    | zero => omega
    | succ m =>
      cases as with
      | nil => simp at hlen; omega
      | cons a as =>
        cases bs with
        | nil => simpa using h 0 (by omega)
        | cons b bs => exact hnil m a as b bs rfl rfl rfl

theorem matchLen_le (m : Nat) (as bs : List Byte) : matchLen m as bs ≤ m :=
  (le_matchLen_iff.1 le_rfl).1

/-- `r` is the answer of the search among the candidates `srcs`, the nearest of them at distance `dist`, after `best` was found
nearer still: the longest match of all, and of those the first. -/
structure SearchResult (m : Nat) (cur : List Byte) (srcs : List (List Byte)) (dist : Nat) (best r : Best) : Prop where
  best_le : best.len ≤ r.len
  longest : ∀ (k : Nat) (src : List Byte), srcs[k]? = some src → matchLen m cur src ≤ r.len
  found : r = best ∨ best.len < r.len ∧ ∃ (k : Nat) (src : List Byte), srcs[k]? = some src ∧ r.dist = dist + k ∧
    matchLen m cur src = r.len ∧ ∀ (j : Nat) (src' : List Byte), j < k → srcs[j]? = some src' → matchLen m cur src' < r.len

/-- The search loop is the maximum: a candidate replaces the best one exactly when it is strictly longer. -/
theorem searchFrom_spec (m : Nat) (cur : List Byte) (srcs : List (List Byte)) (dist : Nat) (best : Best) :
    SearchResult m cur srcs dist best (searchFrom m cur srcs dist best) := by
  induction srcs generalizing dist best with
  | nil => exact ⟨le_rfl, by simp, .inl rfl⟩
  | cons src srcs ih =>
    rw [searchFrom]
    split
    · next hm => exact ⟨le_rfl, fun _ src' _ => hm ▸ matchLen_le m cur src', .inl rfl⟩
    · dsimp only
      split
      · next hlt =>
        obtain ⟨hle, hlong, hfound⟩ := ih (dist + 1) ⟨matchLen m cur src, dist⟩
        refine ⟨hlt.le.trans hle, fun k src' hk => ?_, .inr ⟨hlt.trans_le hle, ?_⟩⟩
        · cases k with
          | zero => cases hk; exact hle
          | succ k => exact hlong k src' hk
        · rcases hfound with heq | ⟨hgt, k, src', hk, hdist, hlen, hfirst⟩
          · exact ⟨0, src, rfl, by rw [heq]; rfl, by rw [heq], by simp⟩
          · refine ⟨k + 1, src', hk, by omega, hlen, fun j src'' hj hsrc => ?_⟩
            cases j with
            | zero => cases hsrc; exact hgt
            | succ j => exact hfirst j src'' (by omega) hsrc
      · next hge =>
        obtain ⟨hle, hlong, hfound⟩ := ih (dist + 1) best
        refine ⟨hle, fun k src' hk => ?_, hfound.imp_right fun ⟨hgt, k, src', hk, hdist, hlen, hfirst⟩ =>
          ⟨hgt, k + 1, src', hk, by omega, hlen, fun j src'' hj hsrc => ?_⟩⟩
        · cases k with
          | zero => cases hk; omega
          | succ k => exact hlong k src' hk
        · cases j with
          | zero => cases hsrc; omega
          | succ j => exact hfirst j src'' (by omega) hsrc

/-- With 3 bytes left the best match is the search's over the window. -/
theorem bestMatch_spec {past : List (List Byte)} {cur : List Byte} (h : 3 ≤ cur.length) :
    SearchResult (min 258 cur.length) cur (past.take 32768) 1 ⟨0, 0⟩ (bestMatch past cur) := by
  have hm : (cur.take maxMatch).length = min 258 cur.length := List.length_take
  rw [bestMatch]
  simp only [hm]
  rw [if_pos (by omega)]
  exact searchFrom_spec _ _ _ _ _

theorem bestMatch_short {past : List (List Byte)} {cur : List Byte} (h : cur.length < 3) : bestMatch past cur = ⟨0, 0⟩ := by
  rw [bestMatch]
  exact if_neg (by simp; omega)

/-! ### The loop (R101) -/

/-- The suffixes of the input that start before position `i`, nearest first. -/
def suffixesBefore (d : List Byte) : Nat → List (List Byte)
  | 0 => []
  | i + 1 => d.drop i :: suffixesBefore d i

theorem cons_suffixesBefore {d : List Byte} {i : Nat} (h : i < d.length) :
    (d[i] :: d.drop (i + 1)) :: suffixesBefore d i = suffixesBefore d (i + 1) := by
  rw [← List.drop_eq_getElem_cons h, suffixesBefore]

/-- The suffix at distance `k + 1`. -/
theorem suffixesBefore_getElem? (d : List Byte) (i k : Nat) :
    (suffixesBefore d i)[k]? = if k < i then some (d.drop (i - (k + 1))) else none := by
  induction i generalizing k with
  | zero => simp [suffixesBefore]
  | succ i ih =>
    cases k with
    | zero => simp [suffixesBefore]
    | succ k => simp [suffixesBefore, ih]

/-- The candidates of the window are the suffixes at the distances 1 to 32768 that stay inside the input. -/
theorem window_getElem?_eq_some_iff {d src : List Byte} {i k : Nat} :
    ((suffixesBefore d i).take 32768)[k]? = some src ↔ k < 32768 ∧ k < i ∧ d.drop (i - (k + 1)) = src := by
  rw [List.getElem?_take, suffixesBefore_getElem?]
  split_ifs <;> simp_all

/-- The matches the tokenizer may take at a distance are the leading bytes shared with the suffix at that distance. -/
theorem isMatch_iff_le_matchLen {d : List Byte} {i l dist : Nat} (h1 : 1 ≤ dist) (hi : dist ≤ i) (hw : dist ≤ 32768)
    (hd : i ≤ d.length) :
    IsMatch d i l dist ↔ l ≤ matchLen (min 258 (d.drop i).length) (d.drop i) (d.drop (i - dist)) := by
  have hbytes : (∀ j, j < l → d[i + j]? = d[i + j - dist]?) ↔ ∀ j, j < l → (d.drop i)[j]? = (d.drop (i - dist))[j]? :=
    forall₂_congr fun j _ => by rw [List.getElem?_drop, List.getElem?_drop, Nat.sub_add_comm hi]
  rw [le_matchLen_iff, ← hbytes, IsMatch, List.length_drop]
  constructor
  · rintro ⟨-, -, -, hl, hlen, h⟩
    exact ⟨by omega, by omega, h⟩
  · rintro ⟨hl, hlen, h⟩
    exact ⟨h1, hi, hw, by omega, by omega, h⟩

/-- No match at a position is longer than the best one. -/
theorem le_bestMatch {d : List Byte} {i l dist : Nat} (hl : 3 ≤ l) (h : IsMatch d i l dist) :
    l ≤ (bestMatch (suffixesBefore d i) (d.drop i)).len := by
  obtain ⟨h1, hi, hw, -, hlen, -⟩ := id h
  have hspec := bestMatch_spec (past := suffixesBefore d i) (cur := d.drop i) (by rw [List.length_drop]; omega)
  exact ((isMatch_iff_le_matchLen h1 hi hw (by omega)).1 h).trans <| hspec.longest (dist - 1) _ <|
    window_getElem?_eq_some_iff.2 ⟨by omega, by omega, by rw [Nat.sub_add_cancel h1]⟩

/-- The best match at a position, where there is one, is a match, and no nearer one has its length. -/
theorem bestMatch_isMatch {d : List Byte} {i : Nat} {best : Best}
    (hbest : bestMatch (suffixesBefore d i) (d.drop i) = best) (hl : 3 ≤ best.len) :
    IsMatch d i best.len best.dist ∧ ∀ dist, IsMatch d i best.len dist → best.dist ≤ dist := by
  subst hbest
  have hlen : 3 ≤ (d.drop i).length := by
    by_contra hshort
    rw [bestMatch_short (by omega)] at hl
    exact absurd hl (by decide)
  rcases (bestMatch_spec (past := suffixesBefore d i) hlen).found with hzero | ⟨-, k, src, hk, hdist, hmatch, hfirst⟩
  · rw [hzero] at hl
    exact absurd hl (by decide)
  · obtain ⟨hw, hi, rfl⟩ := window_getElem?_eq_some_iff.1 hk
    rw [List.length_drop] at hlen
    rw [hdist, Nat.add_comm 1 k]
    refine ⟨(isMatch_iff_le_matchLen (by omega) (by omega) (by omega) (by omega)).2 hmatch.ge, fun dist h => ?_⟩
    obtain ⟨h1, hle, hwin, -⟩ := id h
    by_contra hnear
    have hlt := hfirst (dist - 1) _ (by omega) (window_getElem?_eq_some_iff.2 ⟨by omega, by omega, rfl⟩)
    rw [Nat.sub_add_cancel h1] at hlt
    have hge := (isMatch_iff_le_matchLen h1 hle hwin (by omega)).1 h
    omega

/-- Moving the position on. -/
theorem slide_suffixesBefore {d : List Byte} {k i : Nat} (h : i + k ≤ d.length) :
    slide k (suffixesBefore d i) (d.drop i) = (suffixesBefore d (i + k), d.drop (i + k)) := by
  induction k generalizing i with
  | zero => simp [slide]
  | succ k ih =>
    rw [List.drop_eq_getElem_cons (by omega), slide, cons_suffixesBefore, ih (by omega), Nat.add_right_comm, Nat.add_assoc]

/-- The loop parses greedily from every position, with fuel for every byte left. -/
theorem tokensFrom_greedy {d : List Byte} {fuel i : Nat} (hi : i ≤ d.length) (hfuel : d.length ≤ i + fuel) :
    GreedyFrom d i (tokensFrom fuel (suffixesBefore d i) (d.drop i)) := by
  induction fuel generalizing i with
  | zero => exact Nat.le_antisymm hi hfuel
  | succ fuel ih =>
    rcases hi.eq_or_lt with rfl | hlt
    · rw [List.drop_length]
      exact rfl
    · rw [List.drop_eq_getElem_cons hlt, tokensFrom, cons_suffixesBefore, ← List.drop_eq_getElem_cons hlt]
      split_ifs with hlen
      · obtain ⟨hmatch, hnearest⟩ := bestMatch_isMatch rfl hlen
        obtain ⟨-, -, -, -, hinside, -⟩ := id hmatch
        rw [slide_suffixesBefore hinside]
        refine ⟨hlen, hmatch, fun len' dist' h => ?_, hnearest, ih hinside (by omega)⟩
        by_cases h3 : 3 ≤ len'
        · exact le_bestMatch h3 h
        · omega
      · exact ⟨List.getElem?_eq_getElem hlt, fun len dist h3 h => hlen (h3.trans (le_bestMatch h3 h)),
          ih hlt (by omega)⟩

theorem tokens_greedy (d : List Byte) : GreedyFrom d 0 (tokens d) :=
  tokensFrom_greedy (Nat.zero_le _) (Nat.le_add_left _ _)

/-! ### What greedy parsing gives (R101, R107) -/

/-- Every match token of a greedy parse is a match of at least 3 bytes somewhere. -/
theorem GreedyFrom.isMatch_of_mem {d : List Byte} {ts : List Token} {i len dist : Nat} (h : GreedyFrom d i ts)
    (hmem : Token.copy len dist ∈ ts) : 3 ≤ len ∧ ∃ j, IsMatch d j len dist := by
  induction ts generalizing i with
  | nil => simp at hmem
  | cons t ts ih =>
    cases t with
    | lit b =>
      obtain ⟨-, -, hrest⟩ := h
      exact ih hrest (by simpa using hmem)
    | copy len' dist' =>
      obtain ⟨hlen, hmatch, -, -, hrest⟩ := h
      rcases List.mem_cons.1 hmem with heq | hmem
      · cases heq
        exact ⟨hlen, i, hmatch⟩
      · exact ih hrest hmem

/-- The first byte of a match, and the match that is left after it. -/
theorem IsMatch.succ {d : List Byte} {i len dist : Nat} (h : IsMatch d i (len + 1) dist) :
    d[i]? = d[i - dist]? ∧ IsMatch d (i + 1) len dist := by
  obtain ⟨h1, hi, hw, hl, hlen, hbytes⟩ := h
  refine ⟨hbytes 0 (Nat.succ_pos _), h1, by omega, hw, by omega, by omega, fun j hj => ?_⟩
  have hj := hbytes (j + 1) (by omega)
  rwa [← Nat.add_assoc, Nat.add_right_comm] at hj

/-- A match copied back continues the input. -/
theorem copyBack_take {d : List Byte} {i len dist : Nat} (h : IsMatch d i len dist) :
    copyBack len dist (d.take i) = some (d.take (i + len)) := by
  induction len generalizing i with
  | zero => rfl
  | succ len ih =>
    obtain ⟨h1, hi, -, -, hlen, -⟩ := id h
    obtain ⟨hbyte, hrest⟩ := h.succ
    have hlength : (d.take i).length = i := List.length_take_of_le (by omega)
    have hsource : (d.take i).getD (i - dist) 0 = d[i] := by
      rw [List.getD_eq_getElem?_getD, List.getElem?_take_of_lt (by omega), ← hbyte, List.getElem?_eq_getElem (by omega)]
      rfl
    rw [copyBack, hlength, if_pos ⟨h1, hi⟩, hsource, List.take_append_getElem, ih hrest, Nat.add_assoc, Nat.add_comm 1]

/-- A greedy parse from a position on expands to the input, after the bytes before that position. -/
theorem GreedyFrom.expand_take {d : List Byte} {ts : List Token} {i : Nat} (h : GreedyFrom d i ts) :
    expand ts (d.take i) = some d := by
  induction ts generalizing i with
  | nil => rw [expand, show i = d.length from h, List.take_length]
  | cons t ts ih =>
    cases t with
    | lit b =>
      obtain ⟨hbyte, -, hrest⟩ := h
      rw [expand, ← ih hrest, List.take_add_one, hbyte]
      rfl
    | copy len dist =>
      obtain ⟨-, hmatch, -, -, hrest⟩ := h
      rw [expand, copyBack_take hmatch, Option.bind_some, ih hrest]

/-- Settles O34: a greedy parse expands to its input. -/
theorem tokensExpandToInput : Obligations.TokensExpandToInput := fun d => (tokens_greedy d).expand_take

/-- Settles O33: every match token of a greedy parse is a match. -/
theorem tokensAreEncodable : Obligations.TokensAreEncodable := by
  intro d len dist hmem
  obtain ⟨hlen, -, h1, -, hw, hl, -⟩ := (tokens_greedy d).isMatch_of_mem hmem
  exact ⟨hlen, hl, h1, hw⟩

/-- Settles O32: the loop parses greedily, and the search answers the first of the longest matches. -/
theorem searchTakesLongestNearestMatch : Obligations.SearchTakesLongestNearestMatch := by
  refine ⟨tokens_greedy, fun past cur h => ?_⟩
  obtain ⟨-, hlongest, hfound⟩ := bestMatch_spec (past := past) h
  refine ⟨hlongest, fun hpos => ?_⟩
  rcases hfound with hzero | ⟨-, k, src, hk, hdist, hlen, hfirst⟩
  · exact absurd hpos (by rw [hzero]; decide)
  · have hindex : (bestMatch past cur).dist - 1 = k := by omega
    exact ⟨src, by rw [hindex]; exact hk, by omega, hlen, fun j src' hj hsrc => hfirst j src' (by omega) hsrc⟩

end Sys2Proof.Machine

/-! Bits and codes (O31): what each reader of the decoder returns on what the encoder writes, for values, whole bytes, fixed
codes and rows of the code tables (42_deflate.md R97 to R100). -/

namespace Sys2Proof.Machine

/-! ### Values as bits (R97) -/

@[simp] theorem bitsLsb_length (v n : Nat) : (bitsLsb v n).length = n := by simp [bitsLsb]

@[simp] theorem bitsMsb_length (v n : Nat) : (bitsMsb v n).length = n := by simp [bitsMsb]

/-- The bits of a low part and of a high part, one after the other. -/
theorem bitsLsb_add {a k : Nat} (c n : Nat) (h : a < 2 ^ k) : bitsLsb (a + c * 2 ^ k) (k + n) = bitsLsb a k ++ bitsLsb c n := by
  have hbit (j : Nat) : (a + c * 2 ^ k).testBit j = if j < k then a.testBit j else c.testBit (j - k) := by
    rw [Nat.add_comm, Nat.mul_comm, Nat.testBit_two_pow_mul_add c h]
  rw [bitsLsb, List.range_add, List.map_append, List.map_map]
  congr 1
  · exact List.map_congr_left fun j hj => by rw [hbit, if_pos (List.mem_range.1 hj)]
  · exact List.map_congr_left fun j _ => by rw [Function.comp_apply, hbit, if_neg (by omega), Nat.add_sub_cancel_left]

theorem bitsLsb_succ (v n : Nat) : bitsLsb v (n + 1) = v.testBit 0 :: bitsLsb (v / 2) n := by
  simp [bitsLsb, List.range_succ_eq_map, Function.comp_def, Nat.testBit_succ]

theorem bitsLsb_zero_left (n : Nat) : bitsLsb 0 n = List.replicate n false := by
  exact List.eq_replicate_iff.2 ⟨bitsLsb_length 0 n, by simp [bitsLsb]⟩

theorem bitsMsb_succ (v n : Nat) : bitsMsb v (n + 1) = v.testBit n :: bitsMsb v n := by
  simp [bitsMsb, bitsLsb, List.range_succ]

/-- Least significant bit first, the value comes back. -/
@[simp] theorem takeLsb_bitsLsb (v n : Nat) (rest : List Bool) :
    takeLsb n (bitsLsb v n ++ rest) = some (v % 2 ^ n, rest) := by
  induction n generalizing v with
  | zero => simp [takeLsb, bitsLsb, Nat.mod_one]
  | succ n ih =>
    have hbit : (v.testBit 0).toNat = v % 2 := by rw [Nat.toNat_testBit, Nat.pow_zero, Nat.div_one]
    rw [bitsLsb_succ, List.cons_append, takeLsb, ih, Option.map_some, hbit, Nat.pow_succ', Nat.mod_mul]

/-- Most significant bit first, the value comes back below those bits read before. -/
@[simp] theorem takeMsb_bitsMsb (v n acc : Nat) (rest : List Bool) :
    takeMsb n acc (bitsMsb v n ++ rest) = some (acc * 2 ^ n + v % 2 ^ n, rest) := by
  induction n generalizing acc with
  | zero => simp [takeMsb, bitsMsb, bitsLsb, Nat.mod_one]
  | succ n ih =>
    rw [bitsMsb_succ, List.cons_append, takeMsb, ih, Nat.mod_pow_succ, ← Nat.toNat_testBit]
    congr 2
    ring

/-! ### Bytes as bits (R97) -/

theorem unpackBits_cons (b : Byte) (bs : List Byte) : unpackBits (b :: bs) = bitsLsb b.toNat 8 ++ unpackBits bs := rfl

@[simp] theorem unpackBits_append (bs cs : List Byte) : unpackBits (bs ++ cs) = unpackBits bs ++ unpackBits cs :=
  List.flatMap_append

@[simp] theorem unpackBits_length (bs : List Byte) : (unpackBits bs).length = 8 * bs.length := by
  induction bs with
  | nil => rfl
  | cons b bs ih =>
    rw [unpackBits_cons, List.length_append, bitsLsb_length, ih, List.length_cons]
    omega

/-- Whole bytes come back. -/
@[simp] theorem takeBytes_unpackBits (bs : List Byte) (rest : List Bool) :
    takeBytes bs.length (unpackBits bs ++ rest) = some (bs, rest) := by
  induction bs with
  | nil => rfl
  | cons b bs ih =>
    rw [unpackBits_cons, List.append_assoc, List.length_cons, takeBytes, takeLsb_bitsLsb, Option.bind_some, ih,
      Nat.mod_eq_of_lt b.isLt]
    simp

/-- Before whole bytes, what is left of the current byte is skipped. -/
theorem alignByte_append {bs rest : List Bool} (hbs : bs.length < 8) (hrest : rest.length % 8 = 0) :
    alignByte (bs ++ rest) = rest := by
  have hmod : (bs ++ rest).length % 8 = bs.length := by rw [List.length_append]; omega
  rw [alignByte, hmod, List.drop_left]

/-- The packed bits come back, after the bits already in the byte and before fewer than eight zeros. -/
theorem unpackBits_packFrom {bs : List Bool} {k acc : Nat} (hk : k < 8) (hacc : acc < 2 ^ k) :
    ∃ pad, pad < 8 ∧ unpackBits (packFrom bs k acc) = bitsLsb acc k ++ bs ++ List.replicate pad false := by
  induction bs generalizing k acc with
  | nil =>
    rw [packFrom]
    split_ifs with h0
    · exact ⟨0, by decide, by simp [h0, bitsLsb, unpackBits]⟩
    · refine ⟨8 - k, by omega, ?_⟩
      have hle : 2 ^ k ≤ 2 ^ 8 := Nat.pow_le_pow_right (by decide) hk.le
      have hbits := bitsLsb_add 0 (8 - k) hacc
      rw [Nat.zero_mul, Nat.add_zero, Nat.add_sub_cancel' hk.le, bitsLsb_zero_left] at hbits
      rw [unpackBits_cons, BitVec.toNat_ofNat, Nat.mod_eq_of_lt (by omega), hbits]
      simp [unpackBits]
  | cons b bs ih =>
    have hacc' : acc + b.toNat * 2 ^ k < 2 ^ (k + 1) := by
      have hb := Nat.mul_le_mul_right (2 ^ k) b.toNat_le
      rw [Nat.pow_succ]
      omega
    have hbits : bitsLsb (acc + b.toNat * 2 ^ k) (k + 1) = bitsLsb acc k ++ [b] := by
      rw [bitsLsb_add _ _ hacc, bitsLsb_succ]
      cases b <;> rfl
    rw [packFrom]
    split_ifs with h7
    · subst h7
      obtain ⟨pad, hpad, heq⟩ := ih (k := 0) (acc := 0) (by decide) (by decide)
      refine ⟨pad, hpad, ?_⟩
      rw [unpackBits_cons, heq, BitVec.toNat_ofNat, Nat.mod_eq_of_lt hacc', hbits]
      simp [bitsLsb]
    · obtain ⟨pad, hpad, heq⟩ := ih (by omega) hacc'
      exact ⟨pad, hpad, by rw [heq, hbits, List.append_assoc (bitsLsb acc k), List.singleton_append]⟩

theorem unpackBits_packBits (bs : List Bool) :
    ∃ pad, pad < 8 ∧ unpackBits (packBits bs) = bs ++ List.replicate pad false :=
  unpackBits_packFrom (k := 0) (acc := 0) (by decide) (by decide)

/-! ### The fixed code (R98) -/

/-- The four rules of the fixed code, as symbol ranges: the number and the number of bits. -/
theorem fixedCode_cases (v : Nat) :
    v ≤ 143 ∧ fixedCode v = bitsMsb (0x30 + v) 8 ∨
    144 ≤ v ∧ v ≤ 255 ∧ fixedCode v = bitsMsb (0x190 + (v - 144)) 9 ∨
    256 ≤ v ∧ v ≤ 279 ∧ fixedCode v = bitsMsb (v - 256) 7 ∨
    280 ≤ v ∧ fixedCode v = bitsMsb (0xC0 + (v - 280)) 8 := by
  unfold fixedCode
  split_ifs with h1 h2 h3
  · exact .inl ⟨h1, rfl⟩
  · exact .inr (.inl ⟨by omega, h2, rfl⟩)
  · exact .inr (.inr (.inl ⟨by omega, h3, rfl⟩))
  · exact .inr (.inr (.inr ⟨by omega, rfl⟩))

theorem fixedCode_length_pos (v : Nat) : 0 < (fixedCode v).length := by
  rcases fixedCode_cases v with ⟨-, h⟩ | ⟨-, -, h⟩ | ⟨-, -, h⟩ | ⟨-, h⟩ <;> simp [h]

/-- A code without its last bit, and the last bit. -/
theorem bitsMsb_succ_last (v n : Nat) : bitsMsb v (n + 1) = bitsMsb (v / 2) n ++ bitsMsb v 1 := by
  rw [bitsMsb, bitsLsb_succ, List.reverse_cons]
  rfl

/-- The fixed code is read back: a symbol of 7, of 8 or of 9 bits, told apart by the first 7 and the first 8 of them. -/
theorem takeSymbol_fixedCode {v : Nat} (hv : v ≤ 287) (rest : List Bool) :
    takeSymbol (fixedCode v ++ rest) = some (v, rest) := by
  rcases fixedCode_cases v with ⟨h, hcode⟩ | ⟨hlo, h, hcode⟩ | ⟨hlo, h, hcode⟩ | ⟨hlo, hcode⟩
  · rw [hcode, bitsMsb_succ_last, List.append_assoc, takeSymbol, takeMsb_bitsMsb, Option.bind_some, if_neg (by omega),
      takeMsb_bitsMsb, Option.bind_some, if_pos (by omega)]
    simp only [Option.some.injEq, Prod.mk.injEq, and_true]
    omega
  · rw [hcode, bitsMsb_succ_last, bitsMsb_succ_last, List.append_assoc, List.append_assoc, takeSymbol, takeMsb_bitsMsb,
      Option.bind_some, if_neg (by omega), takeMsb_bitsMsb, Option.bind_some, if_neg (by omega), if_neg (by omega),
      takeMsb_bitsMsb, Option.map_some]
    simp only [Option.some.injEq, Prod.mk.injEq, and_true]
    omega
  · rw [hcode, takeSymbol, takeMsb_bitsMsb, Option.bind_some, if_pos (by omega)]
    simp only [Option.some.injEq, Prod.mk.injEq, and_true]
    omega
  · rw [hcode, bitsMsb_succ_last, List.append_assoc, takeSymbol, takeMsb_bitsMsb, Option.bind_some, if_neg (by omega),
      takeMsb_bitsMsb, Option.bind_some, if_neg (by omega), if_pos (by omega)]
    simp only [Option.some.injEq, Prod.mk.injEq, and_true]
    omega

/-! ### The code tables (R99, R100) -/

/-- What makes a code table readable for the values `lo` to `hi`: a row for every value, one only, told by its symbol, with
bits enough for the offset. -/
structure CodeTable (table : List CodeRow) (lo hi : Nat) : Prop where
  covers : ∀ v, lo ≤ v → v ≤ hi → ∃ r ∈ table, r.first ≤ v ∧ v ≤ r.last
  disjoint : ∀ r ∈ table, ∀ s ∈ table, r.first ≤ s.last → s.first ≤ r.last → r = s
  symbols : (table.map CodeRow.sym).Nodup
  extra : ∀ r ∈ table, r.last - r.first < 2 ^ r.extra

/-- Rows that follow one another without a gap hold every value between. -/
theorem exists_row_of_isChain {r : CodeRow} {rs : List CodeRow} {v : Nat}
    (h : (r :: rs).IsChain fun r s => s.first = r.last + 1) (hlo : r.first ≤ v)
    (hhi : v ≤ ((r :: rs).getLast (by simp)).last) : ∃ s ∈ r :: rs, s.first ≤ v ∧ v ≤ s.last := by
  induction rs generalizing r with
  | nil => exact ⟨r, by simp, hlo, hhi⟩
  | cons s rs ih =>
    obtain ⟨hnext, hrest⟩ := List.isChain_cons_cons.1 h
    by_cases hv : v ≤ r.last
    · exact ⟨r, by simp, hlo, hv⟩
    · obtain ⟨t, ht, hrange⟩ := ih hrest (by omega) (by simpa using hhi)
      exact ⟨t, List.mem_cons_of_mem r ht, hrange⟩

theorem codeTable_length : CodeTable lengthTable 3 258 where
  covers _ := exists_row_of_isChain (r := ⟨257, 0, 3, 3⟩) (rs := lengthTable.tail) (by decide)
  disjoint := by decide
  symbols := by decide
  extra := by decide

theorem codeTable_dist : CodeTable distTable 1 32768 where
  covers _ := exists_row_of_isChain (r := ⟨0, 0, 1, 1⟩) (rs := distTable.tail) (by decide)
  disjoint := by decide
  symbols := by decide
  extra := by decide

/-- The only element that passes a test is the one found. -/
theorem find?_eq_some_of_unique {α : Type} {p : α → Bool} {l : List α} {a : α} (hmem : a ∈ l) (ha : p a = true)
    (huniq : ∀ b ∈ l, p b = true → b = a) : l.find? p = some a := by
  obtain ⟨b, hb⟩ := Option.isSome_iff_exists.1 (List.find?_isSome.2 ⟨a, hmem, ha⟩)
  rw [hb, huniq b (List.mem_of_find?_eq_some hb) (List.find?_some hb)]

namespace CodeTable

variable {table : List CodeRow} {lo hi : Nat}

/-- A value in the range of a row has that row. -/
theorem rowOf_eq (h : CodeTable table lo hi) {r : CodeRow} (hr : r ∈ table) {v : Nat} (hfirst : r.first ≤ v)
    (hlast : v ≤ r.last) : rowOf table v = r := by
  rw [rowOf, find?_eq_some_of_unique hr (by simp [hfirst, hlast])]
  · rfl
  · intro s hs hrange
    simp only [Bool.and_eq_true, decide_eq_true_eq] at hrange
    exact h.disjoint s hs r hr (by omega) (by omega)

/-- The row of a value that the table covers. -/
theorem rowOf_spec (h : CodeTable table lo hi) {v : Nat} (hlo : lo ≤ v) (hhi : v ≤ hi) :
    rowOf table v ∈ table ∧ (rowOf table v).first ≤ v ∧ v ≤ (rowOf table v).last ∧
      v - (rowOf table v).first < 2 ^ (rowOf table v).extra := by
  obtain ⟨r, hr, hfirst, hlast⟩ := h.covers v hlo hhi
  have hextra := h.extra r hr
  rw [h.rowOf_eq hr hfirst hlast]
  exact ⟨hr, hfirst, hlast, by omega⟩

/-- A value is read back from its row's symbol and extra bits. -/
theorem takeInRow_extraBits (h : CodeTable table lo hi) {v : Nat} (hlo : lo ≤ v) (hhi : v ≤ hi) (rest : List Bool) :
    takeInRow table (rowOf table v).sym (extraBits (rowOf table v) v ++ rest) = some (v, rest) := by
  obtain ⟨hr, hfirst, -, hextra⟩ := h.rowOf_spec hlo hhi
  have hrow : rowOfSymbol table (rowOf table v).sym = some (rowOf table v) :=
    find?_eq_some_of_unique hr (beq_self_eq_true _) fun s hs hsym =>
      List.inj_on_of_nodup_map h.symbols hs hr (eq_of_beq hsym)
  rw [takeInRow, hrow, Option.bind_some, extraBits, takeLsb_bitsLsb, Option.map_some, Nat.mod_eq_of_lt hextra,
    Nat.add_sub_cancel' hfirst]

end CodeTable

/-- Settles O31: the four rules of the code, and the two tables as tables of rows without gaps. -/
theorem codeTablesCoverTheirRanges : Obligations.CodeTablesCoverTheirRanges := by
  have hread (c n : Nat) (hc : c < 2 ^ n) : takeMsb n 0 (bitsMsb c n) = some (c, []) := by
    simpa [Nat.mod_eq_of_lt hc] using takeMsb_bitsMsb c n 0 []
  exact ⟨fun v h => by rw [fixedCode, if_pos h, hread _ _ (by omega)],
    fun v hlo h => by rw [fixedCode, if_neg (by omega), if_pos h, hread _ _ (by omega)],
    fun v hlo h => by rw [fixedCode, if_neg (by omega), if_neg (by omega), if_pos h, hread _ _ (by omega)],
    fun v hlo h => by rw [fixedCode, if_neg (by omega), if_neg (by omega), if_neg (by omega), hread _ _ (by omega)],
    fun r hr v => codeTable_length.rowOf_eq hr, fun r hr v => codeTable_dist.rowOf_eq hr,
    fun v => codeTable_length.rowOf_spec, fun v => codeTable_dist.rowOf_spec,
    codeTable_length.symbols, codeTable_dist.symbols, by decide⟩

end Sys2Proof.Machine

/-! Kernels and streams (O30, O35): STORED block by block, and the decoder on each block type and on a whole stream
(42_deflate.md R93 to R97, R102, R107). -/

namespace Sys2Proof.Machine

/-! ### STORED (R96) -/

/-- Up to 65535 bytes are one final block. -/
theorem stored_of_le {d : List Byte} (h : d.length ≤ 65535) : stored d = storedBlock true d := by
  have hcount : storedCount d.length = 1 := by
    unfold storedCount storedMax
    omega
  rw [stored, hcount]
  simp [storedMax, List.take_of_length_le h]

/-- More bytes are a full block, not the final one, and the blocks of the rest. -/
theorem stored_of_lt {d : List Byte} (h : 65535 < d.length) :
    stored d = storedBlock false (d.take 65535) ++ stored (d.drop 65535) := by
  obtain ⟨k, hk⟩ : ∃ k, storedCount (d.drop 65535).length = k + 1 := Nat.exists_eq_succ_of_ne_zero <| by
    unfold storedCount
    omega
  have hcount : storedCount d.length = k + 1 + 1 := by
    rw [← hk, List.length_drop]
    unfold storedCount storedMax
    omega
  rw [stored, stored, hcount, hk, List.range_succ_eq_map, List.flatMap_cons, List.flatMap_map]
  congr 1
  refine List.flatMap_congr fun j _ => ?_
  rw [List.drop_drop, Nat.succ_eq_add_one, storedMax, Nat.mul_succ, Nat.add_comm 65535]
  simp

theorem storedBlock_length (final : Bool) (blk : List Byte) : (storedBlock final blk).length = blk.length + 5 := by
  simp [storedBlock, le16]

theorem stored_length (d : List Byte) : (stored d).length = d.length + 5 * max 1 ((d.length + 65534) / 65535) := by
  by_cases h : d.length ≤ 65535
  · rw [stored_of_le h, storedBlock_length]
    omega
  · rw [stored_of_lt (by omega), List.length_append, storedBlock_length, stored_length (d.drop 65535),
      List.length_take_of_le (by omega), List.length_drop]
    omega
termination_by d.length
decreasing_by
  rw [List.length_drop]
  omega

/-- NLEN, the complement of LEN in 16 bits. -/
theorem xor_0xFFFF {n : Nat} (h : n ≤ 65535) : n ^^^ 0xFFFF = 65535 - n := by
  refine Nat.eq_of_testBit_eq fun i => ?_
  rw [Nat.testBit_xor, show 0xFFFF = 2 ^ 16 - 1 by rfl, Nat.testBit_two_pow_sub_one, Nat.sub_sub, Nat.add_comm 1 n,
    Nat.testBit_two_pow_sub_succ (by omega)]
  by_cases hi : i < 16
  · simp [hi]
  · have hle : 2 ^ 16 ≤ 2 ^ i := Nat.pow_le_pow_right (by decide) (by omega)
    simp [hi, Nat.testBit_lt_two_pow (show n < 2 ^ i by omega)]

/-- Settles O30: a last block, or a full block and the rest. -/
theorem storedLengthIsInputPlusFivePerBlock : Obligations.StoredLengthIsInputPlusFivePerBlock := by
  refine fun d => ⟨stored_length d, fun h => ?_, fun h => ?_⟩
  · rw [stored_of_le h, storedBlock, xor_0xFFFF h]
    rfl
  · rw [stored_of_lt h, storedBlock, List.length_take_of_le h.le]
    rfl

/-! ### The decoder on stored blocks (R96) -/

theorem unpackBits_le16 {n : Nat} (h : n < 65536) : unpackBits (le16 n) = bitsLsb n 16 := by
  have hsplit := bitsLsb_add (k := 8) (n / 256) 8 (show n % 256 < 2 ^ 8 by omega)
  rw [show n % 256 + n / 256 * 2 ^ 8 = n by omega] at hsplit
  have hlow : (BitVec.ofNat 8 n).toNat = n % 256 := BitVec.toNat_ofNat n 8
  have hhigh : (BitVec.ofNat 8 (n / 256)).toNat = n / 256 := by rw [BitVec.toNat_ofNat]; omega
  rw [le16, unpackBits_cons, unpackBits_cons, hlow, hhigh, hsplit]
  simp [unpackBits]

/-- The header byte of a stored block: BFINAL, BTYPE 00 and the rest of the byte. -/
theorem unpackBits_storedHeader (final : Bool) :
    unpackBits [if final then 1 else 0] = bitsLsb final.toNat 1 ++ (bitsLsb 0 2 ++ bitsLsb 0 5) := by
  cases final <;> rfl

/-- The decoder reads a stored block and stops at the final one. -/
theorem inflate_storedBlock {fuel : Nat} {final : Bool} {blk out : List Byte} {rest : List Bool}
    (hblk : blk.length ≤ 65535) (hrest : rest.length % 8 = 0) :
    inflate (fuel + 1) (unpackBits (storedBlock final blk) ++ rest) out =
      if final then some (out ++ blk, rest) else inflate fuel rest (out ++ blk) := by
  have hxor := xor_0xFFFF hblk
  have hmod : blk.length % 2 ^ 16 = blk.length := Nat.mod_eq_of_lt (by omega)
  have hbits : unpackBits (storedBlock final blk) ++ rest = bitsLsb final.toNat 1 ++ (bitsLsb 0 2 ++ (bitsLsb 0 5 ++
      (bitsLsb blk.length 16 ++ (bitsLsb (blk.length ^^^ 0xFFFF) 16 ++ (unpackBits blk ++ rest))))) := by
    simp only [storedBlock, unpackBits_append, unpackBits_storedHeader, unpackBits_le16 (show blk.length < 65536 by omega),
      unpackBits_le16 (show blk.length ^^^ 0xFFFF < 65536 by omega), List.append_assoc]
  rw [hbits, inflate]
  simp only [takeLsb_bitsLsb, Option.bind_some]
  rw [if_pos (by decide), alignByte_append (by simp) (by simp; omega)]
  simp only [takeLsb_bitsLsb, Option.bind_some]
  rw [hmod, if_pos (by omega), takeBytes_unpackBits, Option.map_some, Option.bind_some]
  cases final <;> rfl

/-- The decoder reads all blocks of an input, with fuel for more blocks than bytes. -/
theorem inflate_stored {fuel : Nat} {d out : List Byte} {rest : List Bool} (hfuel : d.length < fuel)
    (hrest : rest.length % 8 = 0) : inflate fuel (unpackBits (stored d) ++ rest) out = some (out ++ d, rest) := by
  induction fuel generalizing d out with
  | zero => omega
  | succ fuel ih =>
    by_cases h : d.length ≤ 65535
    · rw [stored_of_le h, inflate_storedBlock h hrest]
      rfl
    · rw [stored_of_lt (by omega), unpackBits_append, List.append_assoc,
        inflate_storedBlock (List.length_take_le _ _) (by simp; omega), if_neg (by decide),
        ih (by rw [List.length_drop]; omega), List.append_assoc, List.take_append_drop]

/-! ### The decoder on a fixed block (R98 to R102) -/

/-- A token whose length and distance the tables hold (R99 to R101). -/
def Token.Encodable : Token → Prop
  | .lit _ => True
  | .copy len dist => 3 ≤ len ∧ len ≤ 258 ∧ 1 ≤ dist ∧ dist ≤ 32768

theorem encodable_of_mem_tokens {d : List Byte} {t : Token} (h : t ∈ tokens d) : t.Encodable := by
  cases t with
  | lit b => trivial
  | copy len dist => exact tokensAreEncodable d len dist h

theorem lengthTable_sym {r : CodeRow} (h : r ∈ lengthTable) : 257 ≤ r.sym ∧ r.sym ≤ 285 := by
  revert r
  decide

theorem distTable_sym {r : CodeRow} (h : r ∈ distTable) : r.sym < 2 ^ 5 := by
  revert r
  decide

/-- The decoder reads one token. -/
theorem takeTokens_tokenBits {t : Token} (ht : t.Encodable) (fuel : Nat) (rest : List Bool) :
    takeTokens (fuel + 1) (tokenBits t ++ rest) = (takeTokens fuel rest).map fun q => (t :: q.1, q.2) := by
  cases t with
  | lit b =>
    have hb : b.toNat < 256 := b.isLt
    rw [tokenBits, takeTokens, takeSymbol_fixedCode (by omega), Option.bind_some, if_neg (by omega), if_pos hb,
      BitVec.ofNat_toNat, BitVec.setWidth_eq]
  | copy len dist =>
    obtain ⟨hlen, hlen', hdist, hdist'⟩ := ht
    obtain ⟨hl, -⟩ := codeTable_length.rowOf_spec hlen hlen'
    obtain ⟨hd, -⟩ := codeTable_dist.rowOf_spec hdist hdist'
    obtain ⟨hlo, hhi⟩ := lengthTable_sym hl
    rw [tokenBits, takeTokens]
    simp only [List.append_assoc]
    rw [takeSymbol_fixedCode (by omega), Option.bind_some, if_neg (by omega), if_neg (by omega),
      codeTable_length.takeInRow_extraBits hlen hlen', Option.bind_some, takeMsb_bitsMsb, Option.bind_some,
      Nat.zero_mul, Nat.zero_add, Nat.mod_eq_of_lt (distTable_sym hd), codeTable_dist.takeInRow_extraBits hdist hdist',
      Option.bind_some]

theorem tokenBits_length_pos (t : Token) : 0 < (tokenBits t).length := by
  cases t with
  | lit b => exact fixedCode_length_pos b.toNat
  | copy len dist =>
    have hpos := fixedCode_length_pos (rowOf lengthTable len).sym
    simp only [tokenBits, List.length_append]
    omega

/-- Every token has at least one bit: the bits are fuel for the tokens. -/
theorem length_le_length_flatMap_tokenBits (ts : List Token) : ts.length ≤ (ts.flatMap tokenBits).length := by
  induction ts with
  | nil => exact le_rfl
  | cons t ts ih =>
    have hpos := tokenBits_length_pos t
    rw [List.flatMap_cons, List.length_append, List.length_cons]
    omega

/-- The decoder reads the tokens up to the end symbol. -/
theorem takeTokens_flatMap_tokenBits {ts : List Token} (hts : ∀ t ∈ ts, t.Encodable) {fuel : Nat} (hfuel : ts.length < fuel)
    (rest : List Bool) : takeTokens fuel (ts.flatMap tokenBits ++ (fixedCode 256 ++ rest)) = some (ts, rest) := by
  induction ts generalizing fuel with
  | nil =>
    obtain ⟨fuel, rfl⟩ : ∃ n, fuel = n + 1 := Nat.exists_eq_succ_of_ne_zero (by omega)
    rw [List.flatMap_nil, List.nil_append, takeTokens, takeSymbol_fixedCode (by decide), Option.bind_some, if_pos rfl]
  | cons t ts ih =>
    obtain ⟨fuel, rfl⟩ : ∃ n, fuel = n + 1 := Nat.exists_eq_succ_of_ne_zero (by omega)
    rw [List.length_cons] at hfuel
    obtain ⟨ht, hts⟩ := List.forall_mem_cons.1 hts
    rw [List.flatMap_cons, List.append_assoc, takeTokens_tokenBits ht, ih hts (by omega), Option.map_some]

/-- The decoder reads the one block of FIXED. -/
theorem inflate_fixedBits (fuel : Nat) (d : List Byte) (rest : List Bool) :
    inflate (fuel + 1) (fixedBits d ++ rest) [] = some (d, rest) := by
  have hfuel := length_le_length_flatMap_tokenBits (tokens d)
  have hexpand : expand (tokens d) [] = some d := tokensExpandToInput d
  rw [fixedBits, inflate]
  simp only [List.append_assoc, takeLsb_bitsLsb, Option.bind_some]
  rw [if_neg (by decide), if_pos (by decide),
    takeTokens_flatMap_tokenBits (fun _ => encodable_of_mem_tokens)
      (by have := fixedCode_length_pos 256; simp only [List.length_append]; omega),
    Option.bind_some, hexpand]
  rfl

/-! ### The decoder on a stream (R93 to R95, R107) -/

/-- Whatever bytes follow the deflate data, the decoder returns the input and stands before them once aligned. -/
theorem inflate_deflate (m : ZMode) (d trailer : List Byte) :
    ∃ rest, inflate ((deflate m d ++ trailer).length + 1) (unpackBits (deflate m d ++ trailer)) [] = some (d, rest) ∧
      alignByte rest = unpackBits trailer := by
  have htrailer : (unpackBits trailer).length % 8 = 0 := by rw [unpackBits_length]; omega
  rw [unpackBits_append]
  cases m with
  | stored =>
    have hlength := stored_length d
    exact ⟨_, inflate_stored (by rw [List.length_append, deflate]; omega) htrailer,
      alignByte_append (bs := []) (by decide) htrailer⟩
  | fixed =>
    obtain ⟨pad, hpad, hbits⟩ := unpackBits_packBits (fixedBits d)
    refine ⟨List.replicate pad false ++ unpackBits trailer, ?_, alignByte_append (by simpa using hpad) htrailer⟩
    rw [deflate, fixed, hbits, List.append_assoc, inflate_fixedBits]

/-- The header passes the decoder's check (R94). -/
theorem zlibHeader_ok (m : ZMode) : (0x78 : Byte).toNat % 16 = 8 ∧
    ((0x78 : Byte).toNat * 256 + (zlibFlg m).toNat) % 31 = 0 ∧ (zlibFlg m).getLsbD 5 = false := by
  cases m <;> decide

/-- The decoder returns the input and accepts its checksum. -/
theorem zlibDecode_zlibStream (m : ZMode) (d : List Byte) :
    zlibDecode (zlibStream m d (adlerSeq 0x00000001#32 d)) = some d := by
  obtain ⟨rest, hinflate, halign⟩ := inflate_deflate m d (be32 (adlerSeq 0x00000001#32 d))
  have htrailer := takeBytes_unpackBits (be32 (adlerSeq 0x00000001#32 d)) []
  rw [be32_length, List.append_nil] at htrailer
  rw [zlibStream, List.append_assoc, List.cons_append, List.singleton_append, zlibDecode, if_pos (zlibHeader_ok m), hinflate,
    Option.bind_some, halign, htrailer, Option.bind_some, if_pos ⟨rfl, rfl⟩]

/-- Settles O35: header and trailer written out, the packed bits of FIXED (the statement's clauses unfold to
`fixedBits`), and the decoder on the stream. -/
theorem zlibStreamIsLossless : Obligations.ZlibStreamIsLossless := by
  refine ⟨fun m d a => by cases m <;> rfl, fun d => ?_, zlibDecode_zlibStream⟩
  obtain ⟨pad, hpad, hbits⟩ := unpackBits_packBits (fixedBits d)
  exact ⟨pad, hpad, hbits⟩

end Sys2Proof.Machine

/-! The compressor commands (O26 to O29): each is its pseudocode where its checks pass, and the completion (42_deflate.md R103
to R106). -/

namespace Sys2Proof.Machine

/-- Settles O26: the one check passes. -/
theorem zBeginOpensStream : Obligations.ZBeginOpensStream := by
  intro s hz
  have hbody : bodyOf .zBegin s = .ok s.streamOpened := by rw [bodyOf, hz]; rfl
  rw [exec_ok hbody]
  rfl

/-- Bytes that fit in ZIN are appended (R104, R105). -/
theorem feedStream_fits {bs : List Byte} {s : State} (hz : s.zopen = true)
    (h : s.zin.length + bs.length ≤ s.build.zinMax) : feedStream bs s = .ok (s.feed bs) := by
  rw [feedStream, hz, require_true, decide_eq_true h, require_true]

/-- Bytes that do not fit raise ZFULL (R104, R105). -/
theorem feedStream_full {bs : List Byte} {s : State} (hz : s.zopen = true)
    (h : s.build.zinMax < s.zin.length + bs.length) : feedStream bs s = raise .zfull := by
  rw [feedStream, hz, require_true, decide_eq_false (by omega), require_false]

/-- Settles O27: one byte, or the four of DATA, that fit. -/
theorem zBytesAppendToZin : Obligations.ZBytesAppendToZin :=
  fun _ b hz => ⟨fun h => exec_ok (i := .zByte b) (feedStream_fits hz h),
    fun h => exec_ok (i := .zWord) (feedStream_fits hz h)⟩

/-- ZFULL leaves all but ERR, ERRCODE and PEND (60_exceptions.md R126). -/
theorem exec_zfull {i : Instr} {s : State} (h : bodyOf i s = raise .zfull) :
    exec i s = .next { s with err := true, errcode := some .zfull, pend := none } := by
  rw [exec_eq_finish, h, finish_raise]
  rfl

/-- Settles O28: one byte, or the four of DATA, that do not fit. -/
theorem zinFullAppendsNothing : Obligations.ZinFullAppendsNothing :=
  fun s b hz => ⟨fun h => exec_zfull (i := .zByte b) (feedStream_full hz h),
    fun h => exec_zfull (i := .zWord) (feedStream_full (bs := s.dataBytes) hz h)⟩

/-- Settles O29: the bytes written out are the stream, and its puts fit. -/
theorem zEndEmitsStream : Obligations.ZEndEmitsStream := by
  intro s z hz hroom
  have hstream : zlibStream s.zmode s.zin s.adler = z := by
    change _ = (if s.zmode = .fixed then _ else _) ++ _
    cases s.zmode <;> rfl
  rw [← hstream] at hroom ⊢
  refine ⟨_, bytesWritten_writeSeq _ _ _, ?_⟩
  rw [exec_ok (zEnd_fits hz hroom), ← add_ofNat, ← add_ofNat]
  rfl

end Sys2Proof.Machine

/-! The checksum units (O17 to O21): each command is its update and the completion, the CRC update is division with the bits
reversed, and the Adler-32 update is two sums (43_crc32.md R108 to R117). -/

namespace Sys2Proof.Machine

/-! ### The commands (R111 to R113, R115 to R117) -/

/-- Settles O17: no CRC command has a check, and BE32(DATA) is folded from its most significant byte. -/
theorem crcCommandsUpdateCrc : Obligations.CrcCommandsUpdateCrc :=
  fun _ b => ⟨exec_ok (i := .crcInit) rfl, exec_ok (i := .crcByte b) rfl, exec_ok (i := .crcWord) rfl⟩

/-- Settles O18: no Adler-32 command has a check, and BE32(DATA) is folded from its most significant byte. -/
theorem adlerCommandsUpdateAdler : Obligations.AdlerCommandsUpdateAdler :=
  fun _ b => ⟨exec_ok (i := .adlerInit) rfl, exec_ok (i := .adlerByte b) rfl, exec_ok (i := .adlerWord) rfl⟩

/-! ### The CRC (R108 to R110) -/

/-- Settles O20: the model's value on the nine bytes, and `crcSeq_append`. -/
theorem crcCheckValueAndFolding : Obligations.CrcCheckValueAndFolding :=
  ⟨by decide +kernel, fun c s t => crcSeq_append s t c⟩

theorem reverse_xor {w : Nat} (x y : BitVec w) : (x ^^^ y).reverse = x.reverse ^^^ y.reverse := by
  refine BitVec.eq_of_getMsbD_eq fun i _ => ?_
  simp only [BitVec.getMsbD_reverse, BitVec.getMsbD_xor, BitVec.getLsbD_xor]

theorem reverse_ushiftRight {w : Nat} (x : BitVec w) (n : Nat) : (x >>> n).reverse = x.reverse <<< n := by
  refine BitVec.eq_of_getMsbD_eq fun i _ => ?_
  simp [BitVec.getMsbD_reverse, BitVec.getMsbD_shiftLeft, BitVec.getLsbD_ushiftRight, Nat.add_comm]

/-- The model's polynomial is the generator with its bits reversed (R108). -/
theorem reverse_crcPoly : crcPoly.reverse = 0x04C11DB7#32 := by decide +kernel

/-- A repetition of crc_upd8 is a step of the division: the bit shifted out is the top bit of the reversed state. -/
theorem reverse_crcShift (c : Word) : (crcShift c).reverse = divStep c.reverse := by
  rw [crcShift, apply_ite BitVec.reverse, reverse_xor, reverse_ushiftRight, reverse_crcPoly, divStep, BitVec.msb_reverse]

/-- The byte enters the state at its low end, and the division at its top. -/
theorem reverse_setWidth_byte (b : Byte) : (b.setWidth 32).reverse = (b.reverse ++ 0#24 : BitVec (8 + 24)) := by
  have happend : b.setWidth 32 = (0#24 ++ b : BitVec (24 + 8)) := BitVec.setWidth_eq_append (by decide)
  rw [happend, BitVec.reverse_append]
  rfl

/-- Settles O19: the reversed operand of the division is the reverse of the operand of crc_upd8, and each of the eight steps
is the reverse of a repetition. -/
theorem crcIsReflectedDivision : Obligations.CrcIsReflectedDivision := by
  intro c b
  rw [divByte, ← reverse_setWidth_byte, ← reverse_xor]
  simp only [← reverse_crcShift]
  rfl

/-! ### Adler-32 (R114) -/

theorem halves_toNat (a : Word) :
    (a.extractLsb' 0 16).toNat = a.toNat % 65536 ∧ (a.extractLsb' 16 16).toNat = a.toNat / 65536 := by
  simp only [BitVec.extractLsb'_toNat, Nat.shiftRight_eq_div_pow]
  omega

/-- Two numbers that fit in 16 bits are the halves of the word packed from them. -/
theorem halves_pack {s1 s2 : Nat} (h1 : s1 < 65536) (h2 : s2 < 65536) :
    ((BitVec.ofNat 32 (s2 * 65536 + s1)).extractLsb' 0 16).toNat = s1 ∧
      ((BitVec.ofNat 32 (s2 * 65536 + s1)).extractLsb' 16 16).toNat = s2 := by
  obtain ⟨hlow, hhigh⟩ := halves_toNat (BitVec.ofNat 32 (s2 * 65536 + s1))
  rw [BitVec.toNat_ofNat] at hlow hhigh
  omega

theorem mod_adlerMod_lt (n : Nat) : n % adlerMod < 65536 := (Nat.mod_lt n (by decide)).trans (by decide)

/-- Settles O21: both sums are below the modulus, so the word packed from them has them as its halves. -/
theorem adlerHalvesAreTheSums : Obligations.AdlerHalvesAreTheSums := by
  intro a b
  obtain ⟨hlow, hhigh⟩ := halves_toNat a
  rw [hlow, hhigh]
  exact halves_pack (mod_adlerMod_lt _) (mod_adlerMod_lt _)

end Sys2Proof.Machine

/-! NOP (O16): its issue and its completion, and the words around it (44_misc.md R119, 30_encoding.md R71). -/

namespace Sys2Proof.Machine

/-- The words beside NOP fail check 2, or check 3 as words of the N row of OP 0 (R71). -/
theorem wordWellFormed_beside_nop {w : Word} (h : (opField w = 0 ∧ immField w ≠ 0) ∨ mbzField w ≠ 0) :
    wordWellFormed w = false := by
  rw [← Bool.not_eq_true, wordWellFormed_iff]
  rintro ⟨-, hmbz, himm⟩
  rcases h with ⟨hop, hne⟩ | hne
  · rw [hop] at himm
    exact himm.elim (by decide) hne
  · exact hne hmbz

/-- Settles O16: NOP has no check and an empty body, and the words beside it are not well formed. -/
theorem nopOnlyCompletes : Obligations.NopOnlyCompletes :=
  ⟨fun _ => ⟨rfl, busy_eq_true (by simp)⟩, fun _ => exec_ok (i := .nop) rfl, decode_encode .nop,
    fun _ h => decode_error_of_illformed (wordWellFormed_beside_nop h)⟩

end Sys2Proof.Machine

/-! Command outcomes (O10): completion with the error that the check order expects, and with success where there is none and
CHUNK_END's length patch is inside OBUF (60_exceptions.md R124 to R127). -/

namespace Sys2Proof.Machine

/-! ### The two completions (R125, R126) -/

theorem failedWith_completeError (s : State) (start : Nat) (e : CmdError) :
    FailedWith s start e (s.completeError start e) := by
  refine ⟨(s.completeError start e).obuf, (s.completeError start e).draws, ?_, fun he => ?_,
    fun _ => read_completeError s e, ?_⟩
  · cases e <;> rfl
  · exact ⟨State.completeError_obuf_other s start he, State.completeError_draws_other s start he⟩
  · rintro rfl
    exact ⟨State.completeError_draws_oflow s start, fun _ => Memory.read_forget_inside⟩

theorem succeeded_completeOk {s t : State} (h : BodyFrame s t) : Succeeded s t.completeOk :=
  ⟨rfl, rfl, h.err, h.ovr, h.errcode⟩

/-! ### No error expected (R124) -/

theorem seqAllowed_of_expectedError_none {i : Instr} {s : State} (h : expectedError i s = none) :
    seqAllowed i s = true := by
  by_contra hseq
  rw [expectedError_eq, if_pos (eq_false_of_ne_true hseq)] at h
  cases h

/-- With a chunk open, the commands allowed besides CHUNK_END neither open a chunk nor close one, so none patches. -/
theorem bodyOf_faultless_of_copen {i : Instr} {s : State} (hc : s.copen = true) (hseq : seqAllowed i s = true)
    (hend : i ≠ .chunkEnd) : Faultless (bodyOf i s) := by
  cases i <;> simp only [bodyOf]
  case putByte imm =>
    rw [put_eq_putAll]
    exact .putAll _ s
  case putWord => exact .putAll _ s
  case chunkEnd => exact absurd rfl hend
  case zBegin => exact .require fun _ => .ok _
  case zByte | zWord => exact .require fun _ => .require fun _ => .ok _
  case zEnd => exact .require fun _ => .map (.putAll ..) _
  case chunkBegin | emitSig | emitIhdr | emitIdat | emitIend | encode => simp [seqAllowed, hc] at hseq
  all_goals exact .ok _

/-- An allowed command does not fault: CHUNK_END, which alone patches a header that it has not itself emitted, is asked that
the patch be inside OBUF. -/
theorem bodyOf_faultless_of_seqAllowed {i : Instr} {s : State} (hseq : seqAllowed i s = true)
    (hpatch : i = .chunkEnd → s.cstart.toNat + 4 ≤ s.build.obufSize) : Faultless (bodyOf i s) := by
  by_cases hend : i = .chunkEnd
  · have hinside : s.cstart.toNat + 3 < s.build.obufSize := hpatch hend
    rw [hend, bodyOf]
    exact .require fun _ => .chunkEnd hinside
  · cases hc : s.copen with
    | false => exact bodyOf_faultless (by simp [hc]) i
    | true => exact bodyOf_faultless_of_copen hc hseq hend

/-- A command with no error to expect raises none, so where it does not fault either its pseudocode ends in a state. -/
theorem bodyOf_ok_of_expectedError_none {i : Instr} {s : State} (h : expectedError i s = none)
    (hpatch : i = .chunkEnd → s.cstart.toNat + 4 ≤ s.build.obufSize) : ∃ u, bodyOf i s = .ok u := by
  rcases bodyOf_faultless_of_seqAllowed (seqAllowed_of_expectedError_none h) hpatch with hok | ⟨e, he⟩
  · exact hok
  · have hexpected : expectedError i s = some e := (bodyOf_raises i s e).1 he
    simp [h] at hexpected

/-- Settles O10: the pseudocode raises the first error of the check order or, with none to raise, ends in a state. -/
theorem outcomeFollowsCheckOrder : Obligations.OutcomeFollowsCheckOrder := by
  intro i s
  cases hexpected : expectedError i s with
  | some e =>
    have hraise : bodyOf i s = raise e := (bodyOf_raises i s e).2 hexpected
    exact ⟨_, by rw [exec_eq_finish, hraise, finish_raise], failedWith_completeError s _ e⟩
  | none =>
    intro hpatch
    obtain ⟨u, hu⟩ := bodyOf_ok_of_expectedError_none hexpected hpatch
    exact ⟨_, exec_ok hu, succeeded_completeOk (bodyOf_frame hu)⟩

end Sys2Proof.Machine

/-! Host accesses while RST is asserted (O52): a listed read or write is the one kind of event that waits for RST to be
released (70_reset_and_hazards.md R142, U10). -/

namespace Sys2Proof.Machine

/-- RST asserted, the state that the access would have led to does not matter (R142). -/
theorem whenReleased_asserted {s : State} (hrst : s.rst = true) (t : State) :
    s.whenReleased t = .fault .accessDuringReset :=
  if_pos hrst

/-- Settles O52: the listed access acts with RST as the step found it. -/
theorem accessDuringResetStops : Obligations.AccessDuringResetStops := by
  intro s addr v size rest hrst hagenda
  have hpopped : s.popped.rst = true := hrst
  rcases hagenda with hread | hwrite
  · rw [step_cons hread]
    exact whenReleased_asserted hpopped (s.popped.hostRead addr size)
  · rw [step_cons hwrite]
    exact whenReleased_asserted hpopped (s.popped.hostWrite addr size v)

end Sys2Proof.Machine

/-! The canonical form of OBUF (O60): its cells and its origins are each determined by what they say of the offsets (log 9). -/

namespace Sys2Proof.Machine

/-! ### Cells -/

/-- Each offset is listed once, so the cells found are those listed. -/
theorem findCell_eq_some_iff_mem {cs : List Host.Cell} (h : cs.Pairwise fun c d => c.1 < d.1) {a : Nat} {b : Byte} :
    findCell a cs = some b ↔ (a, b) ∈ cs := by
  induction cs with
  | nil => simp [findCell]
  | cons c rest ih =>
    obtain ⟨k, v⟩ := c
    obtain ⟨hk, hrest⟩ := List.pairwise_cons.1 h
    rw [findCell, List.mem_cons, Prod.mk.injEq]
    split_ifs with hka
    · subst hka
      have hnot : (k, b) ∉ rest := fun hb => lt_irrefl k (hk _ hb)
      simp [hnot, eq_comm]
    · simp [Ne.symm hka, ih hrest]

/-- Cells at strictly rising offsets are determined by what is found. -/
theorem cells_eq_of_findCell_eq {cs ds : List Host.Cell} (hcs : cs.Pairwise fun c d => c.1 < d.1)
    (hds : ds.Pairwise fun c d => c.1 < d.1) (h : ∀ a, findCell a cs = findCell a ds) : cs = ds := by
  have : Std.Irrefl fun c d : Host.Cell => c.1 < d.1 := ⟨fun _ => lt_irrefl _⟩
  have : Std.Antisymm fun c d : Host.Cell => c.1 < d.1 := ⟨fun _ _ hcd hdc => absurd hcd hdc.not_gt⟩
  refine List.Pairwise.eq_of_mem_iff hcs hds fun c => ?_
  rw [← findCell_eq_some_iff_mem hcs, h, findCell_eq_some_iff_mem hds]

/-! ### Origins -/

/-- What the canonical form says of a first origin: it changes the draw, and every later one starts above it. -/
theorem originsRise_cons {size cur : Nat} {o : Origin} {l : List Origin} (h : originsRise size cur (o :: l) = true) :
    o.start ≤ size ∧ o.draw ≠ cur ∧ (∀ p ∈ l, o.start < p.start) ∧ originsRise size o.draw l = true := by
  obtain ⟨-, hpair⟩ := originsRise_pairwise _ h
  simp only [originsRise, Bool.and_eq_true, decide_eq_true_eq, bne_iff_ne] at h
  obtain ⟨⟨⟨hsize, hne⟩, -⟩, hrest⟩ := h
  exact ⟨hsize, hne, (List.pairwise_cons.1 hpair).1, hrest⟩

/-- The first origin has effect at its own start: the draw there is not the draw before it. -/
theorem drawFrom_first_start_ne {size cur : Nat} {o : Origin} {l : List Origin}
    (h : originsRise size cur (o :: l) = true) : drawFrom cur o.start (o :: l) ≠ cur := by
  obtain ⟨-, hne, habove, -⟩ := originsRise_cons h
  rwa [drawFrom, if_pos le_rfl, drawFrom_above habove]

/-- Origins that give the same draws do not have their first start above: the draw changes there (log 9). -/
theorem first_start_le {size cur : Nat} {o p : Origin} {l r : List Origin} (ho : originsRise size cur (o :: l) = true)
    (hp : originsRise size cur (p :: r) = true)
    (h : ∀ a, a ≤ size → drawFrom cur a (o :: l) = drawFrom cur a (p :: r)) : p.start ≤ o.start := by
  by_contra hnot
  obtain ⟨hsize, -, -, -⟩ := originsRise_cons ho
  obtain ⟨-, -, habove, -⟩ := originsRise_cons hp
  have hlt : o.start < p.start := Nat.lt_of_not_le hnot
  have hall : ∀ q ∈ p :: r, o.start < q.start :=
    List.forall_mem_cons.2 ⟨hlt, fun q hq => hlt.trans (habove q hq)⟩
  exact drawFrom_first_start_ne ho ((h _ hsize).trans (drawFrom_above hall))

/-- Origins in their canonical form are determined by the draws up to the size. -/
theorem origins_eq_of_drawFrom_eq {size : Nat} (l : List Origin) : ∀ {cur : Nat} {r : List Origin},
    originsRise size cur l = true → originsRise size cur r = true →
    (∀ a, a ≤ size → drawFrom cur a l = drawFrom cur a r) → l = r := by
  induction l with
  | nil =>
    intro cur r _ hr h
    cases r with
    | nil => rfl
    | cons p r => exact absurd (h _ (originsRise_cons hr).1).symm (drawFrom_first_start_ne hr)
  | cons o l ih =>
    intro cur r hl hr h
    cases r with
    | nil => exact absurd (h _ (originsRise_cons hl).1) (drawFrom_first_start_ne hl)
    | cons p r =>
      have hstart : o.start = p.start :=
        le_antisymm (first_start_le hr hl fun a ha => (h a ha).symm) (first_start_le hl hr h)
      obtain ⟨hsize, -, hol, hl⟩ := originsRise_cons hl
      obtain ⟨-, -, hpr, hr⟩ := originsRise_cons hr
      have hdraw : o.draw = p.draw := by
        have := h o.start hsize
        rwa [drawFrom, drawFrom, if_pos le_rfl, if_pos hstart.ge, drawFrom_above hol,
          drawFrom_above (hstart ▸ hpr)] at this
      obtain rfl : o = p := congrArg₂ Origin.mk hstart hdraw
      refine congrArg (o :: ·) (ih hl hr fun a ha => ?_)
      by_cases hle : o.start ≤ a
      · simpa [drawFrom, hle] using h a ha
      · have hlt : a < o.start := Nat.lt_of_not_le hle
        rw [drawFrom_above fun q hq => hlt.trans (hol q hq), drawFrom_above fun q hq => hlt.trans (hpr q hq)]

/-! ### Contents -/

theorem Memory.content_eq_specified_iff {m : Memory} {a : Nat} {b : Byte} :
    m.content a = .specified b ↔ findCell a m.cells = some b := by
  unfold Memory.content
  cases findCell a m.cells <;> simp

theorem Memory.findCell_eq_of_content_eq {m m' : Memory} {a : Nat} (h : m.content a = m'.content a) :
    findCell a m.cells = findCell a m'.cells :=
  Option.ext fun b => by rw [← content_eq_specified_iff, h, content_eq_specified_iff]

/-- A cell found in a canonical OBUF is below the size and of no event. -/
theorem Memory.wf_findCell {m : Memory} {size a : Nat} {b : Byte} (hm : m.wf size = true)
    (hb : findCell a m.cells = some b) : a < size ∧ drawAt a m.origins = 0 := by
  obtain ⟨hcells, hall, -, -⟩ := (Memory.wf_iff m size).1 hm
  exact hall _ ((findCell_eq_some_iff_mem hcells).1 hb)

theorem Memory.wf_findCell_beyond {m : Memory} {size a : Nat} (hm : m.wf size = true) (ha : size ≤ a) :
    findCell a m.cells = none :=
  Option.eq_none_iff_forall_ne_some.2 fun _ hb => absurd (Memory.wf_findCell hm hb).1 ha.not_gt

/-- In a canonical OBUF the content fixes the draw also where it is a specified byte, which is of no event. -/
theorem Memory.drawAt_eq_of_content_eq {m m' : Memory} {size a : Nat} (hm : m.wf size = true)
    (hm' : m'.wf size = true) (h : m.content a = m'.content a) : drawAt a m.origins = drawAt a m'.origins := by
  have hfind := Memory.findCell_eq_of_content_eq h
  cases hb : findCell a m.cells with
  | some b => rw [(Memory.wf_findCell hm hb).2, (Memory.wf_findCell hm' (hfind ▸ hb)).2]
  | none => simpa [Memory.content, ← hfind, hb] using h

/-- Settles O60: the contents fix the byte found and the draw at every offset, and these fix the two lists. -/
theorem canonicalCellsAreUnique : Obligations.CanonicalCellsAreUnique := by
  intro size m m' hm hm' h
  obtain ⟨hcells, -, horigins, hend⟩ := (Memory.wf_iff m size).1 hm
  obtain ⟨hcells', -, horigins', hend'⟩ := (Memory.wf_iff m' size).1 hm'
  have hfind : ∀ a, findCell a m.cells = findCell a m'.cells := fun a => by
    rcases Nat.lt_or_ge a size with ha | ha
    · exact Memory.findCell_eq_of_content_eq (h a ha)
    · rw [Memory.wf_findCell_beyond hm ha, Memory.wf_findCell_beyond hm' ha]
  have hdraw : ∀ a, a ≤ size → drawAt a m.origins = drawAt a m'.origins := fun a ha => by
    rcases ha.lt_or_eq with ha | rfl
    · exact Memory.drawAt_eq_of_content_eq hm hm' (h a ha)
    · rw [hend, hend']
  have hcellsEq : m.cells = m'.cells := cells_eq_of_findCell_eq hcells hcells' hfind
  have horiginsEq : m.origins = m'.origins := origins_eq_of_drawFrom_eq _ horigins horigins' hdraw
  exact congrArg₂ Memory.mk hcellsEq horiginsEq

end Sys2Proof.Machine
